-- ==== Sys2Proof/Word.lean ====
section
/-! DEFINITION. The machine's words (spec/00_scope.md R7, R11; spec/92_eei_decisions.md D27): bytes, pulse widths,
times, CAN identifiers, and the one container of eight like things, used for the eight channels and for the eight
bytes of a CAN payload. -/

namespace Sys2Proof

/-- One byte of a CAN payload (spec/20_memory.md R52: "All fields of all frames are single bytes"). -/
abbrev Byte := BitVec 8

/-- A pulse width in timer ticks, `PW_W = 16` bits (spec/10_state.md R23). -/
abbrev Width := BitVec 16

/-- A value of the time input `now`, `TIME_W = 32` bits (spec/10_state.md R29, R36). -/
abbrev Time := BitVec 32

/-- A CAN identifier, `u32`, compared in all 32 bits (spec/20_memory.md R51). -/
abbrev CanId := BitVec 32

/-- Eight like things under the indexes 0 to 7. -/
structure Eight (α : Type) where
  a0 : α
  a1 : α
  a2 : α
  a3 : α
  a4 : α
  a5 : α
  a6 : α
  a7 : α
  deriving DecidableEq, Repr

/-- The thing under index `i`. -/
def Eight.get {α : Type} (e : Eight α) (i : Fin 8) : α :=
  match i.val with
  | 0 => e.a0
  | 1 => e.a1
  | 2 => e.a2
  | 3 => e.a3
  | 4 => e.a4
  | 5 => e.a5
  | 6 => e.a6
  | _ => e.a7

/-- `e` with the thing under index `i` replaced by `x`. -/
def Eight.set {α : Type} (e : Eight α) (i : Fin 8) (x : α) : Eight α :=
  match i.val with
  | 0 => { e with a0 := x }
  | 1 => { e with a1 := x }
  | 2 => { e with a2 := x }
  | 3 => { e with a3 := x }
  | 4 => { e with a4 := x }
  | 5 => { e with a5 := x }
  | 6 => { e with a6 := x }
  | _ => { e with a7 := x }

/-- Each of the eight things sent through `f`. -/
def Eight.map {α β : Type} (f : α → β) (e : Eight α) : Eight β :=
  ⟨f e.a0, f e.a1, f e.a2, f e.a3, f e.a4, f e.a5, f e.a6, f e.a7⟩

/-- The same thing eight times. -/
def Eight.const {α : Type} (x : α) : Eight α := ⟨x, x, x, x, x, x, x, x⟩

/-- The indexes 0 to 7 in ascending order. -/
def Eight.indexes : List (Fin 8) := [0, 1, 2, 3, 4, 5, 6, 7]

/-- The eight bytes of a CAN data field, byte 0 the first on the bus (spec/20_memory.md R54). -/
abbrev Payload := Eight Byte

/-- A `CanFrame`: identifier, length 0 to 8 (the 4-bit ports can carry 9 to 15) and data bytes
(spec/20_memory.md R51, spec/10_state.md R36). Bytes at an index not below `len` carry no meaning on receive and are
0 on transmit (spec/40_can_codec.md R90, R94). -/
structure Frame where
  id : CanId
  len : BitVec 4
  data : Payload
  deriving DecidableEq, Repr

end Sys2Proof
end

