-- ==== Sys2Proof/Config.lean ====
section
/-! DEFINITION. The names the spec's configuration is indexed by, the configuration record `cfg` of spec/00_scope.md
R8 as plain data, its reference values, and the one free value of the model. -/

namespace Sys2Proof

/-- The kill states (spec/10_state.md R21, spec/44_kill_fsm.md R140). The fourth code of the 2-bit register cannot be
written down (spec/92_eei_decisions.md D33). -/
inductive KillState where
  | hardKilled
  | softKilled
  | running
  deriving DecidableEq, Repr

/-- The six status events (spec/40_can_codec.md R90). -/
inductive StatusEvent where
  | hardKilled
  | softKilled
  | hardUnkilled
  | softUnkilled
  | goAsserted
  | goUnasserted
  deriving DecidableEq, Repr

/-- The three hall sensors (spec/42_hall_interlock.md, opening). -/
inductive Sensor where
  | soft
  | go
  | onoff
  deriving DecidableEq, Repr

/-- The configured polarity of a sensor (spec/42_hall_interlock.md R120). -/
inductive ActLevel where
  | activeHigh
  | activeLow
  deriving DecidableEq, Repr

/-- One thing for each hall sensor. -/
structure PerSensor (α : Type) where
  soft : α
  go : α
  onoff : α
  deriving DecidableEq, Repr

/-- The thing that belongs to sensor `k`. -/
def PerSensor.get {α : Type} (p : PerSensor α) (k : Sensor) : α :=
  match k with
  | .soft => p.soft
  | .go => p.go
  | .onoff => p.onoff

/-- A hall reading after the polarity filter, true = magnet present (spec/10_state.md R28). -/
abbrev Hall := PerSensor Bool

/-- One thing for each status event. -/
structure PerStatus (α : Type) where
  hardKilled : α
  softKilled : α
  hardUnkilled : α
  softUnkilled : α
  goAsserted : α
  goUnasserted : α
  deriving DecidableEq, Repr

/-- The thing that belongs to status event `e`. -/
def PerStatus.get {α : Type} (p : PerStatus α) (e : StatusEvent) : α :=
  match e with
  | .hardKilled => p.hardKilled
  | .softKilled => p.softKilled
  | .hardUnkilled => p.hardUnkilled
  | .softUnkilled => p.softUnkilled
  | .goAsserted => p.goAsserted
  | .goUnasserted => p.goUnasserted

/-- One thing for each kill state. -/
structure PerKill (α : Type) where
  hardKilled : α
  softKilled : α
  running : α
  deriving DecidableEq, Repr

/-- The thing that belongs to kill state `k`. -/
def PerKill.get {α : Type} (p : PerKill α) (k : KillState) : α :=
  match k with
  | .hardKilled => p.hardKilled
  | .softKilled => p.softKilled
  | .running => p.running

/-- `p` with the thing of kill state `k` replaced by `x`. -/
def PerKill.set {α : Type} (p : PerKill α) (k : KillState) (x : α) : PerKill α :=
  match k with
  | .hardKilled => { p with hardKilled := x }
  | .softKilled => { p with softKilled := x }
  | .running => { p with running := x }

/-- A thruster channel, numbered 0 to 7 (spec/20_memory.md R53): bit 2 front 0 or back 1, bit 1 horizontal 0 or
vertical 1, bit 0 left 0 or right 1. -/
abbrev Channel := Fin 8

/-- Front horizontal left, channel 0. -/
abbrev Channel.fhl : Channel := 0
/-- Front horizontal right, channel 1. -/
abbrev Channel.fhr : Channel := 1
/-- Front vertical left, channel 2. -/
abbrev Channel.fvl : Channel := 2
/-- Front vertical right, channel 3. -/
abbrev Channel.fvr : Channel := 3
/-- Back horizontal left, channel 4. -/
abbrev Channel.bhl : Channel := 4
/-- Back horizontal right, channel 5. -/
abbrev Channel.bhr : Channel := 5
/-- Back vertical left, channel 6. -/
abbrev Channel.bvl : Channel := 6
/-- Back vertical right, channel 7. -/
abbrev Channel.bvr : Channel := 7

/-- A generator identifier. DESIGN CHOICE [3], safe: eight channels use at most eight generators, so eight names are
enough for every configuration. -/
abbrev GenId := Fin 8

/-- The pulse-width constants of one generator, in timer ticks (spec/00_scope.md R8). -/
structure GenParams where
  rev : Nat
  neutral : Nat
  fwd : Nat
  periodTicks : Nat
  deriving DecidableEq, Repr

/-- A payload offset 0 to 7 (spec/20_memory.md R52). -/
abbrev Offset := Fin 8

/-- One element of `THRUST_FORMATS` (spec/30_encoding.md R74). -/
structure ThrustFormat where
  tag : Byte
  len : Nat
  speedOff : Eight (Option Offset)
  crOff : Offset
  hsOff : Offset
  uaOff : Offset
  deriving DecidableEq, Repr

/-- The configuration `cfg` (spec/00_scope.md R8). `STATUS_REFRESH` is the table of its values over `ks` and
`hall_last`, the only two things it may read ([4]). `timeUnitUs`, `wdTickPeriod`, `statusTickPeriod`, `pin` and
`periodTicks` are read by no rule of CORE (spec/10_state.md R31). -/
structure Cfg where
  statusId : PerStatus CanId
  cmdIds : List CanId
  thrustFormats : List ThrustFormat
  gen : Eight GenId
  pin : Eight Nat
  gens : Eight GenParams
  actLevel : PerSensor ActLevel
  wdTimeout : Nat
  hardKillDelay : Nat
  timeUnitUs : Nat
  wdTickPeriod : Nat
  statusTickPeriod : Nat
  statusRefresh : PerKill (Eight (List StatusEvent))
  deriving DecidableEq, Repr

/-- The PWM period in microseconds, a constant of the source (spec/00_scope.md R7). No rule of CORE reads it. -/
def pwmPeriodUs : Nat := 2000

/-- Reference thrust format `H` (spec/30_encoding.md R75): tag 0x48, channels 0, 1, 4, 5 at offsets 1 to 4. -/
def ThrustFormat.h : ThrustFormat :=
  { tag := 0x48, len := 8,
    speedOff := ⟨some 1, some 2, none, none, some 3, some 4, none, none⟩,
    crOff := 5, hsOff := 6, uaOff := 7 }

/-- Reference thrust format `V` (spec/30_encoding.md R75): tag 0x56, channels 2, 3, 6, 7 at offsets 1 to 4. -/
def ThrustFormat.v : ThrustFormat :=
  { tag := 0x56, len := 8,
    speedOff := ⟨none, none, some 1, some 2, none, none, some 3, some 4⟩,
    crOff := 5, hsOff := 6, uaOff := 7 }

/-- The reference values of every parameter (spec/00_scope.md R8, last but one column). -/
def Cfg.reference : Cfg :=
  { statusId := ⟨0x20, 0x20, 0x20, 0x20, 0x20, 0x20⟩,
    cmdIds := [0x10],
    thrustFormats := [ThrustFormat.h, ThrustFormat.v],
    gen := ⟨0, 0, 1, 1, 2, 2, 3, 3⟩,
    pin := ⟨0, 1, 2, 3, 4, 5, 6, 7⟩,
    gens := Eight.const ⟨1100, 1500, 1900, 2000⟩,
    actLevel := ⟨.activeHigh, .activeHigh, .activeHigh⟩,
    wdTimeout := 2000,
    hardKillDelay := 500,
    timeUnitUs := 1000,
    wdTickPeriod := 1000,
    statusTickPeriod := 1000,
    statusRefresh := ⟨Eight.const [], Eight.const [], Eight.const []⟩ }

/-- The free value of the model (spec/93_implementation_defined.md U2, [6]): the answer of the environment to the
`n`-th action with a result for which State holds no ack. Nothing is known of it. -/
opaque Config.freeAck : Nat → Bool

end Sys2Proof
end

