-- ==== Sys2Proof/Syntax.lean ====
section
/-! DEFINITION. The instructions: one constructor for each row of spec/opcode_table.json. CORE has no instruction set
(spec/00_scope.md R2); what takes its place is the CAN frame vocabulary of spec/30_encoding.md. -/

namespace Sys2Proof

/-- The twelve rows. Every operand is one byte and every byte value is accepted in every operand position
(spec/40_can_codec.md R97), so every term of this type is a well-formed frame. -/
inductive Instr where
  /-- Received: hard-kill command (spec/40_can_codec.md R100). -/
  | kcha
  /-- Received: soft-kill command (spec/40_can_codec.md R101). -/
  | kcsa
  /-- Received: hard-unkill command (spec/40_can_codec.md R102). -/
  | kchu
  /-- Received: soft-unkill command (spec/40_can_codec.md R103). -/
  | kcsu
  /-- Received: thrust command of reference format `H`: speeds of channels 0, 1, 4, 5, then `CR`, `HS`, `UA`
  (spec/30_encoding.md R75, spec/40_can_codec.md R104). -/
  | thrustH (s0 s1 s4 s5 cr hs ua : Byte)
  /-- Received: thrust command of reference format `V`: speeds of channels 2, 3, 6, 7, then `CR`, `HS`, `UA`
  (spec/30_encoding.md R75, spec/40_can_codec.md R104). -/
  | thrustV (s2 s3 s6 s7 cr hs ua : Byte)
  /-- Transmitted: status `HardKilled` (spec/40_can_codec.md R105). -/
  | krha
  /-- Transmitted: status `SoftKilled` (spec/40_can_codec.md R106). -/
  | krsa
  /-- Transmitted: status `HardUnkilled` (spec/40_can_codec.md R107). -/
  | krhu
  /-- Transmitted: status `SoftUnkilled` (spec/40_can_codec.md R108). -/
  | krsu
  /-- Transmitted: status `GoAsserted` (spec/40_can_codec.md R109). -/
  | ga
  /-- Transmitted: status `GoUnasserted` (spec/40_can_codec.md R110). -/
  | gu
  deriving DecidableEq, Repr

end Sys2Proof
end

