-- ==== Sys2Proof/WellFormed.lean ====
section
/-! DEFINITION. What a well-formed configuration is (spec/00_scope.md R8, third column; spec/30_encoding.md R74;
spec/93_implementation_defined.md U1), one named check per constraint. The instructions need no check: every term of
`Instr` is a frame (spec/40_can_codec.md R97: every byte value is accepted in every operand position), so the only
well-formedness of the spec is that of `cfg`. -/

namespace Sys2Proof

/-- All six status events. -/
def StatusEvent.all : List StatusEvent :=
  [.hardKilled, .softKilled, .hardUnkilled, .softUnkilled, .goAsserted, .goUnasserted]

/-- "for every `e`, `STATUS_ID(e)` is not in `CMD_ID_SET`". -/
def Cfg.idsDisjoint (c : Cfg) : Bool :=
  StatusEvent.all.all fun e => !(c.cmdIds.contains (c.statusId.get e))

/-- The offsets a thrust format uses: its speed offsets in channel order, then `CR`, `HS`, `UA`. -/
def ThrustFormat.offsets (f : ThrustFormat) : List Offset :=
  Eight.indexes.filterMap f.speedOff.get ++ [f.crOff, f.hsOff, f.uaOff]

/-- `f.tag != 0x4B`. -/
def ThrustFormat.tagFree (f : ThrustFormat) : Bool := f.tag != 0x4B

/-- `1 <= f.len <= 8`. -/
def ThrustFormat.lenOk (f : ThrustFormat) : Bool := decide (1 ≤ f.len) && decide (f.len ≤ 8)

/-- The offsets of one format are pairwise different. -/
def ThrustFormat.offsetsDistinct (f : ThrustFormat) : Bool := decide f.offsets.Nodup

/-- No offset is 0 and all are `< f.len`. -/
def ThrustFormat.offsetsInside (f : ThrustFormat) : Bool :=
  f.offsets.all fun k => k != 0 && decide (k.val < f.len)

/-- Well-formedness of one thrust format (spec/30_encoding.md R74). -/
def ThrustFormat.wf (f : ThrustFormat) : Bool :=
  f.tagFree && f.lenOk && f.offsetsDistinct && f.offsetsInside

/-- "the tags of different formats differ". -/
def Cfg.tagsDistinct (c : Cfg) : Bool := decide (c.thrustFormats.map ThrustFormat.tag).Nodup

/-- `PW_REV(g) <= PW_NEUTRAL(g) <= PW_FWD(g) <= PERIOD_TICKS(g)` and `PERIOD_TICKS(g) < 2^16`. -/
def GenParams.wf (g : GenParams) : Bool :=
  decide (g.rev ≤ g.neutral) && decide (g.neutral ≤ g.fwd) && decide (g.fwd ≤ g.periodTicks) &&
    decide (g.periodTicks < 2 ^ 16)

/-- The constants of every generator are in order. -/
def Cfg.gensOk (c : Cfg) : Bool := Eight.indexes.all fun g => (c.gens.get g).wf

/-- `WD_TIMEOUT < 2^31` and `HARD_KILL_DELAY < 2^31`. -/
def Cfg.durationsOk (c : Cfg) : Bool :=
  decide (c.wdTimeout < 2 ^ 31) && decide (c.hardKillDelay < 2 ^ 31)

/-- A well-formed configuration: the precondition of every rule (spec/93_implementation_defined.md U1). -/
def Cfg.wf (c : Cfg) : Bool :=
  c.idsDisjoint && c.thrustFormats.all ThrustFormat.wf && c.tagsDistinct && c.gensOk && c.durationsOk

end Sys2Proof
end

