-- ==== Sys2Proof/Decode.lean ====
section
/-! DEFINITION. The pure functions of the CAN Protocol Codec (spec/40_can_codec.md R90 to R97, spec/30_encoding.md):
the encoder and the decoder of the status group, the decoder of the command group, the reading of a frame as an
instruction, and, after them, the encoder of instructions; last, what the configuration says of a channel. All are
total. -/

namespace Sys2Proof

/-- The four kill commands (spec/40_can_codec.md R92). -/
inductive KillCmd where
  | hardKill
  | softKill
  | hardUnkill
  | softUnkill
  deriving DecidableEq, Repr

/-- A `ThrustCommand`: channel and signed speed byte (spec/30_encoding.md R76). -/
abbrev ThrustCmd := Channel × Byte

/-- The tagged variant of spec/40_can_codec.md R92. -/
inductive DecodeResult where
  | killCommand (k : KillCmd)
  | thrust (cmds : List ThrustCmd) (cr hs ua : Byte)
  | unrecognized
  deriving DecidableEq, Repr

/-- Why a frame is no instruction. -/
inductive Reject where
  /-- `Unrecognized`: the frame is no row of spec/30_encoding.md R78 (spec/30_encoding.md R80). Safe: it is dropped. -/
  | unrecognized
  /-- The frame decodes as `Thrust(cmds, cr, hs, ua)` of a configured format that spec/opcode_table.json has no row
  for ([11]). Safe: the step processes it all the same. -/
  | otherFormat (cmds : List ThrustCmd) (cr hs ua : Byte)
  deriving DecidableEq, Repr

/-- The payload as a list in bus order (spec/20_memory.md R54). -/
def Payload.bytes (p : Payload) : List Byte := [p.a0, p.a1, p.a2, p.a3, p.a4, p.a5, p.a6, p.a7]

/-- The payload begins with the literal `lit`. -/
def Payload.startsWith (p : Payload) (lit : List Byte) : Bool := decide (p.bytes.take lit.length = lit)

/-- The payload on a 64-bit data port: byte `k` at bits `[8k+7:8k]` (spec/20_memory.md R54). -/
def Payload.pack (p : Payload) : BitVec 64 :=
  p.a7 ++ (p.a6 ++ (p.a5 ++ (p.a4 ++ (p.a3 ++ (p.a2 ++ (p.a1 ++ p.a0))))))

/-- The payload a 64-bit data port holds (spec/00_scope.md R11). -/
def Payload.unpack (w : BitVec 64) : Payload :=
  ⟨w.extractLsb' 0 8, w.extractLsb' 8 8, w.extractLsb' 16 8, w.extractLsb' 24 8,
    w.extractLsb' 32 8, w.extractLsb' 40 8, w.extractLsb' 48 8, w.extractLsb' 56 8⟩

/-- `"KCHA\0"` and the other nine literals of spec/30_encoding.md R71, R72 in the byte values of R70. -/
def litKCHA : List Byte := [0x4B, 0x43, 0x48, 0x41, 0x00]
/-- `"KCSA\0"`. -/
def litKCSA : List Byte := [0x4B, 0x43, 0x53, 0x41, 0x00]
/-- `"KCHU\0"`. -/
def litKCHU : List Byte := [0x4B, 0x43, 0x48, 0x55, 0x00]
/-- `"KCSU\0"`. -/
def litKCSU : List Byte := [0x4B, 0x43, 0x53, 0x55, 0x00]
/-- `"KRHA\0"`. -/
def litKRHA : List Byte := [0x4B, 0x52, 0x48, 0x41, 0x00]
/-- `"KRSA\0"`. -/
def litKRSA : List Byte := [0x4B, 0x52, 0x53, 0x41, 0x00]
/-- `"KRHU\0"`. -/
def litKRHU : List Byte := [0x4B, 0x52, 0x48, 0x55, 0x00]
/-- `"KRSU\0"`. -/
def litKRSU : List Byte := [0x4B, 0x52, 0x53, 0x55, 0x00]
/-- `"GA\0"`. -/
def litGA : List Byte := [0x47, 0x41, 0x00]
/-- `"GU\0"`. -/
def litGU : List Byte := [0x47, 0x55, 0x00]

/-- A payload of at most eight bytes, the bytes after them 0 (spec/40_can_codec.md R90: "the bytes at index `>= len`
are 0"). -/
def Payload.ofBytes (l : List Byte) : Payload :=
  ⟨l.getD 0 0, l.getD 1 0, l.getD 2 0, l.getD 3 0, l.getD 4 0, l.getD 5 0, l.getD 6 0, l.getD 7 0⟩

/-- The payload bytes of a status event (spec/40_can_codec.md R90, third column of the table). -/
def statusBytes (e : StatusEvent) : List Byte :=
  match e with
  | .hardKilled => litKRHA
  | .softKilled => litKRSA
  | .hardUnkilled => litKRHU
  | .softUnkilled => litKRSU
  | .goAsserted => litGA
  | .goUnasserted => litGU

/-- `encode_status(e)` (spec/40_can_codec.md R90). -/
def encodeStatus (c : Cfg) (e : StatusEvent) : Frame :=
  { id := c.statusId.get e, len := BitVec.ofNat 4 (statusBytes e).length, data := Payload.ofBytes (statusBytes e) }

/-- `decode_status(len, data)` (spec/40_can_codec.md R96); `none` is `Unrecognized`. Not connected to the Kill State
Machine: CORE never receives the status group. -/
def decodeStatus (len : Nat) (data : Payload) : Option StatusEvent :=
  if len = 5 ∧ data.startsWith litKRHA then some .hardKilled
  else if len = 5 ∧ data.startsWith litKRSA then some .softKilled
  else if len = 5 ∧ data.startsWith litKRHU then some .hardUnkilled
  else if len = 5 ∧ data.startsWith litKRSU then some .softUnkilled
  else if len = 3 ∧ data.startsWith litGA then some .goAsserted
  else if len = 3 ∧ data.startsWith litGU then some .goUnasserted
  else none

/-- `decode_kill(len, data)` (spec/40_can_codec.md R95): the match is exact, null byte and length included. -/
def decodeKill (len : Nat) (data : Payload) : DecodeResult :=
  if len ≠ 5 then .unrecognized
  else if data.startsWith litKCHA then .killCommand .hardKill
  else if data.startsWith litKCSA then .killCommand .softKill
  else if data.startsWith litKCHU then .killCommand .hardUnkill
  else if data.startsWith litKCSU then .killCommand .softUnkill
  else .unrecognized

/-- The `(ch, b)` pairs a frame of format `f` carries, in ascending channel order (spec/40_can_codec.md R97). -/
def ThrustFormat.cmds (f : ThrustFormat) (data : Payload) : List ThrustCmd :=
  Eight.indexes.filterMap fun ch => (f.speedOff.get ch).map fun k => (ch, data.get k)

/-- `decode_thrust(f, len, data)` (spec/40_can_codec.md R97): no byte value is rejected. -/
def decodeThrust (f : ThrustFormat) (len : Nat) (data : Payload) : DecodeResult :=
  if len ≠ f.len then .unrecognized
  else .thrust (f.cmds data) (data.get f.crOff) (data.get f.hsOff) (data.get f.uaOff)

/-- The thrust format with message-type byte `t`; well-formedness leaves at most one (spec/30_encoding.md R74). -/
def Cfg.formatOf (c : Cfg) (t : Byte) : Option ThrustFormat := c.thrustFormats.find? fun f => f.tag == t

/-- `decode_cmd(len, data)` (spec/40_can_codec.md R93, R94): length guard, kill class, thrust formats, in this
order. -/
def decodeCmd (c : Cfg) (len : Nat) (data : Payload) : DecodeResult :=
  if len = 0 ∨ len > 8 then .unrecognized
  else if data.a0 = 0x4B then decodeKill len data
  else
    match c.formatOf data.a0 with
    | some f => decodeThrust f len data
    | none => .unrecognized

/-- The instruction of a kill command (spec/30_encoding.md R78). -/
def killInstr (k : KillCmd) : Instr :=
  match k with
  | .hardKill => .kcha
  | .softKill => .kcsa
  | .hardUnkill => .kchu
  | .softUnkill => .kcsu

/-- The instruction of a status event (spec/30_encoding.md R79). -/
def statusInstr (e : StatusEvent) : Instr :=
  match e with
  | .hardKilled => .krha
  | .softKilled => .krsa
  | .hardUnkilled => .krhu
  | .softUnkilled => .krsu
  | .goAsserted => .ga
  | .goUnasserted => .gu

/-- The instruction of a thrust frame, if its format is one of the table's two rows (spec/30_encoding.md R75, R84). -/
def thrustInstr (f : ThrustFormat) (d : Payload) : Option Instr :=
  if f = ThrustFormat.h then some (.thrustH d.a1 d.a2 d.a3 d.a4 d.a5 d.a6 d.a7)
  else if f = ThrustFormat.v then some (.thrustV d.a1 d.a2 d.a3 d.a4 d.a5 d.a6 d.a7)
  else none

/-- A received frame read as an instruction of the command group: `decode_cmd` with its result named by the row of
spec/30_encoding.md R78. -/
def decodeRx (c : Cfg) (len : Nat) (data : Payload) : Except Reject Instr :=
  match decodeCmd c len data with
  | .unrecognized => .error .unrecognized
  | .killCommand k => .ok (killInstr k)
  | .thrust cmds cr hs ua =>
    match (c.formatOf data.a0).bind fun f => thrustInstr f data with
    | some i => .ok i
    | none => .error (.otherFormat cmds cr hs ua)

/-- A frame read as any row of the table: the command group first, then the status group (spec/30_encoding.md R78,
R79). No frame belongs to both (spec/40_can_codec.md R96). -/
def decodeRow (c : Cfg) (len : Nat) (data : Payload) : Except Reject Instr :=
  match decodeRx c len data with
  | .ok i => .ok i
  | .error r =>
    match decodeStatus len data with
    | some e => .ok (statusInstr e)
    | none => .error r

/-- The exact length of the rows that message-type byte `t` selects: the table's words carry no length, the frame's
length is a field of its own (spec/30_encoding.md R81, [13]). 0 where no row has that byte. -/
def rowLen (c : Cfg) (t : Byte) : Nat :=
  if t = 0x4B then 5
  else if t = 0x47 then 3
  else
    match c.formatOf t with
    | some f => f.len
    | none => 0

/-- The payload of a word of the opcode table, bits above `nbits` zero (spec/30_encoding.md R84). -/
def tablePayload (nbits w : Nat) : Payload := Payload.unpack (BitVec.ofNat 64 (w % 2 ^ nbits))

/-- The instruction the decoder reads from a word of the opcode table, in the reference configuration the table's
thrust rows belong to (spec/30_encoding.md R84). -/
def decodeTableWord (nbits w : Nat) : Option Instr :=
  match decodeRow Cfg.reference (rowLen Cfg.reference (tablePayload nbits w).a0) (tablePayload nbits w) with
  | .ok i => some i
  | .error _ => none

/-- The payload bytes of a frame of thrust format `f` with the given speeds, `CR`, `HS`, `UA`; bytes `f` assigns to
no field are 0 (spec/30_encoding.md R74). -/
def encodeThrust (f : ThrustFormat) (speed : Eight Byte) (cr hs ua : Byte) : Payload :=
  let fields := Eight.indexes.filterMap fun ch => (f.speedOff.get ch).map fun k => (k, speed.get ch)
  (fields ++ [(f.crOff, cr), (f.hsOff, hs), (f.uaOff, ua)]).foldl (fun p e => p.set e.1 e.2)
    (Payload.ofBytes [f.tag])

/-- The frame of an instruction: exact length and payload (spec/30_encoding.md R71, R72, R75). -/
def encode (i : Instr) : Nat × Payload :=
  match i with
  | .kcha => (5, Payload.ofBytes litKCHA)
  | .kcsa => (5, Payload.ofBytes litKCSA)
  | .kchu => (5, Payload.ofBytes litKCHU)
  | .kcsu => (5, Payload.ofBytes litKCSU)
  | .thrustH s0 s1 s4 s5 cr hs ua => (8, ⟨0x48, s0, s1, s4, s5, cr, hs, ua⟩)
  | .thrustV s2 s3 s6 s7 cr hs ua => (8, ⟨0x56, s2, s3, s6, s7, cr, hs, ua⟩)
  | .krha => (5, Payload.ofBytes litKRHA)
  | .krsa => (5, Payload.ofBytes litKRSA)
  | .krhu => (5, Payload.ofBytes litKRHU)
  | .krsu => (5, Payload.ofBytes litKRSU)
  | .ga => (3, Payload.ofBytes litGA)
  | .gu => (3, Payload.ofBytes litGU)

/-! The constants of a channel, which the reset state reads before any operation. -/

/-- The pulse-width constants of the generator of channel `ch`, `GEN(ch)`. -/
def Cfg.genOf (c : Cfg) (ch : Channel) : GenParams := c.gens.get (c.gen.get ch)

/-- `PW_NEUTRAL(GEN(ch))` as the 16-bit register value. -/
def Cfg.neutral (c : Cfg) (ch : Channel) : Width := BitVec.ofNat 16 (c.genOf ch).neutral

/-- All eight pulse widths neutral (spec/10_state.md R40, spec/41_thrust_mapper.md R114). -/
def Cfg.allNeutral (c : Cfg) : Eight Width :=
  ⟨c.neutral 0, c.neutral 1, c.neutral 2, c.neutral 3, c.neutral 4, c.neutral 5, c.neutral 6, c.neutral 7⟩

end Sys2Proof
end

