-- ==== Sys2Proof/Machine/State.lean ====
section
/-! DEFINITION. The state of CORE as plain data (spec/10_state.md R20, R31, R33), its stimuli (R41), actions (R38) and
events (spec/44_kill_fsm.md R141), the reasons a step can stop, and the state after reset (spec/10_state.md R40). -/

namespace Sys2Proof.Machine

/-- The stimulus alphabet (spec/10_state.md R41); every stimulus carries its arrival time `t`. -/
inductive Stimulus where
  /-- A received frame; `len` is the 4-bit port value 0 to 15. -/
  | rxFrame (f : Frame) (t : Time)
  /-- A sample of the three raw pin levels. -/
  | hallSample (raw : PerSensor Bool) (t : Time)
  /-- One periodic watchdog tick. -/
  | wdTick (t : Time)
  /-- One periodic status-refresh tick. -/
  | statusTick (t : Time)
  deriving DecidableEq, Repr

/-- The action alphabet (spec/10_state.md R38). -/
inductive Action where
  /-- `pw[ch] <- w`, `pwm_set_pulse(ch, w)`. -/
  | pwmSet (ch : Channel) (w : Width)
  /-- `pwm_en <- b`. -/
  | pwmEnable (b : Bool)
  /-- `thr_pwr <- b`. -/
  | thrusterPower (b : Bool)
  /-- `main_pwr <- b`. -/
  | mainPower (b : Bool)
  /-- `can_send(id, bytes)`. -/
  | tx (f : Frame)
  /-- Nothing happens for at least `d` time units. -/
  | delay (d : Nat)
  deriving DecidableEq, Repr

/-- The event alphabet of the Kill State Machine (spec/44_kill_fsm.md R141). -/
inductive Event where
  | hardKillRequest
  | onOffMagnetRemoved
  | hardUnkillRequest
  | softKillRequest
  | softKillMagnetAsserted
  | goMagnetDeasserted
  | commandTimeout
  | softUnkillRequest
  | thrustCommand (cmds : List ThrustCmd)
  deriving DecidableEq, Repr

/-- The reasons the machine stops with a fault: none. "CORE raises no exception. No operation traps, halts, or refuses
to complete" (spec/60_exceptions.md R170). -/
inductive Fault where
  deriving DecidableEq, Repr

/-- The reasons a step is refused. -/
inductive Refusal where
  /-- No meaning yet for the instruction; raised by no arm of `exec`. Safe. -/
  | notModelled (mnemonic : String)
  /-- Raised by `step` where `cfg` is not well-formed: "A model refuses an ill-formed `cfg`"
  (spec/70_reset_and_hazards.md R213, [2]). Safe: nothing is claimed of such a configuration. -/
  | illFormedConfig
  deriving DecidableEq, Repr

/-- The state. The first group of fields is the table of spec/10_state.md R20, the second the hidden state of R33, the
third the configuration of R31, the fourth the model's own: the operand and the scratch value of the processing cycle
and the environment's side of the trace. -/
structure State where
  /-- `ks`, the kill state (R21). -/
  ks : KillState
  /-- `pw[0..7]`, the pulse width of each channel in timer ticks (R23). -/
  pw : Eight Width
  /-- `pwm_en`: PWM output enabled (R24). -/
  pwmEn : Bool
  /-- `thr_pwr`: thruster power applied (R25). -/
  thrPwr : Bool
  /-- `main_pwr`: main power applied (R26). -/
  mainPwr : Bool
  /-- `last_ok`: the AND of the acks of the last processing cycle (R27). -/
  lastOk : Bool
  /-- `hall_last`: the previous hall sample after the polarity filter (R28). -/
  hallLast : Hall
  /-- `wd_last`: arrival time of the last accepted command frame (R29). -/
  wdLast : Time
  /-- `diag_cr`: the `CR` byte of the last thrust frame (R30). -/
  diagCr : Byte
  /-- `diag_hs`: the `HS` byte of the last thrust frame (R30). -/
  diagHs : Byte
  /-- `diag_ua`: the `UA` byte of the last thrust frame (R30). -/
  diagUa : Byte
  /-- `ordq`: the stimuli still to be processed, in arrival order; "At transaction level `ordq` *is* the stimulus
  sequence" (R33, [8]). -/
  ordq : List Stimulus
  /-- `busy`: a processing cycle is in progress (R33). -/
  busy : Bool
  /-- `cfg`, constant from reset to the next reset (R31, [1]). -/
  cfg : Cfg
  /-- The arrival time `t` of the stimulus in process; the model's own field ([9]). -/
  arrival : Time
  /-- The AND of the acks of this processing cycle so far; the model's own field ([10]). -/
  cycOk : Bool
  /-- The acks the environment has decided to give, the next one first (R39, [6]). -/
  acks : List Bool
  /-- How many acks were drawn as free values; the model's own field ([6]). -/
  ackDraws : Nat
  /-- Every action emitted so far, the first one first (spec/00_scope.md R10, [7]). -/
  trace : List Action
  deriving DecidableEq, Repr

/-- The state after reset under configuration `c` (spec/10_state.md R40). -/
def State.resetWith (c : Cfg) : State :=
  { ks := .hardKilled, pw := c.allNeutral, pwmEn := false, thrPwr := false, mainPwr := false, lastOk := true,
    hallLast := ⟨false, false, false⟩, wdLast := 0, diagCr := 0, diagHs := 0, diagUa := 0,
    ordq := [], busy := false, cfg := c,
    arrival := 0, cycOk := true, acks := [], ackDraws := 0, trace := [] }

/-- The machine right after reset, with the reference configuration of spec/00_scope.md R8 ([1]). -/
def State.reset : State := State.resetWith Cfg.reference

end Sys2Proof.Machine
end

