-- ==== Sys2Proof/Machine/Operands.lean ====
section
/-! DEFINITION. The operand forms: the speed byte and its mapping to a pulse width (spec/30_encoding.md R76,
spec/41_thrust_mapper.md R111, R113), the polarity filter of a raw pin (spec/42_hall_interlock.md R120), elapsed time
(spec/43_watchdog.md R132). All are pure functions of their operands and `cfg`. -/

namespace Sys2Proof.Machine

/-- `signed(b)`: "`b` if `b < 128`, else `b - 256`" (spec/00_scope.md R11). -/
def signedByte (b : Byte) : Int := if b.toNat < 128 then (b.toNat : Int) else (b.toNat : Int) - 256

/-- `clamp(v, lo, hi)` (spec/00_scope.md R11). -/
def clamp (v lo hi : Int) : Int := if v < lo then lo else if v > hi then hi else v

/-- The clamped speed operand `q`; the speed is `q / 127` (spec/41_thrust_mapper.md R111). -/
def speedOperand (b : Byte) : Int := clamp (signedByte b) (-127) 127

/-- The width, in ticks, for a generator with constants `g` at clamped speed operand `q`: two straight segments that
meet at neutral, rounded toward neutral (spec/41_thrust_mapper.md R111). -/
def widthAt (g : GenParams) (q : Int) : Nat :=
  if q ≥ 0 then g.neutral + (g.fwd - g.neutral) * q.toNat / 127
  else g.neutral - (g.neutral - g.rev) * (-q).toNat / 127

/-- `map(ch, b)` (spec/41_thrust_mapper.md R111). -/
def mapWidth (c : Cfg) (ch : Channel) (b : Byte) : Width :=
  BitVec.ofNat 16 (widthAt (c.genOf ch) (speedOperand b))

/-- The mapping over a rational speed, exact, before rounding (spec/41_thrust_mapper.md R113). CORE never evaluates
it. -/
def widthAtSpeed (g : GenParams) (speed : ℚ) : ℚ :=
  let s := max (-1) (min 1 speed)
  if s ≥ 0 then (g.neutral : ℚ) + ((g.fwd : ℚ) - g.neutral) * s
  else (g.neutral : ℚ) - ((g.neutral : ℚ) - g.rev) * (-s)

/-- `present(s, raw)`: the polarity filter (spec/42_hall_interlock.md R120). -/
def present (c : Cfg) (k : Sensor) (raw : Bool) : Bool :=
  match c.actLevel.get k with
  | .activeHigh => raw
  | .activeLow => !raw

/-- The three raw levels through the polarity filter (spec/42_hall_interlock.md R123, `cur`). -/
def filtered (c : Cfg) (raw : PerSensor Bool) : Hall :=
  ⟨present c .soft raw.soft, present c .go raw.go, present c .onoff raw.onoff⟩

/-- The number of a hall reading, bit 0 soft, bit 1 go, bit 2 on/off, as `hall_level` has them
(spec/10_state.md R32). -/
def hallIndex (h : Hall) : Fin 8 :=
  match h.onoff, h.go, h.soft with
  | false, false, false => 0
  | false, false, true => 1
  | false, true, false => 2
  | false, true, true => 3
  | true, false, false => 4
  | true, false, true => 5
  | true, true, false => 6
  | true, true, true => 7

/-- `(t - wd_last) mod 2^32` (spec/43_watchdog.md R132, R135). -/
def elapsed (t wdLast : Time) : Nat := (t - wdLast).toNat

end Sys2Proof.Machine
end

