-- ==== Sys2Proof/Machine/Flags.lean ====
section
/-! DEFINITION. The flags: acks and `last_ok` (spec/10_state.md R27, R39), the beginning and the end of a processing
cycle with `busy` (R33), and the derived outputs (R32). -/

namespace Sys2Proof.Machine

/-- The actions with a result: `PwmSet` and `Tx` (spec/10_state.md R38, last column). -/
def Action.hasAck (a : Action) : Bool :=
  match a with
  | .pwmSet _ _ => true
  | .tx _ => true
  | .pwmEnable _ => false
  | .thrusterPower _ => false
  | .mainPower _ => false
  | .delay _ => false

/-- The ack `b` of one action joins the AND of this cycle's acks; nothing else changes (spec/10_state.md R39). -/
def State.noteAck (s : State) (b : Bool) : State := { s with cycOk := s.cycOk && b }

/-- Takes the environment's next ack: the one State holds, or, where it holds none, a free value ([6],
spec/93_implementation_defined.md U2). -/
def State.takeAck (s : State) : State :=
  match s.acks with
  | b :: rest => { s with acks := rest }.noteAck b
  | [] => { s with ackDraws := s.ackDraws + 1 }.noteAck (Config.freeAck s.ackDraws)

/-- The beginning of a processing cycle for a stimulus that arrived at `t`: `busy` is 1 from here on
(spec/10_state.md R33) and no ack has been received. -/
def State.beginCycle (s : State) (t : Time) : State := { s with busy := true, arrival := t, cycOk := true }

/-- The end of a processing cycle: `last_ok <- AND of all acks of that processing cycle` (spec/10_state.md R27). -/
def State.endCycle (s : State) : State := { s with lastOk := s.cycOk, busy := false }

/-- The 2-bit code of a kill state on `ks_out` (spec/10_state.md R21, R32). -/
def ksCode (k : KillState) : BitVec 2 :=
  match k with
  | .hardKilled => 0b00
  | .softKilled => 0b01
  | .running => 0b10

/-- `hall_level[2:0]`: bit 0 soft, bit 1 go, bit 2 on/off (spec/10_state.md R32). -/
def hallLevel (h : Hall) : BitVec 3 := BitVec.ofBool h.onoff ++ (BitVec.ofBool h.go ++ BitVec.ofBool h.soft)

end Sys2Proof.Machine
end

