-- ==== Sys2Proof/Machine/Ops.lean ====
section
/-! DEFINITION. The named operations over the registers: the effect of an action, emitting it, stop-all, reset, and the
kill transitions, CORE's counterpart of taking an exception (spec/60_exceptions.md R184), with the unkill transitions,
its counterpart of the return (R186), beside them. -/

namespace Sys2Proof.Machine

/-- The effect of an action on the registers (spec/10_state.md R38, second column), and its entry in the trace. The
effect does not depend on the ack (spec/10_state.md R39). -/
def State.apply (s : State) (a : Action) : State :=
  match a with
  | .pwmSet ch w => { s with pw := s.pw.set ch w, trace := s.trace ++ [.pwmSet ch w] }
  | .pwmEnable b => { s with pwmEn := b, trace := s.trace ++ [.pwmEnable b] }
  | .thrusterPower b => { s with thrPwr := b, trace := s.trace ++ [.thrusterPower b] }
  | .mainPower b => { s with mainPwr := b, trace := s.trace ++ [.mainPower b] }
  | .tx f => { s with trace := s.trace ++ [.tx f] }
  | .delay d => { s with trace := s.trace ++ [.delay d] }

/-- `emit A`: the action takes effect and, where it has a result, the environment's ack is taken
(spec/00_scope.md R11, spec/10_state.md R38, R39). -/
def State.emit (s : State) (a : Action) : State :=
  if a.hasAck then (s.apply a).takeAck else s.apply a

/-- Emits a list of actions in list order (spec/20_memory.md R58 (c), (d)). -/
def State.emitAll (s : State) (as : List Action) : State :=
  match as with
  | [] => s
  | a :: rest => (s.emit a).emitAll rest

/-- `StopAll`: the neutral width to channel 0, 1, ..., 7 in this order (spec/41_thrust_mapper.md R114). -/
def stopAll (c : Cfg) : List Action := Eight.indexes.map fun ch => .pwmSet ch (c.neutral ch)

/-- `emit Tx(encode_status(e))` (spec/40_can_codec.md R91). -/
def txStatus (c : Cfg) (e : StatusEvent) : Action := .tx (encodeStatus c e)

/-- What a transition does: its actions in order and the state it commits (spec/44_kill_fsm.md R144). -/
structure Transition where
  actions : List Action
  next : KillState
  deriving DecidableEq, Repr

/-- `T_HardKill` (spec/44_kill_fsm.md R148). -/
def hardKill (c : Cfg) : Transition :=
  { actions := stopAll c ++
      [.pwmEnable false, .thrusterPower false, txStatus c .softKilled, .delay c.hardKillDelay, .mainPower false,
        txStatus c .hardKilled],
    next := .hardKilled }

/-- `T_SoftKill` (spec/44_kill_fsm.md R150). -/
def softKill (c : Cfg) : Transition :=
  { actions := stopAll c ++ [.pwmEnable false, .thrusterPower false, txStatus c .softKilled],
    next := .softKilled }

/-- `T_HardUnkill` (spec/44_kill_fsm.md R149). -/
def hardUnkill (c : Cfg) : Transition :=
  { actions := [.mainPower true, .thrusterPower true] ++ stopAll c ++ [.pwmEnable true],
    next := .running }

/-- `T_SoftUnkill` (spec/44_kill_fsm.md R151): `thr_pwr` is not restored (spec/90_conflicts.md C2). -/
def softUnkill (c : Cfg) : Transition :=
  { actions := [.pwmEnable true, txStatus c .softUnkilled], next := .running }

/-- `T_Thrust(cmds)` (spec/44_kill_fsm.md R152). -/
def thrustApply (c : Cfg) (cmds : List ThrustCmd) : Transition :=
  { actions := cmds.map fun cb => .pwmSet cb.1 (mapWidth c cb.1 cb.2), next := .running }

/-- Ignore: no action, no transition (spec/44_kill_fsm.md R153). -/
def ignore (k : KillState) : Transition := { actions := [], next := k }

/-- Takes a transition: its actions are emitted in order, then `ks` is committed (spec/44_kill_fsm.md R147). -/
def State.take (s : State) (tr : Transition) : State := { s.emitAll tr.actions with ks := tr.next }

/-- Reset between two steps: every register takes the value of spec/10_state.md R40, `cfg` stays, nothing is emitted
(spec/70_reset_and_hazards.md R200, R202, [18]). -/
def State.applyReset (s : State) : State :=
  { State.resetWith s.cfg with acks := s.acks, ackDraws := s.ackDraws, trace := s.trace }

end Sys2Proof.Machine
end

