-- ==== Sys2Proof/Machine/KillFsm.lean ====
section
/-! DEFINITION. The Kill State Machine: the transition function and feeding it events (spec/44_kill_fsm.md R143 to
R153). -/

namespace Sys2Proof.Machine

/-- The transition function: the complete matrix of spec/44_kill_fsm.md R146. It reads `ks`, the event and, for
`SoftUnkillRequest` only, `hall_last.go` and `hall_last.onoff` (R144). -/
def fsm (c : Cfg) (k : KillState) (h : Hall) (e : Event) : Transition :=
  match e, k with
  | .hardKillRequest, _ => hardKill c
  | .onOffMagnetRemoved, _ => hardKill c
  | .hardUnkillRequest, .hardKilled => hardUnkill c
  | .hardUnkillRequest, .softKilled => ignore .softKilled
  | .hardUnkillRequest, .running => ignore .running
  | .softKillRequest, .running => softKill c
  | .softKillRequest, .softKilled => ignore .softKilled
  | .softKillRequest, .hardKilled => ignore .hardKilled
  | .softKillMagnetAsserted, .running => softKill c
  | .softKillMagnetAsserted, .softKilled => ignore .softKilled
  | .softKillMagnetAsserted, .hardKilled => ignore .hardKilled
  | .goMagnetDeasserted, .running => softKill c
  | .goMagnetDeasserted, .softKilled => ignore .softKilled
  | .goMagnetDeasserted, .hardKilled => ignore .hardKilled
  | .commandTimeout, .running => softKill c
  | .commandTimeout, .softKilled => ignore .softKilled
  | .commandTimeout, .hardKilled => ignore .hardKilled
  | .softUnkillRequest, .softKilled => if h.go && h.onoff then softUnkill c else ignore .softKilled
  | .softUnkillRequest, .running => ignore .running
  | .softUnkillRequest, .hardKilled => ignore .hardKilled
  | .thrustCommand cmds, .running => thrustApply c cmds
  | .thrustCommand _, .softKilled => ignore .softKilled
  | .thrustCommand _, .hardKilled => ignore .hardKilled

/-- Feeds one event, handled to completion (spec/44_kill_fsm.md R143). -/
def State.feed (s : State) (e : Event) : State := s.take (fsm s.cfg s.ks s.hallLast e)

/-- Feeds events one after the other; each sees the state the previous left (spec/44_kill_fsm.md R143). -/
def State.feedAll (s : State) (es : List Event) : State :=
  match es with
  | [] => s
  | e :: rest => (s.feed e).feedAll rest

end Sys2Proof.Machine
end

