-- ==== Sys2Proof/Machine/Codec.lean ====
section
/-! DEFINITION. What the codec's stimulus handler does with a decoded frame, and transmitting a status event
(spec/40_can_codec.md R91, R98, R99; spec/43_watchdog.md R131). The meanings of the frames are one line over these. -/

namespace Sys2Proof.Machine

/-- The event of a kill command (spec/40_can_codec.md R98). -/
def killEvent (k : KillCmd) : Event :=
  match k with
  | .hardKill => .hardKillRequest
  | .softKill => .softKillRequest
  | .hardUnkill => .hardUnkillRequest
  | .softUnkill => .softUnkillRequest

/-- Record: `wd_last <- t` (spec/43_watchdog.md R131). -/
def State.record (s : State) : State := { s with wdLast := s.arrival }

/-- `diag_cr <- cr; diag_hs <- hs; diag_ua <- ua` (spec/40_can_codec.md R99). -/
def State.setDiag (s : State) (cr hs ua : Byte) : State := { s with diagCr := cr, diagHs := hs, diagUa := ua }

/-- An accepted kill command: the watchdog is refreshed, then the event is fed (spec/40_can_codec.md R98). -/
def State.acceptKill (s : State) (k : KillCmd) : State := s.record.feed (killEvent k)

/-- An accepted thrust frame: the watchdog is refreshed, the diagnostic bytes are written, then the event is fed
(spec/40_can_codec.md R98). -/
def State.acceptThrust (s : State) (cmds : List ThrustCmd) (cr hs ua : Byte) : State :=
  (s.record.setDiag cr hs ua).feed (.thrustCommand cmds)

/-- Transmits status event `e` (spec/40_can_codec.md R91). -/
def State.transmit (s : State) (e : StatusEvent) : State := s.emit (txStatus s.cfg e)

end Sys2Proof.Machine
end

