-- ==== Sys2Proof/Machine/RxFrames.lean ====
section
/-! DEFINITION. The meanings of the received frames (spec/40_can_codec.md R100 to R104): what the processing cycle does
with a frame that passed the identifier filter and decoded to this row, `t` standing in `arrival`. -/

namespace Sys2Proof.Machine

/-- `KCHA`: hard-kill command (spec/40_can_codec.md R100). -/
def execKcha (s : State) : Host.Outcome State Fault Refusal := .next (s.acceptKill .hardKill)

/-- `KCSA`: soft-kill command (spec/40_can_codec.md R101). -/
def execKcsa (s : State) : Host.Outcome State Fault Refusal := .next (s.acceptKill .softKill)

/-- `KCHU`: hard-unkill command (spec/40_can_codec.md R102). -/
def execKchu (s : State) : Host.Outcome State Fault Refusal := .next (s.acceptKill .hardUnkill)

/-- `KCSU`: soft-unkill command (spec/40_can_codec.md R103). -/
def execKcsu (s : State) : Host.Outcome State Fault Refusal := .next (s.acceptKill .softUnkill)

/-- `THRUST.H`: channels 0, 1, 4, 5 (spec/40_can_codec.md R104, spec/30_encoding.md R75). -/
def execThrustH (s0 s1 s4 s5 cr hs ua : Byte) (s : State) : Host.Outcome State Fault Refusal :=
  .next (s.acceptThrust [(.fhl, s0), (.fhr, s1), (.bhl, s4), (.bhr, s5)] cr hs ua)

/-- `THRUST.V`: channels 2, 3, 6, 7 (spec/40_can_codec.md R104, spec/30_encoding.md R75). -/
def execThrustV (s2 s3 s6 s7 cr hs ua : Byte) (s : State) : Host.Outcome State Fault Refusal :=
  .next (s.acceptThrust [(.fvl, s2), (.fvr, s3), (.bvl, s6), (.bvr, s7)] cr hs ua)

end Sys2Proof.Machine
end

