-- ==== Sys2Proof/Machine/TxFrames.lean ====
section
/-! DEFINITION. The meanings of the transmitted frames (spec/40_can_codec.md R105 to R110): each emits its `Tx`, writes
no register, and its ack goes to `last_ok` only. -/

namespace Sys2Proof.Machine

/-- `KRHA`: status `HardKilled` (spec/40_can_codec.md R105). -/
def execKrha (s : State) : Host.Outcome State Fault Refusal := .next (s.transmit .hardKilled)

/-- `KRSA`: status `SoftKilled` (spec/40_can_codec.md R106). -/
def execKrsa (s : State) : Host.Outcome State Fault Refusal := .next (s.transmit .softKilled)

/-- `KRHU`: status `HardUnkilled` (spec/40_can_codec.md R107). -/
def execKrhu (s : State) : Host.Outcome State Fault Refusal := .next (s.transmit .hardUnkilled)

/-- `KRSU`: status `SoftUnkilled` (spec/40_can_codec.md R108). -/
def execKrsu (s : State) : Host.Outcome State Fault Refusal := .next (s.transmit .softUnkilled)

/-- `GA`: status `GoAsserted` (spec/40_can_codec.md R109). -/
def execGa (s : State) : Host.Outcome State Fault Refusal := .next (s.transmit .goAsserted)

/-- `GU`: status `GoUnasserted` (spec/40_can_codec.md R110). -/
def execGu (s : State) : Host.Outcome State Fault Refusal := .next (s.transmit .goUnasserted)

end Sys2Proof.Machine
end

