-- ==== Sys2Proof/Machine/Dispatch.lean ====
section
/-! DEFINITION. One arm per instruction, one direct call of its meaning each. -/

namespace Sys2Proof.Machine

def exec (i : Instr) (s : State) : Host.Outcome State Fault Refusal :=
  match i with
  | .kcha => Sys2Proof.Machine.execKcha s
  | .kcsa => Sys2Proof.Machine.execKcsa s
  | .kchu => Sys2Proof.Machine.execKchu s
  | .kcsu => Sys2Proof.Machine.execKcsu s
  | .thrustH s0 s1 s4 s5 cr hs ua => Sys2Proof.Machine.execThrustH s0 s1 s4 s5 cr hs ua s
  | .thrustV s2 s3 s6 s7 cr hs ua => Sys2Proof.Machine.execThrustV s2 s3 s6 s7 cr hs ua s
  | .krha => Sys2Proof.Machine.execKrha s
  | .krsa => Sys2Proof.Machine.execKrsa s
  | .krhu => Sys2Proof.Machine.execKrhu s
  | .krsu => Sys2Proof.Machine.execKrsu s
  | .ga => Sys2Proof.Machine.execGa s
  | .gu => Sys2Proof.Machine.execGu s

end Sys2Proof.Machine
end

