-- ==== Sys2Proof/Machine/Cycle.lean ====
section
/-! DEFINITION. The processing cycle (spec/00_scope.md R10): the event multiplexer's two stages (spec/44_kill_fsm.md
R142), the handlers of the four stimuli, and how a table word is placed for the next step. -/

namespace Sys2Proof.Machine

/-- `on RxFrame(id, len, data, t)` (spec/40_can_codec.md R98): identifier filter, decoder, then the meaning of the
frame. A frame outside `CMD_ID_SET` and an unrecognised one are dropped. A frame of a thrust format the opcode table has
no row for is processed by the same rule ([11]). -/
def handleRx (f : Frame) (s : State) : Host.Outcome State Fault Refusal :=
  if s.cfg.cmdIds.contains f.id then
    match decodeRx s.cfg f.len.toNat f.data with
    | .ok i => exec i s
    | .error (.otherFormat cmds cr hs ua) => .next (s.acceptThrust cmds cr hs ua)
    | .error .unrecognized => .next s
  else .next s

/-- The events of a hall sample, in feed order (spec/42_hall_interlock.md R123): the removal edge of the on/off magnet
(R124), then the polled conditions (R125). -/
def hallEvents (prev cur : Hall) : List Event :=
  (if prev.onoff && !cur.onoff then [.onOffMagnetRemoved] else []) ++
    ((if cur.soft then [.softKillMagnetAsserted] else []) ++ (if cur.go then [] else [.goMagnetDeasserted]))

/-- `on HallSample` (spec/42_hall_interlock.md R123): `hall_last` is written before the events are fed. -/
def handleHall (raw : PerSensor Bool) (s : State) : State :=
  { s with hallLast := filtered s.cfg raw }.feedAll (hallEvents s.hallLast (filtered s.cfg raw))

/-- `on WdTick(t)` (spec/43_watchdog.md R132): the comparison is strict. -/
def handleWdTick (s : State) : State :=
  if elapsed s.arrival s.wdLast > s.cfg.wdTimeout then s.feed .commandTimeout else s

/-- Runs the instructions of a list of status events in list order. -/
def runStatus (es : List StatusEvent) (s : State) : Host.Outcome State Fault Refusal :=
  match es with
  | [] => .next s
  | e :: rest =>
    match exec (statusInstr e) s with
    | .next s' => runStatus rest s'
    | .fault r => .fault r
    | .refused r => .refused r

/-- `STATUS_REFRESH(ks, hall_last)` (spec/00_scope.md R8, [4]). -/
def refreshList (s : State) : List StatusEvent := (s.cfg.statusRefresh.get s.ks).get (hallIndex s.hallLast)

/-- `on StatusTick(t)` (spec/44_kill_fsm.md R157). -/
def handleStatusTick (s : State) : Host.Outcome State Fault Refusal := runStatus (refreshList s) s

/-- The arrival time a stimulus carries (spec/10_state.md R41). -/
def Stimulus.time (st : Stimulus) : Time :=
  match st with
  | .rxFrame _ t => t
  | .hallSample _ t => t
  | .wdTick t => t
  | .statusTick t => t

/-- The handler of a stimulus (spec/10_state.md R41). -/
def handle (st : Stimulus) (s : State) : Host.Outcome State Fault Refusal :=
  match st with
  | .rxFrame f _ => handleRx f s
  | .hallSample raw _ => .next (handleHall raw s)
  | .wdTick _ => .next (handleWdTick s)
  | .statusTick _ => handleStatusTick s

/-- The end of the cycle, where the handler answered a next state. -/
def closeCycle (o : Host.Outcome State Fault Refusal) : Host.Outcome State Fault Refusal :=
  match o with
  | .next s => .next s.endCycle
  | .fault r => .fault r
  | .refused r => .refused r

/-- Accepts the head of the arrival-order queue and runs its processing cycle (spec/00_scope.md R10, spec/10_state.md
R33). With nothing pending, or while a cycle is in progress, nothing is accepted and nothing changes ([8][15]). An
ill-formed `cfg` is refused ([2]). -/
def processNext (s : State) : Host.Outcome State Fault Refusal :=
  if !s.cfg.wf then .refused .illFormedConfig
  else if s.busy then .next s
  else
    match s.ordq with
    | [] => .next s
    | st :: rest => closeCycle (handle st ({ s with ordq := rest }.beginCycle st.time))

/-- The stimuli that arrive on one clock at time `t`, in the fixed order hall sample, received frame, watchdog tick,
status tick (spec/60_exceptions.md R181). -/
def tieOrder (t : Time) (hall : Option (PerSensor Bool)) (rx : Option Frame) (wd st : Bool) : List Stimulus :=
  (match hall with | some raw => [.hallSample raw t] | none => []) ++
    ((match rx with | some f => [.rxFrame f t] | none => []) ++
      ((if wd then [.wdTick t] else []) ++ (if st then [.statusTick t] else [])))

/-- Stage 1 of the event multiplexer: what arrives is appended in arrival order (spec/44_kill_fsm.md R142,
spec/10_state.md R37). -/
def State.arrive (s : State) (t : Time) (hall : Option (PerSensor Bool)) (rx : Option Frame) (wd st : Bool) : State :=
  { s with ordq := s.ordq ++ tieOrder t hall rx wd st }

/-- The stimulus `st` at the head of the queue of an idle machine. -/
def State.placeFirst (s : State) (st : Stimulus) : State := { s with ordq := st :: s.ordq, busy := false }

/-- The configuration with `STATUS_REFRESH(k, h) = [e]` at one place of its table. -/
def withRefresh (c : Cfg) (k : KillState) (h : Hall) (e : StatusEvent) : Cfg :=
  { c with statusRefresh := c.statusRefresh.set k ((c.statusRefresh.get k).set (hallIndex h) [e]) }

/-- Places the table word `w` so that the very next step runs it ([14]): a word of the status group is transmitted by a
status tick whose `STATUS_REFRESH` names it (spec/44_kill_fsm.md R157: the only place where every status frame can be
sent), every other word is offered as a received frame on an accepted identifier. -/
def State.placeWord (s : State) (nbits w : Nat) : State :=
  match decodeStatus (rowLen s.cfg (tablePayload nbits w).a0) (tablePayload nbits w) with
  | some e =>
    { s with cfg := withRefresh s.cfg s.ks s.hallLast e }.placeFirst (.statusTick s.arrival)
  | none =>
    s.placeFirst (.rxFrame
      { id := s.cfg.cmdIds.headD 0, len := BitVec.ofNat 4 (rowLen s.cfg (tablePayload nbits w).a0),
        data := tablePayload nbits w } s.arrival)

end Sys2Proof.Machine
end

