-- ==== Sys2Proof/Machine/Step.lean ====
section
/-! DEFINITION. The step: one processing cycle (spec/00_scope.md R10), and the placing of one instruction where the
next step takes it from. -/

namespace Sys2Proof.Machine

/-- One step: the next stimulus in arrival order is processed to completion (spec/00_scope.md R10,
spec/20_memory.md R58). -/
def step (s : State) : Host.Outcome State Fault Refusal := processNext s

/-- `s` with the instruction of table word `w` placed where the next step takes it from ([14]). -/
def State.withFetchWord (s : State) (nbits w : Nat) : State := s.placeWord nbits w

end Sys2Proof.Machine
end

