-- ==== Sys2Proof/Machine/Pins.lean ====
section
/-! DEFINITION. The pin-level machine: the ports of spec/10_state.md R36 and the handshake of R37, one call of `clock` per
rising edge of `clk`. It carries the hidden state of R33: the arrival-order queue, `busy` (in `core`), and the position
inside the processing cycle (R22). It shares the transition function, the codec, the mapper and the flags with the
transaction-level step and takes one micro-operation at a time, so that the delay, the handshakes and the commit point
(spec/44_kill_fsm.md R147) show. The number of clocks a cycle takes is unspecified (R37): the input `stall` holds back
any step that no handshake drives ([16]). -/

namespace Sys2Proof.Machine

/-- The four stimulus sources (spec/60_exceptions.md R176), in the tie order of R181. -/
inductive Source where
  | hall
  | rx
  | wdTick
  | statusTick
  deriving DecidableEq, Repr

/-- A frame on a port: identifier, 4-bit length, 64-bit data (spec/10_state.md R36). -/
structure FramePort where
  id : CanId
  len : BitVec 4
  data : BitVec 64
  deriving DecidableEq, Repr

/-- The inputs of one clock (spec/10_state.md R36). An absent offer is `*_valid = 0`. -/
structure PinIn where
  /-- `rst`. -/
  rst : Bool
  /-- `now`. -/
  now : Time
  /-- `rx_valid` with `rx_id`, `rx_len`, `rx_data`. -/
  rx : Option FramePort
  /-- `hall_valid` with `hall_raw`: bit 0 soft-kill pin, bit 1 go pin, bit 2 on/off pin. -/
  hall : Option (BitVec 3)
  /-- `wd_tick_valid`. -/
  wdTick : Bool
  /-- `st_tick_valid`. -/
  statusTick : Bool
  /-- `tx_ready`. -/
  txReady : Bool
  /-- `tx_ok`, sampled with `tx_ready`. -/
  txOk : Bool
  /-- `pwm_set_ready`. -/
  pwmSetReady : Bool
  /-- `pwm_set_ok`, sampled with `pwm_set_ready`. -/
  pwmSetOk : Bool
  /-- The implementation takes no step of its own on this clock (spec/93_implementation_defined.md U17, [16]). -/
  stall : Bool
  deriving DecidableEq, Repr

/-- The outputs of one clock (spec/10_state.md R36). An absent offer is `*_valid = 0`. -/
structure PinOut where
  rxReady : Bool
  hallReady : Bool
  wdTickReady : Bool
  statusTickReady : Bool
  tx : Option FramePort
  pwmSet : Option (BitVec 3 × Width)
  pwOut : Eight Width
  pwmEn : Bool
  thrPwr : Bool
  mainPwr : Bool
  ksOut : BitVec 2
  hallLevel : BitVec 3
  diagCr : Byte
  diagHs : Byte
  diagUa : Byte
  lastOk : Bool
  busy : Bool
  deriving DecidableEq, Repr

/-- What is left to do of a processing cycle. -/
inductive Micro where
  /-- Issue an action. -/
  | act (a : Action)
  /-- Write `ks` (spec/44_kill_fsm.md R147). -/
  | commit (k : KillState)
  /-- Feed an event to the transition function. -/
  | feed (e : Event)
  deriving DecidableEq, Repr

/-- The registers, the rest of the cycle in progress, the start of the running delay (`t_start` of spec/10_state.md
R38) and the arrival-order queue of spec/10_state.md R33 (b). The queue, acks and free draws of `core` are not used at this
level. -/
structure PinState where
  core : State
  plan : List Micro
  delayFrom : Option Time
  ordq : List (Source × Time)
  deriving DecidableEq, Repr

/-- A frame as a port carries it. -/
def toPort (f : Frame) : FramePort := { id := f.id, len := f.len, data := f.data.pack }

/-- The frame a port carries. -/
def ofPort (p : FramePort) : Frame := { id := p.id, len := p.len, data := Payload.unpack p.data }

/-- The raw levels of `hall_raw` (spec/10_state.md R36). -/
def rawLevels (r : BitVec 3) : PerSensor Bool := ⟨r.getLsbD 0, r.getLsbD 1, r.getLsbD 2⟩

/-- The stimulus a source offers on this clock, with arrival time `t`; none if its valid is 0. -/
def offered (i : PinIn) (src : Source) (t : Time) : Option Stimulus :=
  match src with
  | .hall => i.hall.map fun r => .hallSample (rawLevels r) t
  | .rx => i.rx.map fun p => .rxFrame (ofPort p) t
  | .wdTick => if i.wdTick then some (.wdTick t) else none
  | .statusTick => if i.statusTick then some (.statusTick t) else none

/-- The sources in the tie order of spec/60_exceptions.md R181. -/
def Source.all : List Source := [.hall, .rx, .wdTick, .statusTick]

/-- The entries of the sources whose valid is seen 1 for a new stimulus, in tie order, with the value of `now`
(spec/10_state.md R37). A source that already waits in the queue offers nothing new. -/
def newEntries (q : List (Source × Time)) (i : PinIn) : List (Source × Time) :=
  (Source.all.filter fun src => (offered i src i.now).isSome && !(q.any fun e => e.1 == src)).map fun src => (src, i.now)

/-- The transfer of this clock: "When `busy = 0` and `ordq` is not empty CORE takes the head entry"
(spec/10_state.md R37). -/
def accepting (p : PinState) (i : PinIn) : Option (Source × Time × Stimulus) :=
  if p.core.busy then none
  else
    match p.ordq with
    | [] => none
    | (src, t) :: _ => (offered i src t).map fun st => (src, t, st)

/-- What the acceptance of a stimulus writes at once, and what is left to do: stage 2 of the event multiplexer
(spec/44_kill_fsm.md R142; the handlers R98, R123, R132, R157). -/
def intake (st : Stimulus) (s : State) : State × List Micro :=
  match st with
  | .rxFrame f _ =>
    if s.cfg.cmdIds.contains f.id then
      match decodeCmd s.cfg f.len.toNat f.data with
      | .unrecognized => (s, [])
      | .killCommand k => (s.record, [.feed (killEvent k)])
      | .thrust cmds cr hs ua => (s.record.setDiag cr hs ua, [.feed (.thrustCommand cmds)])
    else (s, [])
  | .hallSample raw _ =>
    ({ s with hallLast := filtered s.cfg raw }, (hallEvents s.hallLast (filtered s.cfg raw)).map Micro.feed)
  | .wdTick _ => (s, if elapsed s.arrival s.wdLast > s.cfg.wdTimeout then [.feed .commandTimeout] else [])
  | .statusTick _ => (s, (refreshList s).map fun e => .act (txStatus s.cfg e))

/-- The micro-operations of a transition: its actions in order, then the commit (spec/44_kill_fsm.md R147). -/
def Transition.micros (tr : Transition) : List Micro := tr.actions.map Micro.act ++ [.commit tr.next]

/-- One clock inside a processing cycle. An action with a result is issued on its handshake, a delay ends no earlier than
`d` after it began (spec/10_state.md R38), everything else takes a clock that does not stall. -/
def advance (p : PinState) (i : PinIn) : PinState :=
  match p.plan with
  | [] => if i.stall then p else { p with core := p.core.endCycle }
  | .feed e :: rest =>
    if i.stall then p
    else { p with plan := (fsm p.core.cfg p.core.ks p.core.hallLast e).micros ++ rest }
  | .commit k :: rest => if i.stall then p else { p with core := { p.core with ks := k }, plan := rest }
  | .act (.pwmSet ch w) :: rest =>
    if i.pwmSetReady then { p with core := (p.core.apply (.pwmSet ch w)).noteAck i.pwmSetOk, plan := rest } else p
  | .act (.tx f) :: rest =>
    if i.txReady then { p with core := (p.core.apply (.tx f)).noteAck i.txOk, plan := rest } else p
  | .act (.delay d) :: rest =>
    match p.delayFrom with
    | none => if i.stall then p else { p with core := p.core.apply (.delay d), delayFrom := some i.now }
    | some t0 => if i.stall || decide (elapsed i.now t0 < d) then p else { p with delayFrom := none, plan := rest }
  | .act (.pwmEnable b) :: rest => if i.stall then p else { p with core := p.core.apply (.pwmEnable b), plan := rest }
  | .act (.thrusterPower b) :: rest =>
    if i.stall then p else { p with core := p.core.apply (.thrusterPower b), plan := rest }
  | .act (.mainPower b) :: rest => if i.stall then p else { p with core := p.core.apply (.mainPower b), plan := rest }

/-- The state after a clock with `rst = 1`: every register at its reset value, any cycle in progress abandoned
(spec/70_reset_and_hazards.md R200). -/
def pinReset (p : PinState) : PinState := { core := p.core.applyReset, plan := [], delayFrom := none, ordq := [] }

/-- One rising edge of `clk`. -/
def clock (p : PinState) (i : PinIn) : PinState :=
  if i.rst then pinReset p
  else
    match accepting p i with
    | some (_, t, st) =>
      { core := (intake st (p.core.beginCycle t)).1, plan := (intake st (p.core.beginCycle t)).2, delayFrom := none,
        ordq := p.ordq.tail ++ newEntries p.ordq i }
    | none =>
      if p.core.busy then { advance p i with ordq := p.ordq ++ newEntries p.ordq i }
      else { p with ordq := p.ordq ++ newEntries p.ordq i }

/-- Clocks one after the other. -/
def clocks (p : PinState) (is : List PinIn) : PinState :=
  match is with
  | [] => p
  | i :: rest => clocks (clock p i) rest

/-- The transfer of this clock is with source `src`. -/
def taking (p : PinState) (i : PinIn) (src : Source) : Bool :=
  !i.rst && (match accepting p i with | some (s, _, _) => s == src | none => false)

/-- The frame offered on the transmit port: while the next micro-operation is a `Tx` (spec/10_state.md R36, R37). -/
def txOffer (p : PinState) (i : PinIn) : Option FramePort :=
  if i.rst || !p.core.busy then none
  else
    match p.plan with
    | .act (.tx f) :: _ => some (toPort f)
    | _ => none

/-- The pulse-width write offered: while the next micro-operation is a `PwmSet` (spec/10_state.md R36, R37). -/
def pwmSetOffer (p : PinState) (i : PinIn) : Option (BitVec 3 × Width) :=
  if i.rst || !p.core.busy then none
  else
    match p.plan with
    | .act (.pwmSet ch w) :: _ => some (BitVec.ofFin ch, w)
    | _ => none

/-- The outputs of a clock (spec/10_state.md R32, R36). -/
def pinOut (p : PinState) (i : PinIn) : PinOut :=
  { rxReady := taking p i .rx, hallReady := taking p i .hall, wdTickReady := taking p i .wdTick,
    statusTickReady := taking p i .statusTick,
    tx := txOffer p i, pwmSet := pwmSetOffer p i,
    pwOut := p.core.pw, pwmEn := p.core.pwmEn, thrPwr := p.core.thrPwr, mainPwr := p.core.mainPwr,
    ksOut := ksCode p.core.ks, hallLevel := hallLevel p.core.hallLast,
    diagCr := p.core.diagCr, diagHs := p.core.diagHs, diagUa := p.core.diagUa,
    lastOk := p.core.lastOk, busy := p.core.busy }

/-- The pin-level machine after reset (spec/10_state.md R40: `ordq` empty, `busy = 0`). -/
def PinState.reset : PinState := { core := State.reset, plan := [], delayFrom := none, ordq := [] }

end Sys2Proof.Machine
end

