-- ==== Sys2Proof/Safety.lean ====
section
/-! DEFINITION. What a safe state of CORE is and what a step may touch, in the terms the statements use: the invariants
of spec/10_state.md R35, the outputs an action list leaves (R38), the acks a cycle takes (R39), and the traces of
spec/44_kill_fsm.md R148 to R151 written out from the spec, independently of the machine's own transitions. -/

namespace Sys2Proof.Machine

/-- The three power outputs off and every pulse width neutral: what a hard kill leaves (spec/10_state.md R35 (i)). -/
abbrev State.PoweredDown (s : State) : Prop :=
  s.pwmEn = false ∧ s.thrPwr = false ∧ s.mainPwr = false ∧ ∀ ch, s.pw.get ch = s.cfg.neutral ch

/-- What a soft kill leaves (spec/10_state.md R35 (ii)). -/
abbrev State.SoftStopped (s : State) : Prop :=
  s.pwmEn = false ∧ s.thrPwr = false ∧ s.mainPwr = true ∧ ∀ ch, s.pw.get ch = s.cfg.neutral ch

/-- The outputs while `Running` (spec/10_state.md R35 (iii)); nothing is said of `thr_pwr`
(spec/70_reset_and_hazards.md R211). -/
abbrev State.Enabled (s : State) : Prop := s.pwmEn = true ∧ s.mainPwr = true

/-- spec/10_state.md R35 (i), (ii), (iii): what the kill state implies for the outputs. -/
def State.OutputsFit (s : State) : Prop :=
  match s.ks with
  | .hardKilled => s.PoweredDown
  | .softKilled => s.SoftStopped
  | .running => s.Enabled

/-- spec/10_state.md R35 (iv): every pulse width lies between the reverse and forward widths of its generator. -/
def State.WidthsInRange (s : State) : Prop :=
  ∀ ch : Channel, (s.cfg.genOf ch).rev ≤ (s.pw.get ch).toNat ∧ (s.pw.get ch).toNat ≤ (s.cfg.genOf ch).fwd

/-- The state invariants of spec/10_state.md R35 of a machine between two processing cycles. -/
structure State.Inv (s : State) : Prop where
  /-- R35 (i) to (iii). -/
  outputs : s.OutputsFit
  /-- R35 (iv). -/
  widths : s.WidthsInRange
  /-- No cycle is in progress between two steps (spec/10_state.md R33). -/
  idle : s.busy = false

/-- Every register has the value of spec/10_state.md R40, under the state's own configuration. -/
structure State.HasResetValues (s : State) : Prop where
  ks : s.ks = .hardKilled
  pw : ∀ ch, s.pw.get ch = s.cfg.neutral ch
  pwmEn : s.pwmEn = false
  thrPwr : s.thrPwr = false
  mainPwr : s.mainPwr = false
  lastOk : s.lastOk = true
  soft : s.hallLast.soft = false
  go : s.hallLast.go = false
  onoff : s.hallLast.onoff = false
  wdLast : s.wdLast = 0
  diagCr : s.diagCr = 0
  diagHs : s.diagHs = 0
  diagUa : s.diagUa = 0
  ordq : s.ordq = []
  busy : s.busy = false

/-- The registers of spec/10_state.md R20 other than `last_ok` are those of `s`, and so is the configuration. -/
structure SameRegs (s t : State) : Prop where
  ks : t.ks = s.ks
  pw : t.pw = s.pw
  pwmEn : t.pwmEn = s.pwmEn
  thrPwr : t.thrPwr = s.thrPwr
  mainPwr : t.mainPwr = s.mainPwr
  hallLast : t.hallLast = s.hallLast
  wdLast : t.wdLast = s.wdLast
  diagCr : t.diagCr = s.diagCr
  diagHs : t.diagHs = s.diagHs
  diagUa : t.diagUa = s.diagUa
  cfg : t.cfg = s.cfg

/-- What no frame's meaning touches: `hall_last`, `last_ok` (written at the end of the cycle), the queue, `busy`, the
configuration and the arrival time. -/
structure KeepsRest (s t : State) : Prop where
  hallLast : t.hallLast = s.hallLast
  lastOk : t.lastOk = s.lastOk
  ordq : t.ordq = s.ordq
  busy : t.busy = s.busy
  cfg : t.cfg = s.cfg
  arrival : t.arrival = s.arrival

/-- The three diagnostic bytes are those of `s` (spec/10_state.md R30). -/
structure SameDiag (s t : State) : Prop where
  cr : t.diagCr = s.diagCr
  hs : t.diagHs = s.diagHs
  ua : t.diagUa = s.diagUa

/-- The next `n` acks the environment gives: those State holds, then free values (spec/10_state.md R39, [6]). -/
def State.acksAhead (s : State) (n : Nat) : List Bool :=
  s.acks.take n ++ (List.range (n - s.acks.length)).map fun k => Config.freeAck (s.ackDraws + k)

/-- Exactly the next `n` acks of `s` were taken and joined to the cycle's AND (spec/10_state.md R27, R39). -/
structure TookAcks (s t : State) (n : Nat) : Prop where
  acks : t.acks = s.acks.drop n
  draws : t.ackDraws = s.ackDraws + (n - s.acks.length)
  ok : t.cycOk = (s.cycOk && (s.acksAhead n).all id)

/-- How many actions of a list have an ack (spec/10_state.md R38, last column). -/
def ackCount (as : List Action) : Nat := (as.filter Action.hasAck).length

/-- The pulse width of channel `ch` after the actions `as`, from `w`: that of the last `PwmSet` on `ch`
(spec/10_state.md R38). -/
def widthAfter (ch : Channel) (as : List Action) (w : Width) : Width :=
  match as with
  | [] => w
  | .pwmSet c v :: rest => widthAfter ch rest (if c = ch then v else w)
  | .pwmEnable _ :: rest => widthAfter ch rest w
  | .thrusterPower _ :: rest => widthAfter ch rest w
  | .mainPower _ :: rest => widthAfter ch rest w
  | .tx _ :: rest => widthAfter ch rest w
  | .delay _ :: rest => widthAfter ch rest w

/-- `pwm_en` after the actions `as`: that of the last `PwmEnable` (spec/10_state.md R38). -/
def pwmEnAfter (as : List Action) (b : Bool) : Bool :=
  match as with
  | [] => b
  | .pwmEnable v :: rest => pwmEnAfter rest v
  | .pwmSet _ _ :: rest => pwmEnAfter rest b
  | .thrusterPower _ :: rest => pwmEnAfter rest b
  | .mainPower _ :: rest => pwmEnAfter rest b
  | .tx _ :: rest => pwmEnAfter rest b
  | .delay _ :: rest => pwmEnAfter rest b

/-- `thr_pwr` after the actions `as`: that of the last `ThrusterPower` (spec/10_state.md R38). -/
def thrPwrAfter (as : List Action) (b : Bool) : Bool :=
  match as with
  | [] => b
  | .thrusterPower v :: rest => thrPwrAfter rest v
  | .pwmSet _ _ :: rest => thrPwrAfter rest b
  | .pwmEnable _ :: rest => thrPwrAfter rest b
  | .mainPower _ :: rest => thrPwrAfter rest b
  | .tx _ :: rest => thrPwrAfter rest b
  | .delay _ :: rest => thrPwrAfter rest b

/-- `main_pwr` after the actions `as`: that of the last `MainPower` (spec/10_state.md R38). -/
def mainPwrAfter (as : List Action) (b : Bool) : Bool :=
  match as with
  | [] => b
  | .mainPower v :: rest => mainPwrAfter rest v
  | .pwmSet _ _ :: rest => mainPwrAfter rest b
  | .pwmEnable _ :: rest => mainPwrAfter rest b
  | .thrusterPower _ :: rest => mainPwrAfter rest b
  | .tx _ :: rest => mainPwrAfter rest b
  | .delay _ :: rest => mainPwrAfter rest b

/-- `t` comes from `s` by emitting exactly the actions `as`: they are what the trace gained, and the four outputs are
what they leave (spec/10_state.md R38). -/
structure Emitted (s t : State) (as : List Action) : Prop where
  trace : t.trace = s.trace ++ as
  pw : ∀ ch, t.pw.get ch = widthAfter ch as (s.pw.get ch)
  pwmEn : t.pwmEn = pwmEnAfter as s.pwmEn
  thrPwr : t.thrPwr = thrPwrAfter as s.thrPwr
  mainPwr : t.mainPwr = mainPwrAfter as s.mainPwr

/-- The eight `PwmSet` actions of stop-all, written out (spec/41_thrust_mapper.md R114). -/
def specStopAll (c : Cfg) : List Action :=
  [.pwmSet 0 (c.neutral 0), .pwmSet 1 (c.neutral 1), .pwmSet 2 (c.neutral 2), .pwmSet 3 (c.neutral 3),
    .pwmSet 4 (c.neutral 4), .pwmSet 5 (c.neutral 5), .pwmSet 6 (c.neutral 6), .pwmSet 7 (c.neutral 7)]

/-- `Tx.KRHA`, written out (spec/30_encoding.md R79). -/
def specKRHA (c : Cfg) : Action := .tx ⟨c.statusId.hardKilled, 5, ⟨0x4B, 0x52, 0x48, 0x41, 0x00, 0, 0, 0⟩⟩
/-- `Tx.KRSA`, written out (spec/30_encoding.md R79). -/
def specKRSA (c : Cfg) : Action := .tx ⟨c.statusId.softKilled, 5, ⟨0x4B, 0x52, 0x53, 0x41, 0x00, 0, 0, 0⟩⟩
/-- `Tx.KRHU`, written out (spec/30_encoding.md R79). -/
def specKRHU (c : Cfg) : Action := .tx ⟨c.statusId.hardUnkilled, 5, ⟨0x4B, 0x52, 0x48, 0x55, 0x00, 0, 0, 0⟩⟩
/-- `Tx.KRSU`, written out (spec/30_encoding.md R79). -/
def specKRSU (c : Cfg) : Action := .tx ⟨c.statusId.softUnkilled, 5, ⟨0x4B, 0x52, 0x53, 0x55, 0x00, 0, 0, 0⟩⟩
/-- `Tx.GA`, written out (spec/30_encoding.md R79). -/
def specGA (c : Cfg) : Action := .tx ⟨c.statusId.goAsserted, 3, ⟨0x47, 0x41, 0x00, 0, 0, 0, 0, 0⟩⟩
/-- `Tx.GU`, written out (spec/30_encoding.md R79). -/
def specGU (c : Cfg) : Action := .tx ⟨c.statusId.goUnasserted, 3, ⟨0x47, 0x55, 0x00, 0, 0, 0, 0, 0⟩⟩

/-- The frame of a status event, written out. -/
def specTx (c : Cfg) (e : StatusEvent) : Action :=
  match e with
  | .hardKilled => specKRHA c
  | .softKilled => specKRSA c
  | .hardUnkilled => specKRHU c
  | .softUnkilled => specKRSU c
  | .goAsserted => specGA c
  | .goUnasserted => specGU c

/-- The trace of a hard kill, written out: 14 actions, 10 with an ack (spec/44_kill_fsm.md R148). -/
def specHardKill (c : Cfg) : List Action :=
  specStopAll c ++
    [.pwmEnable false, .thrusterPower false, specKRSA c, .delay c.hardKillDelay, .mainPower false, specKRHA c]

/-- The trace of a soft kill, written out: 11 actions, 9 with an ack (spec/44_kill_fsm.md R150). -/
def specSoftKill (c : Cfg) : List Action :=
  specStopAll c ++ [.pwmEnable false, .thrusterPower false, specKRSA c]

/-- The trace of a hard unkill, written out: 11 actions, 8 with an ack (spec/44_kill_fsm.md R149). -/
def specHardUnkill (c : Cfg) : List Action :=
  [.mainPower true, .thrusterPower true] ++ specStopAll c ++ [.pwmEnable true]

/-- The trace of a soft unkill, written out: 2 actions, 1 with an ack (spec/44_kill_fsm.md R151). -/
def specSoftUnkill (c : Cfg) : List Action := [.pwmEnable true, specKRSU c]

/-- Two states that differ at most in what acks can influence: `last_ok` and the bookkeeping of acks. -/
structure SameButAcks (s t : State) : Prop where
  regs : SameRegs s t
  ordq : t.ordq = s.ordq
  busy : t.busy = s.busy
  arrival : t.arrival = s.arrival
  trace : t.trace = s.trace

/-- A received frame CORE accepts: its identifier passes the filter and the decoder recognises it
(spec/43_watchdog.md R131). -/
def accepted (c : Cfg) (f : Frame) : Prop :=
  c.cmdIds.contains f.id = true ∧ decodeCmd c f.len.toNat f.data ≠ .unrecognized

/-- `n` steps, stopping at the first fault or refusal: a run from `s` (spec/00_scope.md R10, spec/70_reset_and_hazards.md
R205). -/
def runSteps (n : Nat) (s : State) : Host.Outcome State Fault Refusal :=
  match n with
  | 0 => .next s
  | k + 1 =>
    match step s with
    | .next s' => runSteps k s'
    | .fault r => .fault r
    | .refused r => .refused r

/-! The terms of the pin level. -/

/-- The valid of a stimulus source on a clock (spec/10_state.md R36). -/
def PinIn.valid (i : PinIn) (src : Source) : Bool :=
  match src with
  | .hall => i.hall.isSome
  | .rx => i.rx.isSome
  | .wdTick => i.wdTick
  | .statusTick => i.statusTick

/-- The ready of a stimulus source on a clock (spec/10_state.md R36). -/
def PinOut.ready (o : PinOut) (src : Source) : Bool :=
  match src with
  | .hall => o.hallReady
  | .rx => o.rxReady
  | .wdTick => o.wdTickReady
  | .statusTick => o.statusTickReady

/-- The sources that are new on a clock, those whose valid is 1 and that do not wait in the queue, in the order hall
sample, received frame, watchdog tick, status tick, each with `now` (spec/10_state.md R37, spec/60_exceptions.md R181). -/
def newSources (p : PinState) (i : PinIn) : List (Source × Time) :=
  ([Source.hall, .rx, .wdTick, .statusTick].filter fun src =>
    i.valid src && !(p.ordq.map Prod.fst).contains src).map fun src => (src, i.now)

/-- The acks sampled on one clock: `pwm_set_ok` where a pulse-width write is offered and `pwm_set_ready` is 1, `tx_ok`
where a frame is offered and `tx_ready` is 1 (spec/10_state.md R36, R39). -/
def clockAcks (p : PinState) (i : PinIn) : List Bool :=
  (if (pinOut p i).pwmSet.isSome && i.pwmSetReady then [i.pwmSetOk] else []) ++
    (if (pinOut p i).tx.isSome && i.txReady then [i.txOk] else [])

/-- The acks sampled on the clocks `is`, from `p`, in the order of the transfers. -/
def sampledAcks (p : PinState) (is : List PinIn) : List Bool :=
  match is with
  | [] => []
  | i :: rest => clockAcks p i ++ sampledAcks (clock p i) rest

/-- What the pin level keeps on every clock: a delay runs only while it is the next thing to do (spec/10_state.md R38),
and an idle machine has nothing left to do (R33 (b)). -/
structure PinState.Fits (p : PinState) : Prop where
  delay : p.delayFrom ≠ none → ∃ d rest, p.plan = .act (.delay d) :: rest
  idle : p.core.busy = false → p.plan = []

/-- What is left of a cycle, run to its end at transaction level. -/
def runPlan (plan : List Micro) (s : State) : State :=
  match plan with
  | [] => s.endCycle
  | .act a :: rest => runPlan rest (s.emit a)
  | .commit k :: rest => runPlan rest { s with ks := k }
  | .feed e :: rest => runPlan rest (s.feed e)

/-- The plan without the action that already took effect: a running delay was issued when it began
(spec/10_state.md R38). -/
def PinState.unissued (p : PinState) : List Micro :=
  match p.delayFrom with
  | none => p.plan
  | some _ => p.plan.tail

/-- The registers at the end of the cycle in progress, when its remaining actions are answered by `acks`: the rest of
the cycle at transaction level. An idle machine has its registers already. -/
def PinState.finish (p : PinState) (acks : List Bool) : State :=
  if p.core.busy then runPlan p.unissued { p.core with ordq := [], acks := acks }
  else { p.core with ordq := [], acks := acks }

end Sys2Proof.Machine
end

