-- ==== Sys2Proof/Certificates/Slice0/Obligations.lean ====
section
/-! DEFINITION. The statements for the provers. Each docstring names the rules of spec/ it formalises. None rests on the
reset values of the model's own fields, on the reference configuration (unless it says so) or on a value of the free
acks. -/

open Sys2Proof Sys2Proof.Machine

/-! Encoding. -/

/-- spec/30_encoding.md R78, R79: every instruction's frame decodes to the instruction, under every well-formed
configuration that has the two formats of the table's thrust rows (R75, R84). -/
def Obligations.DecodeOfEncodeIsInstruction : Prop :=
  ∀ c : Cfg, c.wf = true → ThrustFormat.h ∈ c.thrustFormats → ThrustFormat.v ∈ c.thrustFormats →
    ∀ i : Instr, decodeRow c (encode i).1 (encode i).2 = .ok i

/-- spec/30_encoding.md R78 to R81: a frame that decodes to an instruction has the row's exact length, and its bytes
below that length are the row's; no second word stands for an instruction. -/
def Obligations.DecodedFrameIsTheRowsFrame : Prop :=
  ∀ (c : Cfg) (len : Nat) (data : Payload) (i : Instr), c.wf = true → decodeRow c len data = .ok i →
    (encode i).1 = len ∧ data.bytes.take len = (encode i).2.bytes.take len

/-- spec/30_encoding.md R74, spec/40_can_codec.md R97: for every format of every well-formed configuration, a frame that
carries given speeds and auxiliary bytes at the format's offsets decodes to exactly those, channels ascending. -/
def Obligations.ThrustFormatRoundTrip : Prop :=
  ∀ (c : Cfg) (f : ThrustFormat) (speed : Eight Byte) (cr hs ua : Byte), c.wf = true → f ∈ c.thrustFormats →
    decodeCmd c f.len (encodeThrust f speed cr hs ua) =
      .thrust (([0, 1, 2, 3, 4, 5, 6, 7].filter fun ch => (f.speedOff.get ch).isSome).map fun ch => (ch, speed.get ch))
        cr hs ua

/-- spec/40_can_codec.md R94: length 0 and lengths above 8 are `Unrecognized`, and data bytes at an index not below the
length are never read. -/
def Obligations.LengthGuardAndUnreadBytes : Prop :=
  ∀ (c : Cfg) (len : Nat) (d e : Payload), c.wf = true →
    (len = 0 ∨ 8 < len → decodeCmd c len d = .unrecognized) ∧
      (d.bytes.take len = e.bytes.take len → decodeCmd c len d = decodeCmd c len e)

/-- spec/40_can_codec.md R95: the four kill literals are matched exactly, length and null byte included, and everything
else of the kill class is `Unrecognized`. -/
def Obligations.KillLiteralMatchIsExact : Prop :=
  ∀ (len : Nat) (d : Payload),
    (decodeKill len d = .killCommand .hardKill ↔ len = 5 ∧ d.bytes.take 5 = [0x4B, 0x43, 0x48, 0x41, 0x00]) ∧
    (decodeKill len d = .killCommand .softKill ↔ len = 5 ∧ d.bytes.take 5 = [0x4B, 0x43, 0x53, 0x41, 0x00]) ∧
    (decodeKill len d = .killCommand .hardUnkill ↔ len = 5 ∧ d.bytes.take 5 = [0x4B, 0x43, 0x48, 0x55, 0x00]) ∧
    (decodeKill len d = .killCommand .softUnkill ↔ len = 5 ∧ d.bytes.take 5 = [0x4B, 0x43, 0x53, 0x55, 0x00]) ∧
    ((∀ k, decodeKill len d ≠ .killCommand k) → decodeKill len d = .unrecognized)

/-- spec/30_encoding.md R78, R80: a frame is recognised exactly if it is one of the four kill frames or its byte 0 is the
tag of a configured thrust format and its length is that format's. -/
def Obligations.RecognisedExactlyIfARow : Prop :=
  ∀ (c : Cfg) (len : Nat) (d : Payload), c.wf = true →
    (decodeCmd c len d ≠ .unrecognized ↔
      (len = 5 ∧ d.bytes.take 5 ∈ ([[0x4B, 0x43, 0x48, 0x41, 0x00], [0x4B, 0x43, 0x53, 0x41, 0x00],
          [0x4B, 0x43, 0x48, 0x55, 0x00], [0x4B, 0x43, 0x53, 0x55, 0x00]] : List (List Byte))) ∨
        ∃ f ∈ c.thrustFormats, f.tag = d.a0 ∧ f.len = len)

/-- spec/40_can_codec.md R96: `decode_status` inverts `encode_status`; the two vocabularies are disjoint. -/
def Obligations.StatusRoundTripAndDisjointVocabularies : Prop :=
  ∀ c : Cfg, c.wf = true →
    (∀ e, decodeStatus (encodeStatus c e).len.toNat (encodeStatus c e).data = some e) ∧
      (∀ e, decodeCmd c (encodeStatus c e).len.toNat (encodeStatus c e).data = .unrecognized) ∧
      ∀ k, decodeStatus (encode (killInstr k)).1 (encode (killInstr k)).2 = none

/-- spec/30_encoding.md R71, R72, R75, R78, R79, R84: five words of the opcode table, bit for bit, decode to their rows. -/
def Obligations.TableWordsDecodeToTheirRows : Prop :=
  decodeTableWord 40 0x004148434B = some .kcha ∧ decodeTableWord 40 0x005553434B = some .kcsu ∧
    decodeTableWord 64 0x0706050403020148 = some (.thrustH 1 2 3 4 5 6 7) ∧
    decodeTableWord 40 0x004153524B = some .krsa ∧ decodeTableWord 24 0x005547 = some .gu

/-- spec/20_memory.md R54, spec/92_eei_decisions.md D31: byte `k` of the payload stands at bits `[8k+7:8k]` of a 64-bit
data port, and the port carries exactly the payload. -/
def Obligations.DataPortCarriesThePayload : Prop :=
  (∀ (p : Payload) (k : Fin 8), p.pack.extractLsb' (8 * k.val) 8 = p.get k) ∧
    (∀ p : Payload, Payload.unpack p.pack = p) ∧ ∀ w : BitVec 64, (Payload.unpack w).pack = w

/-! The thrust mapper. -/

/-- spec/41_thrust_mapper.md R112 (a), R117: the width lies between the reverse and forward widths of the channel's
generator, so nothing wraps in 16 bits: the register holds the width of R111 itself. -/
def Obligations.MapStaysInRangeWithoutOverflow : Prop :=
  ∀ (c : Cfg) (ch : Channel) (b : Byte), c.wf = true →
    (c.genOf ch).rev ≤ (mapWidth c ch b).toNat ∧ (mapWidth c ch b).toNat ≤ (c.genOf ch).fwd ∧
      (mapWidth c ch b).toNat = widthAt (c.genOf ch) (speedOperand b)

/-- spec/41_thrust_mapper.md R112 (b), (c): neutral at speed byte 0, forward at 0x7F, reverse at 0x81 and at 0x80. -/
def Obligations.MapHitsNeutralAndEndPoints : Prop :=
  ∀ (c : Cfg) (ch : Channel), c.wf = true →
    (mapWidth c ch 0x00).toNat = (c.genOf ch).neutral ∧ (mapWidth c ch 0x7F).toNat = (c.genOf ch).fwd ∧
      (mapWidth c ch 0x81).toNat = (c.genOf ch).rev ∧ (mapWidth c ch 0x80).toNat = (c.genOf ch).rev

/-- spec/41_thrust_mapper.md R112 (d): monotone non-decreasing in the signed speed byte. -/
def Obligations.MapIsMonotone : Prop :=
  ∀ (c : Cfg) (ch : Channel) (a b : Byte), c.wf = true → a.toInt ≤ b.toInt →
    (mapWidth c ch a).toNat ≤ (mapWidth c ch b).toNat

/-- spec/41_thrust_mapper.md R113: the integer width is the exact interpolation at speed `signed(b) / 127` rounded toward
neutral: down on the forward segment, up on the reverse segment. -/
def Obligations.MapIsRoundedInterpolation : Prop :=
  ∀ (c : Cfg) (ch : Channel) (b : Byte), c.wf = true →
    (0 ≤ b.toInt →
      ((mapWidth c ch b).toNat : ℤ) = ⌊widthAtSpeed (c.genOf ch) ((b.toInt : ℚ) / 127)⌋) ∧
    (b.toInt < 0 →
      ((mapWidth c ch b).toNat : ℤ) = ⌈widthAtSpeed (c.genOf ch) ((b.toInt : ℚ) / 127)⌉)

/-! The Kill State Machine, event by event. -/

/-- spec/44_kill_fsm.md R148: a hard kill runs in every kill state, on both of its events, with its 14 actions, 10 of
them with an ack. -/
def Obligations.HardKillRunsInEveryState : Prop :=
  ∀ (s : State) (e : Event), e = .hardKillRequest ∨ e = .onOffMagnetRemoved →
    Emitted s (s.feed e) (specHardKill s.cfg) ∧ (s.feed e).ks = .hardKilled ∧ (s.feed e).PoweredDown ∧
      TookAcks s (s.feed e) 10 ∧ (specHardKill s.cfg).length = 14 ∧
      (s.feed e).wdLast = s.wdLast ∧ SameDiag s (s.feed e) ∧ KeepsRest s (s.feed e)

/-- spec/44_kill_fsm.md R149: a hard unkill runs in `HardKilled`, without consulting the magnets, and transmits no frame;
elsewhere its event changes nothing. -/
def Obligations.HardUnkillRunsInHardKilled : Prop :=
  ∀ s : State,
    (s.ks = .hardKilled →
      Emitted s (s.feed .hardUnkillRequest) (specHardUnkill s.cfg) ∧ (s.feed .hardUnkillRequest).ks = .running ∧
        (s.feed .hardUnkillRequest).mainPwr = true ∧ (s.feed .hardUnkillRequest).thrPwr = true ∧
        (s.feed .hardUnkillRequest).pwmEn = true ∧
        (∀ ch, (s.feed .hardUnkillRequest).pw.get ch = s.cfg.neutral ch) ∧
        TookAcks s (s.feed .hardUnkillRequest) 8 ∧
        (s.feed .hardUnkillRequest).wdLast = s.wdLast ∧ SameDiag s (s.feed .hardUnkillRequest) ∧
        KeepsRest s (s.feed .hardUnkillRequest)) ∧
      (s.ks ≠ .hardKilled → s.feed .hardUnkillRequest = s)

/-- spec/44_kill_fsm.md R150: a soft kill runs in `Running` on each of its four events, which are indistinguishable after
it, leaves `main_pwr` alone, and its action list is the first eleven entries of the hard kill's; elsewhere the four events
change nothing. -/
def Obligations.SoftKillRunsInRunning : Prop :=
  ∀ (s : State) (e : Event),
    e = .softKillRequest ∨ e = .softKillMagnetAsserted ∨ e = .goMagnetDeasserted ∨ e = .commandTimeout →
    (s.ks = .running →
      Emitted s (s.feed e) (specSoftKill s.cfg) ∧ (s.feed e).ks = .softKilled ∧
        (s.feed e).pwmEn = false ∧ (s.feed e).thrPwr = false ∧ (s.feed e).mainPwr = s.mainPwr ∧
        (∀ ch, (s.feed e).pw.get ch = s.cfg.neutral ch) ∧ TookAcks s (s.feed e) 9 ∧
        specSoftKill s.cfg = (specHardKill s.cfg).take 11 ∧ s.feed e = s.feed .softKillRequest ∧
        (s.feed e).wdLast = s.wdLast ∧ SameDiag s (s.feed e) ∧ KeepsRest s (s.feed e)) ∧
      (s.ks ≠ .running → s.feed e = s)

/-- spec/44_kill_fsm.md R151: a soft unkill runs in `SoftKilled` exactly under its guard, and restores neither `thr_pwr`
nor `pw`; with a failing guard nothing happens. -/
def Obligations.SoftUnkillRunsUnderItsGuard : Prop :=
  ∀ s : State, s.ks = .softKilled →
    (s.hallLast.go = true ∧ s.hallLast.onoff = true →
      Emitted s (s.feed .softUnkillRequest) (specSoftUnkill s.cfg) ∧ (s.feed .softUnkillRequest).ks = .running ∧
        (s.feed .softUnkillRequest).pwmEn = true ∧ (s.feed .softUnkillRequest).thrPwr = s.thrPwr ∧
        (s.feed .softUnkillRequest).mainPwr = s.mainPwr ∧ (s.feed .softUnkillRequest).pw = s.pw ∧
        TookAcks s (s.feed .softUnkillRequest) 1 ∧
        (s.feed .softUnkillRequest).wdLast = s.wdLast ∧ SameDiag s (s.feed .softUnkillRequest) ∧
        KeepsRest s (s.feed .softUnkillRequest)) ∧
      (¬(s.hallLast.go = true ∧ s.hallLast.onoff = true) → s.feed .softUnkillRequest = s)

/-- spec/44_kill_fsm.md R152: a thrust command in `Running` writes each carried channel with its mapped width, in list
order, and nothing else. -/
def Obligations.ThrustAppliesInRunning : Prop :=
  ∀ (s : State) (cmds : List ThrustCmd), s.ks = .running →
    Emitted s (s.feed (.thrustCommand cmds)) (cmds.map fun p => .pwmSet p.1 (mapWidth s.cfg p.1 p.2)) ∧
      (s.feed (.thrustCommand cmds)).ks = .running ∧
      (∀ ch, (∀ b, (ch, b) ∉ cmds) → (s.feed (.thrustCommand cmds)).pw.get ch = s.pw.get ch) ∧
      ((cmds.map Prod.fst).Nodup → ∀ ch b, (ch, b) ∈ cmds →
        (s.feed (.thrustCommand cmds)).pw.get ch = mapWidth s.cfg ch b) ∧
      (s.feed (.thrustCommand cmds)).pwmEn = s.pwmEn ∧ (s.feed (.thrustCommand cmds)).thrPwr = s.thrPwr ∧
      (s.feed (.thrustCommand cmds)).mainPwr = s.mainPwr ∧ TookAcks s (s.feed (.thrustCommand cmds)) cmds.length ∧
      (s.feed (.thrustCommand cmds)).wdLast = s.wdLast ∧ SameDiag s (s.feed (.thrustCommand cmds)) ∧
      KeepsRest s (s.feed (.thrustCommand cmds))

/-- spec/44_kill_fsm.md R146, R153: in every cell the matrix marks `ignore` by its event and state alone, feeding the event
changes nothing at all; nor does a soft-unkill request in `SoftKilled` whose guard fails. -/
def Obligations.IgnoredCellsChangeNothing : Prop :=
  ∀ (s : State) (e : Event),
    (e = .hardUnkillRequest ∧ s.ks ≠ .hardKilled) ∨
      ((e = .softKillRequest ∨ e = .softKillMagnetAsserted ∨ e = .goMagnetDeasserted ∨ e = .commandTimeout) ∧
        s.ks ≠ .running) ∨
      (e = .softUnkillRequest ∧
        (s.ks ≠ .softKilled ∨ s.hallLast.go = false ∨ s.hallLast.onoff = false)) ∨
      ((∃ cmds, e = .thrustCommand cmds) ∧ s.ks ≠ .running) →
    s.feed e = s

/-- spec/44_kill_fsm.md R156 (a), (d), (e): what leaves `HardKilled`, what enters `Running`, and that nothing goes from
`HardKilled` to `SoftKilled`. -/
def Obligations.KillStateLaws : Prop :=
  ∀ (s : State) (e : Event),
    (s.ks = .hardKilled → ((s.feed e).ks ≠ .hardKilled ↔ e = .hardUnkillRequest)) ∧
      (s.ks ≠ .running → ((s.feed e).ks = .running ↔
        (s.ks = .hardKilled ∧ e = .hardUnkillRequest) ∨
          (s.ks = .softKilled ∧ e = .softUnkillRequest ∧ s.hallLast.go = true ∧ s.hallLast.onoff = true))) ∧
      (s.ks = .hardKilled → (s.feed e).ks ≠ .softKilled)

/-! The meanings of the frames: result, frame and completion. -/

/-- spec/40_can_codec.md R100 with spec/44_kill_fsm.md R148: `KCHA` refreshes the watchdog and hard-kills, in every kill
state. -/
def Obligations.KchaHardKills : Prop :=
  ∀ s : State, ∃ t, exec .kcha s = .next t ∧ Emitted s t (specHardKill s.cfg) ∧ t.ks = .hardKilled ∧
    t.PoweredDown ∧ TookAcks s t 10 ∧ t.wdLast = s.arrival ∧ SameDiag s t ∧ KeepsRest s t

/-- spec/40_can_codec.md R101 with spec/44_kill_fsm.md R150, R153: `KCSA` refreshes the watchdog, soft-kills in
`Running`, and does nothing more elsewhere. -/
def Obligations.KcsaSoftKillsInRunning : Prop :=
  ∀ s : State, ∃ t, exec .kcsa s = .next t ∧ t.wdLast = s.arrival ∧ SameDiag s t ∧ KeepsRest s t ∧
    (s.ks = .running → Emitted s t (specSoftKill s.cfg) ∧ t.ks = .softKilled ∧ TookAcks s t 9 ∧
      t.pwmEn = false ∧ t.thrPwr = false ∧ t.mainPwr = s.mainPwr ∧ ∀ ch, t.pw.get ch = s.cfg.neutral ch) ∧
    (s.ks ≠ .running → t = { s with wdLast := s.arrival })

/-- spec/40_can_codec.md R102 with spec/44_kill_fsm.md R149, R153: `KCHU` refreshes the watchdog, hard-unkills in
`HardKilled` without consulting the magnets, and does nothing more elsewhere. -/
def Obligations.KchuHardUnkillsInHardKilled : Prop :=
  ∀ s : State, ∃ t, exec .kchu s = .next t ∧ t.wdLast = s.arrival ∧ SameDiag s t ∧ KeepsRest s t ∧
    (s.ks = .hardKilled → Emitted s t (specHardUnkill s.cfg) ∧ t.ks = .running ∧ TookAcks s t 8 ∧
      t.pwmEn = true ∧ t.thrPwr = true ∧ t.mainPwr = true ∧ ∀ ch, t.pw.get ch = s.cfg.neutral ch) ∧
    (s.ks ≠ .hardKilled → t = { s with wdLast := s.arrival })

/-- spec/40_can_codec.md R103 with spec/44_kill_fsm.md R151, R153: `KCSU` refreshes the watchdog, soft-unkills in
`SoftKilled` under its guard, and does nothing more otherwise. -/
def Obligations.KcsuSoftUnkillsUnderGuard : Prop :=
  ∀ s : State, ∃ t, exec .kcsu s = .next t ∧ t.wdLast = s.arrival ∧ SameDiag s t ∧ KeepsRest s t ∧
    (s.ks = .softKilled ∧ s.hallLast.go = true ∧ s.hallLast.onoff = true →
      Emitted s t (specSoftUnkill s.cfg) ∧ t.ks = .running ∧ TookAcks s t 1 ∧
        t.pwmEn = true ∧ t.thrPwr = s.thrPwr ∧ t.mainPwr = s.mainPwr ∧ t.pw = s.pw) ∧
    (¬(s.ks = .softKilled ∧ s.hallLast.go = true ∧ s.hallLast.onoff = true) → t = { s with wdLast := s.arrival })

/-- spec/40_can_codec.md R104, spec/30_encoding.md R75 with spec/44_kill_fsm.md R152, R153: `THRUST.H` refreshes the
watchdog and the diagnostic bytes in every kill state; in `Running` it writes channels 0, 1, 4, 5 in this order. -/
def Obligations.ThrustHAppliesFourChannels : Prop :=
  ∀ (s : State) (s0 s1 s4 s5 cr hs ua : Byte), ∃ t, exec (.thrustH s0 s1 s4 s5 cr hs ua) s = .next t ∧
    t.wdLast = s.arrival ∧ t.diagCr = cr ∧ t.diagHs = hs ∧ t.diagUa = ua ∧ KeepsRest s t ∧ t.ks = s.ks ∧
    t.pwmEn = s.pwmEn ∧ t.thrPwr = s.thrPwr ∧ t.mainPwr = s.mainPwr ∧
    (s.ks = .running →
      t.trace = s.trace ++ [.pwmSet 0 (mapWidth s.cfg 0 s0), .pwmSet 1 (mapWidth s.cfg 1 s1),
        .pwmSet 4 (mapWidth s.cfg 4 s4), .pwmSet 5 (mapWidth s.cfg 5 s5)] ∧
      t.pw = ⟨mapWidth s.cfg 0 s0, mapWidth s.cfg 1 s1, s.pw.a2, s.pw.a3, mapWidth s.cfg 4 s4, mapWidth s.cfg 5 s5,
        s.pw.a6, s.pw.a7⟩ ∧ TookAcks s t 4) ∧
    (s.ks ≠ .running → t = { s with wdLast := s.arrival, diagCr := cr, diagHs := hs, diagUa := ua })

/-- spec/40_can_codec.md R104, spec/30_encoding.md R75 with spec/44_kill_fsm.md R152, R153: `THRUST.V` refreshes the
watchdog and the diagnostic bytes in every kill state; in `Running` it writes channels 2, 3, 6, 7 in this order. -/
def Obligations.ThrustVAppliesFourChannels : Prop :=
  ∀ (s : State) (s2 s3 s6 s7 cr hs ua : Byte), ∃ t, exec (.thrustV s2 s3 s6 s7 cr hs ua) s = .next t ∧
    t.wdLast = s.arrival ∧ t.diagCr = cr ∧ t.diagHs = hs ∧ t.diagUa = ua ∧ KeepsRest s t ∧ t.ks = s.ks ∧
    t.pwmEn = s.pwmEn ∧ t.thrPwr = s.thrPwr ∧ t.mainPwr = s.mainPwr ∧
    (s.ks = .running →
      t.trace = s.trace ++ [.pwmSet 2 (mapWidth s.cfg 2 s2), .pwmSet 3 (mapWidth s.cfg 3 s3),
        .pwmSet 6 (mapWidth s.cfg 6 s6), .pwmSet 7 (mapWidth s.cfg 7 s7)] ∧
      t.pw = ⟨s.pw.a0, s.pw.a1, mapWidth s.cfg 2 s2, mapWidth s.cfg 3 s3, s.pw.a4, s.pw.a5, mapWidth s.cfg 6 s6,
        mapWidth s.cfg 7 s7⟩ ∧ TookAcks s t 4) ∧
    (s.ks ≠ .running → t = { s with wdLast := s.arrival, diagCr := cr, diagHs := hs, diagUa := ua })

/-- spec/40_can_codec.md R105 to R110: each of the six transmitted frames emits exactly its `Tx`, with its identifier,
length and bytes, takes one ack, and writes no register. -/
def Obligations.StatusFramesTransmitAndWriteNothing : Prop :=
  ∀ (s : State) (p : Instr × Action),
    p ∈ [(Instr.krha, specKRHA s.cfg), (.krsa, specKRSA s.cfg), (.krhu, specKRHU s.cfg), (.krsu, specKRSU s.cfg),
        (.ga, specGA s.cfg), (.gu, specGU s.cfg)] →
    ∃ t, exec p.1 s = .next t ∧ t.trace = s.trace ++ [p.2] ∧ SameRegs s t ∧ KeepsRest s t ∧ TookAcks s t 1

/-! The step. -/

/-- spec/40_can_codec.md R98, spec/44_kill_fsm.md R157: an accepted frame that decodes to an instruction is run by `exec`
between the beginning and the end of its processing cycle; so is the instruction of a status tick that transmits one
status event. -/
def Obligations.StepRunsTheDecodedInstruction : Prop :=
  ∀ (s : State) (rest : List Stimulus) (i : Instr), s.cfg.wf = true → s.busy = false →
    (∀ (f : Frame) (t : Time), s.ordq = .rxFrame f t :: rest → f.id ∈ s.cfg.cmdIds →
      decodeRx s.cfg f.len.toNat f.data = .ok i →
      ∃ u, exec i ({ s with ordq := rest }.beginCycle t) = .next u ∧ step s = .next u.endCycle) ∧
    (∀ (e : StatusEvent) (t : Time), s.ordq = .statusTick t :: rest → refreshList s = [e] → i = statusInstr e →
      ∃ u, exec i ({ s with ordq := rest }.beginCycle t) = .next u ∧ step s = .next u.endCycle)

/-- The model's placing of an instruction (log entry 14): from an idle or busy state of a well-formed configuration with
the reference thrust formats and at least one command identifier, the very next step runs exactly the instruction of the
table word, and nothing but the configuration's refresh table, the queue and `busy` was touched for it. -/
def Obligations.PlacedTableWordIsRunNext : Prop :=
  ∀ (s : State) (nbits w : Nat) (i : Instr), s.cfg.wf = true → s.cfg.thrustFormats = [ThrustFormat.h, ThrustFormat.v] →
    s.cfg.cmdIds ≠ [] → decodeTableWord nbits w = some i →
    ∃ u, exec i { s with cfg := (s.withFetchWord nbits w).cfg, busy := true, cycOk := true } = .next u ∧
      step (s.withFetchWord nbits w) = .next u.endCycle ∧
      { (s.withFetchWord nbits w).cfg with statusRefresh := s.cfg.statusRefresh } = s.cfg

/-- spec/30_encoding.md R80, spec/60_exceptions.md R171, spec/20_memory.md R51: a frame outside `CMD_ID_SET` or one the
decoder does not recognise is dropped: no action, and no register but `last_ok` is written. -/
def Obligations.UnacceptedFrameIsDropped : Prop :=
  ∀ (s : State) (f : Frame) (t : Time) (rest : List Stimulus), s.cfg.wf = true → s.busy = false →
    s.ordq = .rxFrame f t :: rest → ¬ accepted s.cfg f →
    ∃ u, step s = .next u ∧ SameRegs s u ∧ u.trace = s.trace ∧ u.lastOk = true ∧ u.acks = s.acks ∧
      u.ackDraws = s.ackDraws ∧ u.ordq = rest ∧ u.busy = false

/-- spec/43_watchdog.md R131: `wd_last` is written with the arrival time by every accepted frame, in every kill state,
and by nothing else. -/
def Obligations.WatchdogRecordsAcceptedFramesOnly : Prop :=
  ∀ (s u : State) (st : Stimulus) (rest : List Stimulus), s.cfg.wf = true → s.busy = false → s.ordq = st :: rest →
    step s = .next u →
    (∀ f t, st = .rxFrame f t → accepted s.cfg f → u.wdLast = t) ∧
      ((∀ f t, st = .rxFrame f t → ¬ accepted s.cfg f) → u.wdLast = s.wdLast)

/-- spec/40_can_codec.md R99: the diagnostic bytes are those of every thrust frame that decodes, in every kill state, of
every configured format, and nothing else writes them. -/
def Obligations.DiagnosticBytesFollowThrustFrames : Prop :=
  ∀ (s u : State) (st : Stimulus) (rest : List Stimulus), s.cfg.wf = true → s.busy = false → s.ordq = st :: rest →
    step s = .next u →
    (∀ f t cmds cr hs ua, st = .rxFrame f t → f.id ∈ s.cfg.cmdIds →
      decodeCmd s.cfg f.len.toNat f.data = .thrust cmds cr hs ua → u.diagCr = cr ∧ u.diagHs = hs ∧ u.diagUa = ua) ∧
    ((∀ f t cmds cr hs ua, st = .rxFrame f t → f.id ∈ s.cfg.cmdIds →
      decodeCmd s.cfg f.len.toNat f.data ≠ .thrust cmds cr hs ua) → SameDiag s u)

/-- spec/40_can_codec.md R97, R98, R104 with spec/44_kill_fsm.md R152, R153: a received thrust frame of ANY configured
format, the table's two or another: in `Running` the channels the format carries are written, ascending, each with the
mapped byte at its offset; in the other kill states nothing is emitted. -/
def Obligations.AnyThrustFormatIsApplied : Prop :=
  ∀ (s : State) (f : Frame) (t : Time) (rest : List Stimulus) (g : ThrustFormat), s.cfg.wf = true → s.busy = false →
    s.ordq = .rxFrame f t :: rest → f.id ∈ s.cfg.cmdIds → g ∈ s.cfg.thrustFormats → f.data.a0 = g.tag →
    f.len.toNat = g.len →
    ∃ u, step s = .next u ∧ u.wdLast = t ∧ u.diagCr = f.data.get g.crOff ∧ u.diagHs = f.data.get g.hsOff ∧
      u.diagUa = f.data.get g.uaOff ∧ u.ks = s.ks ∧ u.pwmEn = s.pwmEn ∧ u.thrPwr = s.thrPwr ∧
      u.mainPwr = s.mainPwr ∧ u.hallLast = s.hallLast ∧
      (s.ks = .running →
        (∀ ch, u.pw.get ch = match g.speedOff.get ch with
          | some k => mapWidth s.cfg ch (f.data.get k)
          | none => s.pw.get ch) ∧
        u.trace = s.trace ++ [0, 1, 2, 3, 4, 5, 6, 7].filterMap fun ch =>
          (g.speedOff.get ch).map fun k => .pwmSet ch (mapWidth s.cfg ch (f.data.get k))) ∧
      (s.ks ≠ .running → u.pw = s.pw ∧ u.trace = s.trace)

/-- spec/42_hall_interlock.md R123 to R125 with spec/44_kill_fsm.md R146, spec/60_exceptions.md R182: a hall sample stores
the three filtered levels and makes at most one transition: the hard kill exactly on an observed removal of the on/off
magnet (from any kill state), else, in `Running`, the soft kill if the soft-kill magnet is present or the go magnet is
absent, else nothing. -/
def Obligations.HallSampleKillsAtMostOnce : Prop :=
  ∀ (s : State) (raw : PerSensor Bool) (t : Time) (rest : List Stimulus), s.cfg.wf = true → s.busy = false →
    s.ordq = .hallSample raw t :: rest →
    ∃ u, step s = .next u ∧ u.wdLast = s.wdLast ∧ SameDiag s u ∧
      (∀ k, u.hallLast.get k = match s.cfg.actLevel.get k with
        | .activeHigh => raw.get k
        | .activeLow => !raw.get k) ∧
      (s.hallLast.onoff = true ∧ u.hallLast.onoff = false →
        Emitted s u (specHardKill s.cfg) ∧ u.ks = .hardKilled) ∧
      (¬(s.hallLast.onoff = true ∧ u.hallLast.onoff = false) → s.ks = .running →
        u.hallLast.soft = true ∨ u.hallLast.go = false →
        Emitted s u (specSoftKill s.cfg) ∧ u.ks = .softKilled) ∧
      (¬(s.hallLast.onoff = true ∧ u.hallLast.onoff = false) →
        ¬(s.ks = .running ∧ (u.hallLast.soft = true ∨ u.hallLast.go = false)) →
        u.trace = s.trace ∧ u.ks = s.ks ∧ u.pw = s.pw ∧ u.pwmEn = s.pwmEn ∧ u.thrPwr = s.thrPwr ∧
          u.mainPwr = s.mainPwr ∧ u.lastOk = true)

/-- spec/43_watchdog.md R132, R133: a watchdog tick soft-kills exactly if more than `WD_TIMEOUT` units, modulo `2^32`, have
passed since the last record and the state is `Running`; it never writes `wd_last`. -/
def Obligations.WatchdogTickTimesOutStrictly : Prop :=
  ∀ (s : State) (t : Time) (rest : List Stimulus), s.cfg.wf = true → s.busy = false → s.ordq = .wdTick t :: rest →
    ∃ u, step s = .next u ∧ u.wdLast = s.wdLast ∧ u.hallLast = s.hallLast ∧ SameDiag s u ∧
      (s.cfg.wdTimeout < (t - s.wdLast).toNat ∧ s.ks = .running →
        Emitted s u (specSoftKill s.cfg) ∧ u.ks = .softKilled) ∧
      (¬(s.cfg.wdTimeout < (t - s.wdLast).toNat ∧ s.ks = .running) →
        SameRegs s u ∧ u.trace = s.trace ∧ u.lastOk = true)

/-- spec/44_kill_fsm.md R157: a status tick transmits the frames of `STATUS_REFRESH(ks, hall_last)` in list order and
writes no register other than `last_ok`. -/
def Obligations.StatusTickOnlyTransmits : Prop :=
  ∀ (s : State) (t : Time) (rest : List Stimulus), s.cfg.wf = true → s.busy = false → s.ordq = .statusTick t :: rest →
    ∃ u, step s = .next u ∧ SameRegs s u ∧
      u.trace = s.trace ++
        ((s.cfg.statusRefresh.get s.ks).get (hallIndex s.hallLast)).map (specTx s.cfg) ∧
      u.lastOk = (s.acksAhead ((s.cfg.statusRefresh.get s.ks).get (hallIndex s.hallLast)).length).all id

/-- spec/44_kill_fsm.md R157, spec/40_can_codec.md R107, R109, R110: no stimulus but a status tick transmits `KRHU`, `GA` or
`GU`. -/
def Obligations.OnlyStatusTicksSendRefreshFrames : Prop :=
  ∀ (s u : State) (st : Stimulus) (rest : List Stimulus), s.cfg.wf = true → s.busy = false → s.ordq = st :: rest →
    (∀ t, st ≠ .statusTick t) → step s = .next u →
    ∃ as, u.trace = s.trace ++ as ∧ specKRHU s.cfg ∉ as ∧ specGA s.cfg ∉ as ∧ specGU s.cfg ∉ as

/-- spec/10_state.md R27: `last_ok` after a processing cycle is the AND of the acks of that cycle's actions, 1 if it
emitted none with an ack; it is 1 after reset, and no cycle reads it. -/
def Obligations.LastOkIsTheCyclesAnd : Prop :=
  (∀ s u : State, s.cfg.wf = true → s.busy = false → s.ordq ≠ [] → step s = .next u →
    (∃ as, u.trace = s.trace ++ as ∧ u.lastOk = (s.acksAhead (ackCount as)).all id ∧
      u.acks = s.acks.drop (ackCount as)) ∧
    ∀ b, step { s with lastOk := b } = .next u) ∧
  ∀ c, (State.resetWith c).lastOk = true

/-- spec/10_state.md R39, spec/93_implementation_defined.md U2: over runs of any length, two machines that differ only in
the acks they receive (and in `last_ok`) go through the same registers and emit the same actions. -/
def Obligations.AcksInfluenceOnlyLastOk : Prop :=
  ∀ (n : Nat) (s t s' : State), SameButAcks s t → runSteps n s = .next s' →
    ∃ t', runSteps n t = .next t' ∧ SameButAcks s' t'

/-- spec/10_state.md R23 to R26, R38: in every step the four outputs are written only through the actions the step adds
to the trace. -/
def Obligations.OutputsFollowTheTrace : Prop :=
  ∀ s u : State, step s = .next u → ∃ as, Emitted s u as

/-- spec/10_state.md R35, every step keeps it: what each kill state implies for the outputs, the range of the pulse
widths, and that no cycle is in progress; and how `thr_pwr` in `Running` depends on how `Running` was entered. -/
def Obligations.StepKeepsStateInvariant : Prop :=
  ∀ s u : State, s.Inv → step s = .next u →
    u.Inv ∧ (u.ks = .running → s.ks = .hardKilled → u.thrPwr = true) ∧
      (u.ks = .running → s.ks = .softKilled → u.thrPwr = false) ∧
      (u.ks = .running → s.ks = .running → u.thrPwr = s.thrPwr)

/-- spec/10_state.md R35, R40: reset establishes the invariant under every well-formed configuration. -/
def Obligations.ResetEstablishesInvariant : Prop :=
  ∀ c : Cfg, c.wf = true → (State.resetWith c).Inv

/-- spec/60_exceptions.md R193, R188, R25, R26: over every step, the kill state leaves `HardKilled`, thruster power comes
on and main power comes on only by an accepted `KCHU` frame. -/
def Obligations.OnlyKchuWakesThePowerOutputs : Prop :=
  ∀ s u : State, step s = .next u →
    (s.ks = .hardKilled ∧ u.ks ≠ .hardKilled) ∨ (s.thrPwr = false ∧ u.thrPwr = true) ∨
      (s.mainPwr = false ∧ u.mainPwr = true) →
    s.ks = .hardKilled ∧ u.ks = .running ∧ ∃ f t rest, s.ordq = .rxFrame f t :: rest ∧ f.id ∈ s.cfg.cmdIds ∧
      f.len = 5 ∧ f.data.bytes.take 5 = [0x4B, 0x43, 0x48, 0x55, 0x00]

/-- spec/00_scope.md R9, spec/20_memory.md R58, R60, R61: every step keeps the configuration, and an idle machine with a
pending stimulus takes exactly the first one. -/
def Obligations.StepTakesStimuliInArrivalOrder : Prop :=
  ∀ s u : State, step s = .next u →
    u.cfg = s.cfg ∧ (s.busy = false → u.ordq = s.ordq.tail ∧ u.busy = false)

/-- spec/60_exceptions.md R170, spec/70_reset_and_hazards.md R205, R213: under a well-formed configuration every stimulus
sequence is processed to its end with no fault and no refusal; an ill-formed configuration is refused, the one place
where the model stops (log entry 2). -/
def Obligations.EveryStimulusSequenceIsProcessed : Prop :=
  (∀ s : State, s.cfg.wf = true → s.busy = false →
    ∃ u, runSteps s.ordq.length s = .next u ∧ u.ordq = [] ∧ u.busy = false) ∧
  (∀ s : State, s.cfg.wf = true → ∃ u, step s = .next u) ∧
  ∀ s : State, s.cfg.wf = false → step s = .refused .illFormedConfig

/-- spec/70_reset_and_hazards.md R211, spec/90_conflicts.md C2: after a soft kill and a guarded soft unkill the machine is
`Running` with PWM enabled and thruster power off. -/
def Obligations.RunningWithoutThrusterPower : Prop :=
  ∀ s : State, s.ks = .running → s.hallLast.go = true → s.hallLast.onoff = true →
    ∃ t u, exec .kcsa s = .next t ∧ exec .kcsu t = .next u ∧
      u.ks = .running ∧ u.pwmEn = true ∧ u.thrPwr = false ∧ u.mainPwr = s.mainPwr ∧
      ∀ ch, u.pw.get ch = s.cfg.neutral ch

/-- spec/10_state.md R40, spec/70_reset_and_hazards.md R200, R202: what reset leaves, field by field, after a power cycle
and when applied between two steps; it emits nothing. -/
def Obligations.ResetLeavesTheResetValues : Prop :=
  ∀ s : State, (State.resetWith s.cfg).HasResetValues ∧ (State.resetWith s.cfg).trace = [] ∧
    (State.resetWith s.cfg).cfg = s.cfg ∧
    s.applyReset.HasResetValues ∧ s.applyReset.trace = s.trace ∧ s.applyReset.cfg = s.cfg

/-- spec/60_exceptions.md R181, spec/10_state.md R37: whichever of the four sources have a new stimulus on a clock, these
are queued in the order hall sample, received frame, watchdog tick, status tick, each with the time of that clock, behind
everything that arrived before. At transaction level for every choice of sources; at pin level for every clock out of
reset and every queue, whether or not the clock also takes the head of the queue. -/
def Obligations.SimultaneousStimuliKeepTheTieOrder : Prop :=
  (∀ (s : State) (t : Time) (hall : Option (PerSensor Bool)) (rx : Option Frame) (wd st : Bool),
    s.arrive t hall rx wd st = { s with ordq := s.ordq ++
      ([hall.map fun raw => .hallSample raw t, rx.map fun f => .rxFrame f t, if wd then some (.wdTick t) else none,
        if st then some (.statusTick t) else none] : List (Option Stimulus)).reduceOption }) ∧
  ∀ (p : PinState) (i : PinIn), i.rst = false →
    ((∀ src, taking p i src = false) → (clock p i).ordq = p.ordq ++ newSources p i) ∧
      ∀ src, taking p i src = true → (clock p i).ordq = p.ordq.tail ++ newSources p i

/-! The pin level. -/

/-- spec/10_state.md R33 (a), R37: the arrival-order queue never holds a source twice, hence at most four entries; every
clock keeps this. -/
def Obligations.PinQueueHoldsEachSourceOnce : Prop :=
  ∀ (p : PinState) (i : PinIn), (p.ordq.map Prod.fst).Nodup →
    ((clock p i).ordq.map Prod.fst).Nodup ∧ (clock p i).ordq.length ≤ 4

/-- spec/10_state.md R33 (b), R36, R37: out of reset a ready is 1 exactly for the source at the head of the queue of an
idle machine, while that source's valid is 1. The ready makes the machine busy with the time the entry recorded, so it
lasts one clock and no other source is taken with it. A source whose valid is 1 and that does not wait in the queue is
queued with the present time. -/
def Obligations.PinReadyOnlyForTheHeadOfAnIdleQueue : Prop :=
  ∀ (p : PinState) (i : PinIn) (src : Source),
    ((pinOut p i).ready src = true ↔
      i.rst = false ∧ p.core.busy = false ∧ i.valid src = true ∧ ∃ t rest, p.ordq = (src, t) :: rest) ∧
    taking p i src = (pinOut p i).ready src ∧
    ((pinOut p i).ready src = true →
      (clock p i).core.busy = true ∧ (∀ j src', (pinOut (clock p i) j).ready src' = false) ∧
        (∀ src', src' ≠ src → (pinOut p i).ready src' = false) ∧
        ∀ t rest, p.ordq = (src, t) :: rest → (clock p i).core.arrival = t) ∧
    (i.rst = false → i.valid src = true → src ∉ p.ordq.map Prod.fst → (src, i.now) ∈ (clock p i).ordq)

/-- spec/10_state.md R32, R36, with the codes of R21: the output ports are combinational copies of the registers,
whatever the inputs: the pulse widths, the three power flags, the diagnostic bytes, `last_ok`, `busy`, the two-bit code of
`ks`, and the three bits of `hall_level`; and out of reset the transmit and pulse-width ports offer exactly the action
that the cycle in progress issues next, payload byte `k` at bits `[8k+7:8k]`. -/
def Obligations.PinOutputsShowTheRegisters : Prop :=
  ∀ (p : PinState) (i : PinIn),
    (pinOut p i).pwOut = p.core.pw ∧ (pinOut p i).pwmEn = p.core.pwmEn ∧ (pinOut p i).thrPwr = p.core.thrPwr ∧
      (pinOut p i).mainPwr = p.core.mainPwr ∧ (pinOut p i).diagCr = p.core.diagCr ∧
      (pinOut p i).diagHs = p.core.diagHs ∧ (pinOut p i).diagUa = p.core.diagUa ∧
      (pinOut p i).lastOk = p.core.lastOk ∧ (pinOut p i).busy = p.core.busy ∧
      ((pinOut p i).ksOut = 0b00 ↔ p.core.ks = .hardKilled) ∧ ((pinOut p i).ksOut = 0b01 ↔ p.core.ks = .softKilled) ∧
      ((pinOut p i).ksOut = 0b10 ↔ p.core.ks = .running) ∧ (pinOut p i).ksOut ≠ 0b11 ∧
      (pinOut p i).hallLevel.getLsbD 0 = p.core.hallLast.soft ∧
      (pinOut p i).hallLevel.getLsbD 1 = p.core.hallLast.go ∧
      (pinOut p i).hallLevel.getLsbD 2 = p.core.hallLast.onoff ∧
      (∀ g, (pinOut p i).tx = some g ↔ i.rst = false ∧ p.core.busy = true ∧
        ∃ f rest, p.plan = .act (.tx f) :: rest ∧ g.id = f.id ∧ g.len = f.len ∧
          ∀ k : Fin 8, g.data.extractLsb' (8 * k.val) 8 = f.data.get k) ∧
      ∀ c w, (pinOut p i).pwmSet = some (c, w) ↔ i.rst = false ∧ p.core.busy = true ∧
        ∃ ch rest, p.plan = .act (.pwmSet ch w) :: rest ∧ c.toNat = ch.val

/-- spec/70_reset_and_hazards.md R200: a clock with `rst = 1` gives every register its reset value whatever was in
progress, a running delay included, accepts nothing and offers nothing, and emits no action. -/
def Obligations.PinResetAbandonsTheCycle : Prop :=
  ∀ (p : PinState) (i : PinIn), i.rst = true →
    (clock p i).core.HasResetValues ∧ (clock p i).core.trace = p.core.trace ∧ (clock p i).core.cfg = p.core.cfg ∧
      (clock p i).plan = [] ∧ (clock p i).ordq = [] ∧
      (clock p i).delayFrom = none ∧ (clock p i).core.busy = false ∧
      (∀ src, taking p i src = false) ∧ (pinOut p i).tx = none ∧ (pinOut p i).pwmSet = none

/-- spec/10_state.md R37: an offered frame or pulse-width write stays offered, unchanged, until the clock of its
transfer. -/
def Obligations.PinOffersAreHeldUntilTaken : Prop :=
  ∀ (p : PinState) (i j : PinIn), i.rst = false → j.rst = false →
    (∀ f, txOffer p i = some f → i.txReady = false → txOffer (clock p i) j = some f) ∧
      ∀ w, pwmSetOffer p i = some w → i.pwmSetReady = false → pwmSetOffer (clock p i) j = some w

/-- spec/10_state.md R38, spec/20_memory.md R59, spec/44_kill_fsm.md R147: the clock that begins a `Delay(d)` issues it to
the trace, records its own `now` as `t_start` and goes no further; while `(now - t_start) mod 2^32 < d` no clock writes a
register, takes a stimulus or goes on with the plan; the first unstalled clock after that ends the delay and the plan goes
on behind it. A stalled clock changes none of this (log entry 16). -/
def Obligations.PinDelayBlocksUntilItsTime : Prop :=
  ∀ (p : PinState) (i : PinIn) (d : Nat) (rest : List Micro), i.rst = false → p.core.busy = true →
    p.plan = .act (.delay d) :: rest →
    (∀ src, taking p i src = false) ∧
      (p.delayFrom = none → i.stall = false →
        (clock p i).core = { p.core with trace := p.core.trace ++ [.delay d] } ∧ (clock p i).plan = p.plan ∧
          (clock p i).delayFrom = some i.now) ∧
      (∀ t0, p.delayFrom = some t0 → (i.now - t0).toNat < d →
        (clock p i).core = p.core ∧ (clock p i).plan = p.plan ∧ (clock p i).delayFrom = some t0) ∧
      (∀ t0, p.delayFrom = some t0 → d ≤ (i.now - t0).toNat → i.stall = false →
        (clock p i).core = p.core ∧ (clock p i).plan = rest ∧ (clock p i).delayFrom = none) ∧
      (i.stall = true →
        (clock p i).core = p.core ∧ (clock p i).plan = p.plan ∧ (clock p i).delayFrom = p.delayFrom)

/-- spec/10_state.md R33 (b), R38, R40: reset establishes, and every clock keeps, that a delay runs only while it is the
next thing to do and that an idle machine has nothing left to do. -/
def Obligations.PinClockKeepsItsPlanFitting : Prop :=
  PinState.reset.Fits ∧ ∀ (p : PinState) (i : PinIn), p.Fits → (clock p i).Fits

/-- spec/00_scope.md R10, spec/10_state.md R36 to R39: each clock inside a cycle refines the transaction level. The
registers and the trace at the end of the cycle, reckoned at transaction level before the clock with the acks this clock
samples at its handshakes followed by any others, are those reckoned after the clock with the others. It holds of every
state that keeps PinClockKeepsItsPlanFitting, reached or not. -/
def Obligations.PinClockRefinesTheRestOfTheCycle : Prop :=
  ∀ (p : PinState) (i : PinIn), p.Fits → p.core.busy = true → i.rst = false →
    ∀ acks, p.finish (clockAcks p i ++ acks) = (clock p i).finish acks

/-- spec/00_scope.md R10, spec/10_state.md R36, R37, R39: the pin level refines the transaction level. Take an idle
pin-level machine at the clock at which it accepts a stimulus; after any further clocks without reset through which it
stays busy, up to the clock that ends the cycle, its registers and trace are those of one transaction-level step on that
stimulus with exactly the acks that the handshakes of those clocks sampled, in their order. -/
def Obligations.PinCycleRefinesStep : Prop :=
  ∀ (p : PinState) (i : PinIn) (is : List PinIn) (src : Source) (t : Time) (st : Stimulus),
    p.core.cfg.wf = true → p.core.busy = false → i.rst = false → accepting p i = some (src, t, st) →
    (∀ j ∈ is, j.rst = false) →
    (∀ k, k < is.length → (clocks (clock p i) (is.take k)).core.busy = true) →
    (clocks (clock p i) is).core.busy = false →
    step { p.core with ordq := [st], acks := sampledAcks (clock p i) is } =
      .next { (clocks (clock p i) is).core with ordq := [], acks := [] }

/-- spec/10_state.md R27, R36, R39: at pin level `last_ok` is the AND of the `pwm_set_ok` and `tx_ok` values that the
handshakes of the cycle sampled, 1 if there was none; it is written by the clock that ends the cycle and by no clock
before it. -/
def Obligations.PinLastOkIsTheAndOfTheSampledAcks : Prop :=
  ∀ (p : PinState) (i : PinIn) (is : List PinIn) (src : Source) (t : Time) (st : Stimulus),
    i.rst = false → accepting p i = some (src, t, st) → (∀ j ∈ is, j.rst = false) →
    (∀ k, k < is.length → (clocks (clock p i) (is.take k)).core.busy = true) →
    (∀ k, k < is.length → (clocks (clock p i) (is.take k)).core.lastOk = p.core.lastOk) ∧
      ((clocks (clock p i) is).core.busy = false →
        (clocks (clock p i) is).core.lastOk = (sampledAcks (clock p i) is).all id)

/-- spec/93_implementation_defined.md U17, spec/70_reset_and_hazards.md R216: every cycle ends: from every busy state there
are clocks (handshakes answered, time advancing past a running delay, no stall) after which the machine is idle. That
the time and the stall are free inputs is the model's choice (log entries 16 and 17). -/
def Obligations.PinCycleCanAlwaysEnd : Prop :=
  ∀ p : PinState, p.core.busy = true → p.core.cfg.wf = true →
    (∀ d, Micro.act (.delay d) ∈ p.plan → d < 2 ^ 31) →
    ∃ is : List PinIn, (∀ j ∈ is, j.rst = false) ∧ (clocks p is).core.busy = false
end

