-- ==== Sys2Proof/Laws/State.lean ====
section
/-! SUPPORT. One lemma per field per plain update of the state, each true by unfolding. -/

namespace Sys2Proof.Machine

/-! noteAck: what it writes and what it leaves. -/
@[simp] theorem State.noteAck_ks (s : State) (b : Bool) : (s.noteAck b).ks = s.ks := rfl
@[simp] theorem State.noteAck_pw (s : State) (b : Bool) : (s.noteAck b).pw = s.pw := rfl
@[simp] theorem State.noteAck_pwmEn (s : State) (b : Bool) : (s.noteAck b).pwmEn = s.pwmEn := rfl
@[simp] theorem State.noteAck_thrPwr (s : State) (b : Bool) : (s.noteAck b).thrPwr = s.thrPwr := rfl
@[simp] theorem State.noteAck_mainPwr (s : State) (b : Bool) : (s.noteAck b).mainPwr = s.mainPwr := rfl
@[simp] theorem State.noteAck_lastOk (s : State) (b : Bool) : (s.noteAck b).lastOk = s.lastOk := rfl
@[simp] theorem State.noteAck_hallLast (s : State) (b : Bool) : (s.noteAck b).hallLast = s.hallLast := rfl
@[simp] theorem State.noteAck_wdLast (s : State) (b : Bool) : (s.noteAck b).wdLast = s.wdLast := rfl
@[simp] theorem State.noteAck_diagCr (s : State) (b : Bool) : (s.noteAck b).diagCr = s.diagCr := rfl
@[simp] theorem State.noteAck_diagHs (s : State) (b : Bool) : (s.noteAck b).diagHs = s.diagHs := rfl
@[simp] theorem State.noteAck_diagUa (s : State) (b : Bool) : (s.noteAck b).diagUa = s.diagUa := rfl
@[simp] theorem State.noteAck_ordq (s : State) (b : Bool) : (s.noteAck b).ordq = s.ordq := rfl
@[simp] theorem State.noteAck_busy (s : State) (b : Bool) : (s.noteAck b).busy = s.busy := rfl
@[simp] theorem State.noteAck_cfg (s : State) (b : Bool) : (s.noteAck b).cfg = s.cfg := rfl
@[simp] theorem State.noteAck_arrival (s : State) (b : Bool) : (s.noteAck b).arrival = s.arrival := rfl
@[simp] theorem State.noteAck_cycOk (s : State) (b : Bool) : (s.noteAck b).cycOk = (s.cycOk && b) := rfl
@[simp] theorem State.noteAck_acks (s : State) (b : Bool) : (s.noteAck b).acks = s.acks := rfl
@[simp] theorem State.noteAck_ackDraws (s : State) (b : Bool) : (s.noteAck b).ackDraws = s.ackDraws := rfl
@[simp] theorem State.noteAck_trace (s : State) (b : Bool) : (s.noteAck b).trace = s.trace := rfl
/-! beginCycle: what it writes and what it leaves. -/
@[simp] theorem State.beginCycle_ks (s : State) (t : Time) : (s.beginCycle t).ks = s.ks := rfl
@[simp] theorem State.beginCycle_pw (s : State) (t : Time) : (s.beginCycle t).pw = s.pw := rfl
@[simp] theorem State.beginCycle_pwmEn (s : State) (t : Time) : (s.beginCycle t).pwmEn = s.pwmEn := rfl
@[simp] theorem State.beginCycle_thrPwr (s : State) (t : Time) : (s.beginCycle t).thrPwr = s.thrPwr := rfl
@[simp] theorem State.beginCycle_mainPwr (s : State) (t : Time) : (s.beginCycle t).mainPwr = s.mainPwr := rfl
@[simp] theorem State.beginCycle_lastOk (s : State) (t : Time) : (s.beginCycle t).lastOk = s.lastOk := rfl
@[simp] theorem State.beginCycle_hallLast (s : State) (t : Time) : (s.beginCycle t).hallLast = s.hallLast := rfl
@[simp] theorem State.beginCycle_wdLast (s : State) (t : Time) : (s.beginCycle t).wdLast = s.wdLast := rfl
@[simp] theorem State.beginCycle_diagCr (s : State) (t : Time) : (s.beginCycle t).diagCr = s.diagCr := rfl
@[simp] theorem State.beginCycle_diagHs (s : State) (t : Time) : (s.beginCycle t).diagHs = s.diagHs := rfl
@[simp] theorem State.beginCycle_diagUa (s : State) (t : Time) : (s.beginCycle t).diagUa = s.diagUa := rfl
@[simp] theorem State.beginCycle_ordq (s : State) (t : Time) : (s.beginCycle t).ordq = s.ordq := rfl
@[simp] theorem State.beginCycle_busy (s : State) (t : Time) : (s.beginCycle t).busy = true := rfl
@[simp] theorem State.beginCycle_cfg (s : State) (t : Time) : (s.beginCycle t).cfg = s.cfg := rfl
@[simp] theorem State.beginCycle_arrival (s : State) (t : Time) : (s.beginCycle t).arrival = t := rfl
@[simp] theorem State.beginCycle_cycOk (s : State) (t : Time) : (s.beginCycle t).cycOk = true := rfl
@[simp] theorem State.beginCycle_acks (s : State) (t : Time) : (s.beginCycle t).acks = s.acks := rfl
@[simp] theorem State.beginCycle_ackDraws (s : State) (t : Time) : (s.beginCycle t).ackDraws = s.ackDraws := rfl
@[simp] theorem State.beginCycle_trace (s : State) (t : Time) : (s.beginCycle t).trace = s.trace := rfl
/-! endCycle: what it writes and what it leaves. -/
@[simp] theorem State.endCycle_ks (s : State) : (s.endCycle).ks = s.ks := rfl
@[simp] theorem State.endCycle_pw (s : State) : (s.endCycle).pw = s.pw := rfl
@[simp] theorem State.endCycle_pwmEn (s : State) : (s.endCycle).pwmEn = s.pwmEn := rfl
@[simp] theorem State.endCycle_thrPwr (s : State) : (s.endCycle).thrPwr = s.thrPwr := rfl
@[simp] theorem State.endCycle_mainPwr (s : State) : (s.endCycle).mainPwr = s.mainPwr := rfl
@[simp] theorem State.endCycle_lastOk (s : State) : (s.endCycle).lastOk = s.cycOk := rfl
@[simp] theorem State.endCycle_hallLast (s : State) : (s.endCycle).hallLast = s.hallLast := rfl
@[simp] theorem State.endCycle_wdLast (s : State) : (s.endCycle).wdLast = s.wdLast := rfl
@[simp] theorem State.endCycle_diagCr (s : State) : (s.endCycle).diagCr = s.diagCr := rfl
@[simp] theorem State.endCycle_diagHs (s : State) : (s.endCycle).diagHs = s.diagHs := rfl
@[simp] theorem State.endCycle_diagUa (s : State) : (s.endCycle).diagUa = s.diagUa := rfl
@[simp] theorem State.endCycle_ordq (s : State) : (s.endCycle).ordq = s.ordq := rfl
@[simp] theorem State.endCycle_busy (s : State) : (s.endCycle).busy = false := rfl
@[simp] theorem State.endCycle_cfg (s : State) : (s.endCycle).cfg = s.cfg := rfl
@[simp] theorem State.endCycle_arrival (s : State) : (s.endCycle).arrival = s.arrival := rfl
@[simp] theorem State.endCycle_cycOk (s : State) : (s.endCycle).cycOk = s.cycOk := rfl
@[simp] theorem State.endCycle_acks (s : State) : (s.endCycle).acks = s.acks := rfl
@[simp] theorem State.endCycle_ackDraws (s : State) : (s.endCycle).ackDraws = s.ackDraws := rfl
@[simp] theorem State.endCycle_trace (s : State) : (s.endCycle).trace = s.trace := rfl
/-! record: what it writes and what it leaves. -/
@[simp] theorem State.record_ks (s : State) : (s.record).ks = s.ks := rfl
@[simp] theorem State.record_pw (s : State) : (s.record).pw = s.pw := rfl
@[simp] theorem State.record_pwmEn (s : State) : (s.record).pwmEn = s.pwmEn := rfl
@[simp] theorem State.record_thrPwr (s : State) : (s.record).thrPwr = s.thrPwr := rfl
@[simp] theorem State.record_mainPwr (s : State) : (s.record).mainPwr = s.mainPwr := rfl
@[simp] theorem State.record_lastOk (s : State) : (s.record).lastOk = s.lastOk := rfl
@[simp] theorem State.record_hallLast (s : State) : (s.record).hallLast = s.hallLast := rfl
@[simp] theorem State.record_wdLast (s : State) : (s.record).wdLast = s.arrival := rfl
@[simp] theorem State.record_diagCr (s : State) : (s.record).diagCr = s.diagCr := rfl
@[simp] theorem State.record_diagHs (s : State) : (s.record).diagHs = s.diagHs := rfl
@[simp] theorem State.record_diagUa (s : State) : (s.record).diagUa = s.diagUa := rfl
@[simp] theorem State.record_ordq (s : State) : (s.record).ordq = s.ordq := rfl
@[simp] theorem State.record_busy (s : State) : (s.record).busy = s.busy := rfl
@[simp] theorem State.record_cfg (s : State) : (s.record).cfg = s.cfg := rfl
@[simp] theorem State.record_arrival (s : State) : (s.record).arrival = s.arrival := rfl
@[simp] theorem State.record_cycOk (s : State) : (s.record).cycOk = s.cycOk := rfl
@[simp] theorem State.record_acks (s : State) : (s.record).acks = s.acks := rfl
@[simp] theorem State.record_ackDraws (s : State) : (s.record).ackDraws = s.ackDraws := rfl
@[simp] theorem State.record_trace (s : State) : (s.record).trace = s.trace := rfl
/-! setDiag: what it writes and what it leaves. -/
@[simp] theorem State.setDiag_ks (s : State) (cr hs ua : Byte) : (s.setDiag cr hs ua).ks = s.ks := rfl
@[simp] theorem State.setDiag_pw (s : State) (cr hs ua : Byte) : (s.setDiag cr hs ua).pw = s.pw := rfl
@[simp] theorem State.setDiag_pwmEn (s : State) (cr hs ua : Byte) : (s.setDiag cr hs ua).pwmEn = s.pwmEn := rfl
@[simp] theorem State.setDiag_thrPwr (s : State) (cr hs ua : Byte) : (s.setDiag cr hs ua).thrPwr = s.thrPwr := rfl
@[simp] theorem State.setDiag_mainPwr (s : State) (cr hs ua : Byte) : (s.setDiag cr hs ua).mainPwr = s.mainPwr := rfl
@[simp] theorem State.setDiag_lastOk (s : State) (cr hs ua : Byte) : (s.setDiag cr hs ua).lastOk = s.lastOk := rfl
@[simp] theorem State.setDiag_hallLast (s : State) (cr hs ua : Byte) : (s.setDiag cr hs ua).hallLast = s.hallLast := rfl
@[simp] theorem State.setDiag_wdLast (s : State) (cr hs ua : Byte) : (s.setDiag cr hs ua).wdLast = s.wdLast := rfl
@[simp] theorem State.setDiag_diagCr (s : State) (cr hs ua : Byte) : (s.setDiag cr hs ua).diagCr = cr := rfl
@[simp] theorem State.setDiag_diagHs (s : State) (cr hs ua : Byte) : (s.setDiag cr hs ua).diagHs = hs := rfl
@[simp] theorem State.setDiag_diagUa (s : State) (cr hs ua : Byte) : (s.setDiag cr hs ua).diagUa = ua := rfl
@[simp] theorem State.setDiag_ordq (s : State) (cr hs ua : Byte) : (s.setDiag cr hs ua).ordq = s.ordq := rfl
@[simp] theorem State.setDiag_busy (s : State) (cr hs ua : Byte) : (s.setDiag cr hs ua).busy = s.busy := rfl
@[simp] theorem State.setDiag_cfg (s : State) (cr hs ua : Byte) : (s.setDiag cr hs ua).cfg = s.cfg := rfl
@[simp] theorem State.setDiag_arrival (s : State) (cr hs ua : Byte) : (s.setDiag cr hs ua).arrival = s.arrival := rfl
@[simp] theorem State.setDiag_cycOk (s : State) (cr hs ua : Byte) : (s.setDiag cr hs ua).cycOk = s.cycOk := rfl
@[simp] theorem State.setDiag_acks (s : State) (cr hs ua : Byte) : (s.setDiag cr hs ua).acks = s.acks := rfl
@[simp] theorem State.setDiag_ackDraws (s : State) (cr hs ua : Byte) : (s.setDiag cr hs ua).ackDraws = s.ackDraws := rfl
@[simp] theorem State.setDiag_trace (s : State) (cr hs ua : Byte) : (s.setDiag cr hs ua).trace = s.trace := rfl
/-! placeFirst: what it writes and what it leaves. -/
@[simp] theorem State.placeFirst_ks (s : State) (st : Stimulus) : (s.placeFirst st).ks = s.ks := rfl
@[simp] theorem State.placeFirst_pw (s : State) (st : Stimulus) : (s.placeFirst st).pw = s.pw := rfl
@[simp] theorem State.placeFirst_pwmEn (s : State) (st : Stimulus) : (s.placeFirst st).pwmEn = s.pwmEn := rfl
@[simp] theorem State.placeFirst_thrPwr (s : State) (st : Stimulus) : (s.placeFirst st).thrPwr = s.thrPwr := rfl
@[simp] theorem State.placeFirst_mainPwr (s : State) (st : Stimulus) : (s.placeFirst st).mainPwr = s.mainPwr := rfl
@[simp] theorem State.placeFirst_lastOk (s : State) (st : Stimulus) : (s.placeFirst st).lastOk = s.lastOk := rfl
@[simp] theorem State.placeFirst_hallLast (s : State) (st : Stimulus) : (s.placeFirst st).hallLast = s.hallLast := rfl
@[simp] theorem State.placeFirst_wdLast (s : State) (st : Stimulus) : (s.placeFirst st).wdLast = s.wdLast := rfl
@[simp] theorem State.placeFirst_diagCr (s : State) (st : Stimulus) : (s.placeFirst st).diagCr = s.diagCr := rfl
@[simp] theorem State.placeFirst_diagHs (s : State) (st : Stimulus) : (s.placeFirst st).diagHs = s.diagHs := rfl
@[simp] theorem State.placeFirst_diagUa (s : State) (st : Stimulus) : (s.placeFirst st).diagUa = s.diagUa := rfl
@[simp] theorem State.placeFirst_ordq (s : State) (st : Stimulus) : (s.placeFirst st).ordq = st :: s.ordq := rfl
@[simp] theorem State.placeFirst_busy (s : State) (st : Stimulus) : (s.placeFirst st).busy = false := rfl
@[simp] theorem State.placeFirst_cfg (s : State) (st : Stimulus) : (s.placeFirst st).cfg = s.cfg := rfl
@[simp] theorem State.placeFirst_arrival (s : State) (st : Stimulus) : (s.placeFirst st).arrival = s.arrival := rfl
@[simp] theorem State.placeFirst_cycOk (s : State) (st : Stimulus) : (s.placeFirst st).cycOk = s.cycOk := rfl
@[simp] theorem State.placeFirst_acks (s : State) (st : Stimulus) : (s.placeFirst st).acks = s.acks := rfl
@[simp] theorem State.placeFirst_ackDraws (s : State) (st : Stimulus) : (s.placeFirst st).ackDraws = s.ackDraws := rfl
@[simp] theorem State.placeFirst_trace (s : State) (st : Stimulus) : (s.placeFirst st).trace = s.trace := rfl
/-! applyReset: what it writes and what it leaves. -/
@[simp] theorem State.applyReset_ks (s : State) : (s.applyReset).ks = .hardKilled := rfl
@[simp] theorem State.applyReset_pw (s : State) : (s.applyReset).pw = s.cfg.allNeutral := rfl
@[simp] theorem State.applyReset_pwmEn (s : State) : (s.applyReset).pwmEn = false := rfl
@[simp] theorem State.applyReset_thrPwr (s : State) : (s.applyReset).thrPwr = false := rfl
@[simp] theorem State.applyReset_mainPwr (s : State) : (s.applyReset).mainPwr = false := rfl
@[simp] theorem State.applyReset_lastOk (s : State) : (s.applyReset).lastOk = true := rfl
@[simp] theorem State.applyReset_hallLast (s : State) : (s.applyReset).hallLast = ⟨false, false, false⟩ := rfl
@[simp] theorem State.applyReset_wdLast (s : State) : (s.applyReset).wdLast = 0 := rfl
@[simp] theorem State.applyReset_diagCr (s : State) : (s.applyReset).diagCr = 0 := rfl
@[simp] theorem State.applyReset_diagHs (s : State) : (s.applyReset).diagHs = 0 := rfl
@[simp] theorem State.applyReset_diagUa (s : State) : (s.applyReset).diagUa = 0 := rfl
@[simp] theorem State.applyReset_ordq (s : State) : (s.applyReset).ordq = [] := rfl
@[simp] theorem State.applyReset_busy (s : State) : (s.applyReset).busy = false := rfl
@[simp] theorem State.applyReset_cfg (s : State) : (s.applyReset).cfg = s.cfg := rfl
@[simp] theorem State.applyReset_arrival (s : State) : (s.applyReset).arrival = 0 := rfl
@[simp] theorem State.applyReset_cycOk (s : State) : (s.applyReset).cycOk = true := rfl
@[simp] theorem State.applyReset_acks (s : State) : (s.applyReset).acks = s.acks := rfl
@[simp] theorem State.applyReset_ackDraws (s : State) : (s.applyReset).ackDraws = s.ackDraws := rfl
@[simp] theorem State.applyReset_trace (s : State) : (s.applyReset).trace = s.trace := rfl

/-- A state is determined by its fields. -/
theorem State.ext_fields {s t : State} (hks : s.ks = t.ks) (hpw : s.pw = t.pw) (hpe : s.pwmEn = t.pwmEn)
    (htp : s.thrPwr = t.thrPwr) (hmp : s.mainPwr = t.mainPwr) (hlo : s.lastOk = t.lastOk)
    (hhl : s.hallLast = t.hallLast) (hwd : s.wdLast = t.wdLast) (hcr : s.diagCr = t.diagCr)
    (hhs : s.diagHs = t.diagHs) (hua : s.diagUa = t.diagUa) (hoq : s.ordq = t.ordq) (hbu : s.busy = t.busy)
    (hcf : s.cfg = t.cfg) (har : s.arrival = t.arrival) (hco : s.cycOk = t.cycOk) (hac : s.acks = t.acks)
    (had : s.ackDraws = t.ackDraws) (htr : s.trace = t.trace) : s = t := by
  cases s; cases t; simp_all

end Sys2Proof.Machine
end

