-- ==== Sys2Proof/Laws/Ops.lean ====
section
/-! SUPPORT. The laws of the shared operations: what emitting actions, taking acks, taking a transition and feeding
events can do, said once. -/

namespace Sys2Proof.Machine

@[simp] theorem Eight.get_const {α : Type} (x : α) (i : Fin 8) : (Eight.const x).get i = x := by
  fin_cases i <;> rfl

theorem Eight.get_set_same {α : Type} (e : Eight α) (i : Fin 8) (x : α) : (e.set i x).get i = x := by
  fin_cases i <;> rfl

theorem Eight.get_set_other {α : Type} (e : Eight α) (i j : Fin 8) (x : α) (h : i ≠ j) :
    (e.set i x).get j = e.get j := by
  fin_cases i <;> fin_cases j <;> first | rfl | exact absurd rfl h

theorem Eight.get_set {α : Type} (e : Eight α) (i j : Fin 8) (x : α) :
    (e.set i x).get j = if i = j then x else e.get j := by
  split
  · next h => subst h; exact Eight.get_set_same e i x
  · next h => exact Eight.get_set_other e i j x h

theorem Eight.ext_get {α : Type} {e f : Eight α} (h : ∀ i, e.get i = f.get i) : e = f := by
  cases e; cases f
  simp only [Eight.mk.injEq]
  exact ⟨h 0, h 1, h 2, h 3, h 4, h 5, h 6, h 7⟩

theorem allNeutral_get (c : Cfg) (ch : Channel) : c.allNeutral.get ch = c.neutral ch := by
  fin_cases ch <;> rfl

/-! Actions leave everything but the outputs, the acks and the trace alone (spec/10_state.md R38, R39). -/

@[simp] theorem State.apply_ks (s : State) (a : Action) : (s.apply a).ks = s.ks := by cases a <;> rfl
@[simp] theorem State.apply_lastOk (s : State) (a : Action) : (s.apply a).lastOk = s.lastOk := by cases a <;> rfl
@[simp] theorem State.apply_hallLast (s : State) (a : Action) : (s.apply a).hallLast = s.hallLast := by cases a <;> rfl
@[simp] theorem State.apply_wdLast (s : State) (a : Action) : (s.apply a).wdLast = s.wdLast := by cases a <;> rfl
@[simp] theorem State.apply_diagCr (s : State) (a : Action) : (s.apply a).diagCr = s.diagCr := by cases a <;> rfl
@[simp] theorem State.apply_diagHs (s : State) (a : Action) : (s.apply a).diagHs = s.diagHs := by cases a <;> rfl
@[simp] theorem State.apply_diagUa (s : State) (a : Action) : (s.apply a).diagUa = s.diagUa := by cases a <;> rfl
@[simp] theorem State.apply_ordq (s : State) (a : Action) : (s.apply a).ordq = s.ordq := by cases a <;> rfl
@[simp] theorem State.apply_busy (s : State) (a : Action) : (s.apply a).busy = s.busy := by cases a <;> rfl
@[simp] theorem State.apply_cfg (s : State) (a : Action) : (s.apply a).cfg = s.cfg := by cases a <;> rfl
@[simp] theorem State.apply_arrival (s : State) (a : Action) : (s.apply a).arrival = s.arrival := by cases a <;> rfl
@[simp] theorem State.apply_cycOk (s : State) (a : Action) : (s.apply a).cycOk = s.cycOk := by cases a <;> rfl
@[simp] theorem State.apply_acks (s : State) (a : Action) : (s.apply a).acks = s.acks := by cases a <;> rfl
@[simp] theorem State.apply_ackDraws (s : State) (a : Action) : (s.apply a).ackDraws = s.ackDraws := by cases a <;> rfl

@[simp] theorem State.takeAck_pw (s : State) : s.takeAck.pw = s.pw := by
  unfold State.takeAck; split <;> rfl
@[simp] theorem State.takeAck_pwmEn (s : State) : s.takeAck.pwmEn = s.pwmEn := by
  unfold State.takeAck; split <;> rfl
@[simp] theorem State.takeAck_thrPwr (s : State) : s.takeAck.thrPwr = s.thrPwr := by
  unfold State.takeAck; split <;> rfl
@[simp] theorem State.takeAck_mainPwr (s : State) : s.takeAck.mainPwr = s.mainPwr := by
  unfold State.takeAck; split <;> rfl
@[simp] theorem State.takeAck_trace (s : State) : s.takeAck.trace = s.trace := by
  unfold State.takeAck; split <;> rfl
@[simp] theorem State.takeAck_ks (s : State) : s.takeAck.ks = s.ks := by
  unfold State.takeAck; split <;> rfl
@[simp] theorem State.takeAck_lastOk (s : State) : s.takeAck.lastOk = s.lastOk := by
  unfold State.takeAck; split <;> rfl
@[simp] theorem State.takeAck_hallLast (s : State) : s.takeAck.hallLast = s.hallLast := by
  unfold State.takeAck; split <;> rfl
@[simp] theorem State.takeAck_wdLast (s : State) : s.takeAck.wdLast = s.wdLast := by
  unfold State.takeAck; split <;> rfl
@[simp] theorem State.takeAck_diagCr (s : State) : s.takeAck.diagCr = s.diagCr := by
  unfold State.takeAck; split <;> rfl
@[simp] theorem State.takeAck_diagHs (s : State) : s.takeAck.diagHs = s.diagHs := by
  unfold State.takeAck; split <;> rfl
@[simp] theorem State.takeAck_diagUa (s : State) : s.takeAck.diagUa = s.diagUa := by
  unfold State.takeAck; split <;> rfl
@[simp] theorem State.takeAck_ordq (s : State) : s.takeAck.ordq = s.ordq := by
  unfold State.takeAck; split <;> rfl
@[simp] theorem State.takeAck_busy (s : State) : s.takeAck.busy = s.busy := by
  unfold State.takeAck; split <;> rfl
@[simp] theorem State.takeAck_cfg (s : State) : s.takeAck.cfg = s.cfg := by
  unfold State.takeAck; split <;> rfl
@[simp] theorem State.takeAck_arrival (s : State) : s.takeAck.arrival = s.arrival := by
  unfold State.takeAck; split <;> rfl

@[simp] theorem State.emit_ks (s : State) (a : Action) : (s.emit a).ks = s.ks := by
  unfold State.emit; split <;> simp
@[simp] theorem State.emit_lastOk (s : State) (a : Action) : (s.emit a).lastOk = s.lastOk := by
  unfold State.emit; split <;> simp
@[simp] theorem State.emit_hallLast (s : State) (a : Action) : (s.emit a).hallLast = s.hallLast := by
  unfold State.emit; split <;> simp
@[simp] theorem State.emit_wdLast (s : State) (a : Action) : (s.emit a).wdLast = s.wdLast := by
  unfold State.emit; split <;> simp
@[simp] theorem State.emit_diagCr (s : State) (a : Action) : (s.emit a).diagCr = s.diagCr := by
  unfold State.emit; split <;> simp
@[simp] theorem State.emit_diagHs (s : State) (a : Action) : (s.emit a).diagHs = s.diagHs := by
  unfold State.emit; split <;> simp
@[simp] theorem State.emit_diagUa (s : State) (a : Action) : (s.emit a).diagUa = s.diagUa := by
  unfold State.emit; split <;> simp
@[simp] theorem State.emit_ordq (s : State) (a : Action) : (s.emit a).ordq = s.ordq := by
  unfold State.emit; split <;> simp
@[simp] theorem State.emit_busy (s : State) (a : Action) : (s.emit a).busy = s.busy := by
  unfold State.emit; split <;> simp
@[simp] theorem State.emit_cfg (s : State) (a : Action) : (s.emit a).cfg = s.cfg := by
  unfold State.emit; split <;> simp
@[simp] theorem State.emit_arrival (s : State) (a : Action) : (s.emit a).arrival = s.arrival := by
  unfold State.emit; split <;> simp

@[simp] theorem State.emitAll_ks (as : List Action) (s : State) : (s.emitAll as).ks = s.ks := by
  induction as generalizing s with
  | nil => rfl
  | cons a rest ih => simp [State.emitAll, ih]
@[simp] theorem State.emitAll_lastOk (as : List Action) (s : State) : (s.emitAll as).lastOk = s.lastOk := by
  induction as generalizing s with
  | nil => rfl
  | cons a rest ih => simp [State.emitAll, ih]
@[simp] theorem State.emitAll_hallLast (as : List Action) (s : State) : (s.emitAll as).hallLast = s.hallLast := by
  induction as generalizing s with
  | nil => rfl
  | cons a rest ih => simp [State.emitAll, ih]
@[simp] theorem State.emitAll_wdLast (as : List Action) (s : State) : (s.emitAll as).wdLast = s.wdLast := by
  induction as generalizing s with
  | nil => rfl
  | cons a rest ih => simp [State.emitAll, ih]
@[simp] theorem State.emitAll_diagCr (as : List Action) (s : State) : (s.emitAll as).diagCr = s.diagCr := by
  induction as generalizing s with
  | nil => rfl
  | cons a rest ih => simp [State.emitAll, ih]
@[simp] theorem State.emitAll_diagHs (as : List Action) (s : State) : (s.emitAll as).diagHs = s.diagHs := by
  induction as generalizing s with
  | nil => rfl
  | cons a rest ih => simp [State.emitAll, ih]
@[simp] theorem State.emitAll_diagUa (as : List Action) (s : State) : (s.emitAll as).diagUa = s.diagUa := by
  induction as generalizing s with
  | nil => rfl
  | cons a rest ih => simp [State.emitAll, ih]
@[simp] theorem State.emitAll_ordq (as : List Action) (s : State) : (s.emitAll as).ordq = s.ordq := by
  induction as generalizing s with
  | nil => rfl
  | cons a rest ih => simp [State.emitAll, ih]
@[simp] theorem State.emitAll_busy (as : List Action) (s : State) : (s.emitAll as).busy = s.busy := by
  induction as generalizing s with
  | nil => rfl
  | cons a rest ih => simp [State.emitAll, ih]
@[simp] theorem State.emitAll_cfg (as : List Action) (s : State) : (s.emitAll as).cfg = s.cfg := by
  induction as generalizing s with
  | nil => rfl
  | cons a rest ih => simp [State.emitAll, ih]
@[simp] theorem State.emitAll_arrival (as : List Action) (s : State) : (s.emitAll as).arrival = s.arrival := by
  induction as generalizing s with
  | nil => rfl
  | cons a rest ih => simp [State.emitAll, ih]

@[simp] theorem State.take_lastOk (s : State) (tr : Transition) : (s.take tr).lastOk = s.lastOk := by simp [State.take]
@[simp] theorem State.take_hallLast (s : State) (tr : Transition) : (s.take tr).hallLast = s.hallLast := by simp [State.take]
@[simp] theorem State.take_wdLast (s : State) (tr : Transition) : (s.take tr).wdLast = s.wdLast := by simp [State.take]
@[simp] theorem State.take_diagCr (s : State) (tr : Transition) : (s.take tr).diagCr = s.diagCr := by simp [State.take]
@[simp] theorem State.take_diagHs (s : State) (tr : Transition) : (s.take tr).diagHs = s.diagHs := by simp [State.take]
@[simp] theorem State.take_diagUa (s : State) (tr : Transition) : (s.take tr).diagUa = s.diagUa := by simp [State.take]
@[simp] theorem State.take_ordq (s : State) (tr : Transition) : (s.take tr).ordq = s.ordq := by simp [State.take]
@[simp] theorem State.take_busy (s : State) (tr : Transition) : (s.take tr).busy = s.busy := by simp [State.take]
@[simp] theorem State.take_cfg (s : State) (tr : Transition) : (s.take tr).cfg = s.cfg := by simp [State.take]
@[simp] theorem State.take_arrival (s : State) (tr : Transition) : (s.take tr).arrival = s.arrival := by simp [State.take]

@[simp] theorem State.take_ks (s : State) (tr : Transition) : (s.take tr).ks = tr.next := rfl

@[simp] theorem State.feed_lastOk (s : State) (e : Event) : (s.feed e).lastOk = s.lastOk := by simp [State.feed]
@[simp] theorem State.feed_hallLast (s : State) (e : Event) : (s.feed e).hallLast = s.hallLast := by simp [State.feed]
@[simp] theorem State.feed_wdLast (s : State) (e : Event) : (s.feed e).wdLast = s.wdLast := by simp [State.feed]
@[simp] theorem State.feed_diagCr (s : State) (e : Event) : (s.feed e).diagCr = s.diagCr := by simp [State.feed]
@[simp] theorem State.feed_diagHs (s : State) (e : Event) : (s.feed e).diagHs = s.diagHs := by simp [State.feed]
@[simp] theorem State.feed_diagUa (s : State) (e : Event) : (s.feed e).diagUa = s.diagUa := by simp [State.feed]
@[simp] theorem State.feed_ordq (s : State) (e : Event) : (s.feed e).ordq = s.ordq := by simp [State.feed]
@[simp] theorem State.feed_busy (s : State) (e : Event) : (s.feed e).busy = s.busy := by simp [State.feed]
@[simp] theorem State.feed_cfg (s : State) (e : Event) : (s.feed e).cfg = s.cfg := by simp [State.feed]
@[simp] theorem State.feed_arrival (s : State) (e : Event) : (s.feed e).arrival = s.arrival := by simp [State.feed]

@[simp] theorem State.feedAll_lastOk (es : List Event) (s : State) : (s.feedAll es).lastOk = s.lastOk := by
  induction es generalizing s with
  | nil => rfl
  | cons e rest ih => simp [State.feedAll, ih]
@[simp] theorem State.feedAll_hallLast (es : List Event) (s : State) : (s.feedAll es).hallLast = s.hallLast := by
  induction es generalizing s with
  | nil => rfl
  | cons e rest ih => simp [State.feedAll, ih]
@[simp] theorem State.feedAll_wdLast (es : List Event) (s : State) : (s.feedAll es).wdLast = s.wdLast := by
  induction es generalizing s with
  | nil => rfl
  | cons e rest ih => simp [State.feedAll, ih]
@[simp] theorem State.feedAll_diagCr (es : List Event) (s : State) : (s.feedAll es).diagCr = s.diagCr := by
  induction es generalizing s with
  | nil => rfl
  | cons e rest ih => simp [State.feedAll, ih]
@[simp] theorem State.feedAll_diagHs (es : List Event) (s : State) : (s.feedAll es).diagHs = s.diagHs := by
  induction es generalizing s with
  | nil => rfl
  | cons e rest ih => simp [State.feedAll, ih]
@[simp] theorem State.feedAll_diagUa (es : List Event) (s : State) : (s.feedAll es).diagUa = s.diagUa := by
  induction es generalizing s with
  | nil => rfl
  | cons e rest ih => simp [State.feedAll, ih]
@[simp] theorem State.feedAll_ordq (es : List Event) (s : State) : (s.feedAll es).ordq = s.ordq := by
  induction es generalizing s with
  | nil => rfl
  | cons e rest ih => simp [State.feedAll, ih]
@[simp] theorem State.feedAll_busy (es : List Event) (s : State) : (s.feedAll es).busy = s.busy := by
  induction es generalizing s with
  | nil => rfl
  | cons e rest ih => simp [State.feedAll, ih]
@[simp] theorem State.feedAll_cfg (es : List Event) (s : State) : (s.feedAll es).cfg = s.cfg := by
  induction es generalizing s with
  | nil => rfl
  | cons e rest ih => simp [State.feedAll, ih]
@[simp] theorem State.feedAll_arrival (es : List Event) (s : State) : (s.feedAll es).arrival = s.arrival := by
  induction es generalizing s with
  | nil => rfl
  | cons e rest ih => simp [State.feedAll, ih]

/-! What a list of actions does to the outputs. -/

@[simp] theorem State.emitAll_nil (s : State) : s.emitAll [] = s := rfl

@[simp] theorem State.emitAll_cons (s : State) (a : Action) (as : List Action) :
    s.emitAll (a :: as) = (s.emit a).emitAll as := rfl

theorem State.emitAll_append (as bs : List Action) (s : State) :
    s.emitAll (as ++ bs) = (s.emitAll as).emitAll bs := by
  induction as generalizing s with
  | nil => rfl
  | cons a rest ih => simp [ih]

@[simp] theorem State.feedAll_nil (s : State) : s.feedAll [] = s := rfl

@[simp] theorem State.feedAll_cons (s : State) (e : Event) (es : List Event) :
    s.feedAll (e :: es) = (s.feed e).feedAll es := rfl

@[simp] theorem State.apply_trace (s : State) (a : Action) : (s.apply a).trace = s.trace ++ [a] := by
  cases a <;> rfl

@[simp] theorem State.emit_trace (s : State) (a : Action) : (s.emit a).trace = s.trace ++ [a] := by
  unfold State.emit; split <;> simp

@[simp] theorem State.emitAll_trace (as : List Action) (s : State) : (s.emitAll as).trace = s.trace ++ as := by
  induction as generalizing s with
  | nil => simp
  | cons a rest ih => simp [ih]

@[simp] theorem State.emit_pw (s : State) (a : Action) : (s.emit a).pw = (s.apply a).pw := by
  unfold State.emit; split <;> simp

@[simp] theorem State.emit_pwmEn (s : State) (a : Action) : (s.emit a).pwmEn = (s.apply a).pwmEn := by
  unfold State.emit; split <;> simp

@[simp] theorem State.emit_thrPwr (s : State) (a : Action) : (s.emit a).thrPwr = (s.apply a).thrPwr := by
  unfold State.emit; split <;> simp

@[simp] theorem State.emit_mainPwr (s : State) (a : Action) : (s.emit a).mainPwr = (s.apply a).mainPwr := by
  unfold State.emit; split <;> simp

/-- A transition emits its actions and commits its state: the one inversion lemma of `take`. -/
theorem State.take_spec (s : State) (tr : Transition) :
    (s.take tr).ks = tr.next ∧ (s.take tr).trace = s.trace ++ tr.actions ∧
      (s.take tr).pw = (s.emitAll tr.actions).pw ∧ (s.take tr).pwmEn = (s.emitAll tr.actions).pwmEn ∧
      (s.take tr).thrPwr = (s.emitAll tr.actions).thrPwr ∧ (s.take tr).mainPwr = (s.emitAll tr.actions).mainPwr := by
  simp [State.take]

@[simp] theorem State.take_trace (s : State) (tr : Transition) : (s.take tr).trace = s.trace ++ tr.actions :=
  (State.take_spec s tr).2.1

/-- Ignoring an event changes nothing (spec/44_kill_fsm.md R153). -/
@[simp] theorem State.take_ignore (s : State) : s.take (ignore s.ks) = s := rfl

end Sys2Proof.Machine
end

