-- ==== Sys2Proof/Laws/Emit.lean ====
section
/-! SUPPORT. What emitting actions does, said once: the outputs follow the actions (`Emitted`), the acks are taken in
order (`TookAcks`), nothing else is touched (`KeepsRest`); and the same for a transition and an event. -/

namespace Sys2Proof.Machine

theorem Emitted.nil (s : State) : Emitted s s [] := ⟨by simp, fun _ => rfl, rfl, rfl, rfl⟩

theorem widthAfter_append (ch : Channel) (as bs : List Action) (w : Width) :
    widthAfter ch (as ++ bs) w = widthAfter ch bs (widthAfter ch as w) := by
  induction as generalizing w with
  | nil => rfl
  | cons a rest ih => cases a <;> simp [widthAfter, ih]

theorem pwmEnAfter_append (as bs : List Action) (b : Bool) :
    pwmEnAfter (as ++ bs) b = pwmEnAfter bs (pwmEnAfter as b) := by
  induction as generalizing b with
  | nil => rfl
  | cons a rest ih => cases a <;> simp [pwmEnAfter, ih]

theorem thrPwrAfter_append (as bs : List Action) (b : Bool) :
    thrPwrAfter (as ++ bs) b = thrPwrAfter bs (thrPwrAfter as b) := by
  induction as generalizing b with
  | nil => rfl
  | cons a rest ih => cases a <;> simp [thrPwrAfter, ih]

theorem mainPwrAfter_append (as bs : List Action) (b : Bool) :
    mainPwrAfter (as ++ bs) b = mainPwrAfter bs (mainPwrAfter as b) := by
  induction as generalizing b with
  | nil => rfl
  | cons a rest ih => cases a <;> simp [mainPwrAfter, ih]

theorem Emitted.trans {s t u : State} {as bs : List Action} (h : Emitted s t as) (k : Emitted t u bs) :
    Emitted s u (as ++ bs) where
  trace := by rw [k.trace, h.trace, List.append_assoc]
  pw ch := by rw [k.pw, h.pw, widthAfter_append]
  pwmEn := by rw [k.pwmEn, h.pwmEn, pwmEnAfter_append]
  thrPwr := by rw [k.thrPwr, h.thrPwr, thrPwrAfter_append]
  mainPwr := by rw [k.mainPwr, h.mainPwr, mainPwrAfter_append]

/-- What one applied action does to the outputs and the trace. -/
theorem apply_emitted (s : State) (a : Action) : Emitted s (s.apply a) [a] := by
  cases a <;> constructor <;>
    simp [State.apply, widthAfter, pwmEnAfter, thrPwrAfter, mainPwrAfter, Eight.get_set]

theorem emit_emitted (s : State) (a : Action) : Emitted s (s.emit a) [a] := by
  have h := apply_emitted s a
  exact ⟨by simp, fun ch => by rw [State.emit_pw, h.pw], by rw [State.emit_pwmEn, h.pwmEn],
    by rw [State.emit_thrPwr, h.thrPwr], by rw [State.emit_mainPwr, h.mainPwr]⟩

/-- What a list of emitted actions does to the outputs and the trace. -/
theorem emitAll_emitted (as : List Action) (s : State) : Emitted s (s.emitAll as) as := by
  induction as generalizing s with
  | nil => exact Emitted.nil s
  | cons a rest ih => exact (emit_emitted s a).trans (ih (s.emit a))

theorem TookAcks.zero (s : State) : TookAcks s s 0 :=
  ⟨by simp, by simp, by simp [State.acksAhead]⟩

theorem acksAhead_add (s t : State) (n m : Nat) (h : TookAcks s t n) :
    s.acksAhead (n + m) = s.acksAhead n ++ t.acksAhead m := by
  have hlen : t.acks.length = s.acks.length - n := by rw [h.acks, List.length_drop]
  unfold State.acksAhead
  rw [h.acks, h.draws, List.length_drop, List.take_add]
  by_cases hn : n ≤ s.acks.length
  · have h0 : n - s.acks.length = 0 := by omega
    have h1 : n + m - s.acks.length = m - (s.acks.length - n) := by omega
    simp [h0, h1, List.append_assoc]
  · have h0 : s.acks.drop n = [] := List.drop_eq_nil_of_le (by omega)
    have h1 : n + m - s.acks.length = (n - s.acks.length) + m := by omega
    have h2 : m - (s.acks.length - n) = m := by omega
    simp only [h0, h1, h2, List.take_nil, List.append_nil, List.nil_append, List.range_add, List.map_append,
      List.map_map, List.append_assoc]
    congr 2
    apply List.map_congr_left
    intro k _
    simp [Nat.add_assoc]

theorem TookAcks.trans {s t u : State} {n m : Nat} (h : TookAcks s t n) (k : TookAcks t u m) :
    TookAcks s u (n + m) where
  acks := by rw [k.acks, h.acks, List.drop_drop]
  draws := by rw [k.draws, h.draws, h.acks, List.length_drop]; omega
  ok := by rw [k.ok, h.ok, acksAhead_add s t n m h, List.all_append, Bool.and_assoc]

/-- Taking the next ack, said once: the one State holds or a free value, joined to the cycle's AND. -/
theorem takeAck_tookAcks (s : State) : TookAcks s s.takeAck 1 := by
  unfold State.takeAck
  split
  · next b rest h => constructor <;> simp [h, State.acksAhead]
  · next h => constructor <;> simp [h, State.acksAhead]

theorem emit_tookAcks (s : State) (a : Action) : TookAcks s (s.emit a) (ackCount [a]) := by
  unfold State.emit ackCount
  cases h : a.hasAck
  · have : List.filter Action.hasAck [a] = [] := by simp [h]
    rw [this]
    exact ⟨by simp, by simp, by simp [State.acksAhead]⟩
  · have e : List.filter Action.hasAck [a] = [a] := by simp [h]
    rw [e]
    have k := takeAck_tookAcks (s.apply a)
    have ha : (s.apply a).acksAhead 1 = s.acksAhead 1 := by simp [State.acksAhead]
    exact ⟨by simpa using k.acks, by simpa using k.draws, by simpa [ha] using k.ok⟩

/-- Emitting a list takes one ack for each action that has one, in order. -/
theorem emitAll_tookAcks (as : List Action) (s : State) : TookAcks s (s.emitAll as) (ackCount as) := by
  induction as generalizing s with
  | nil => exact TookAcks.zero s
  | cons a rest ih =>
    have h := (emit_tookAcks s a).trans (ih (s.emit a))
    have hc : ackCount [a] + ackCount rest = ackCount (a :: rest) := by
      unfold ackCount
      rw [← List.length_append, ← List.filter_append]
      rfl
    rw [hc] at h
    exact h

/-- What a transition does, said once. -/
theorem take_emitted (s : State) (tr : Transition) : Emitted s (s.take tr) tr.actions :=
  let h := emitAll_emitted tr.actions s
  ⟨h.trace, h.pw, h.pwmEn, h.thrPwr, h.mainPwr⟩

theorem take_tookAcks (s : State) (tr : Transition) : TookAcks s (s.take tr) (ackCount tr.actions) :=
  let h := emitAll_tookAcks tr.actions s
  ⟨h.acks, h.draws, h.ok⟩

theorem take_keepsRest (s : State) (tr : Transition) : KeepsRest s (s.take tr) :=
  ⟨by simp, by simp, by simp, by simp, by simp, by simp⟩

/-- What feeding an event does, said once: the actions of the matrix cell are emitted, its state is committed, and
nothing else but the acks is touched. -/
theorem feed_spec (s : State) (e : Event) :
    Emitted s (s.feed e) (fsm s.cfg s.ks s.hallLast e).actions ∧
      (s.feed e).ks = (fsm s.cfg s.ks s.hallLast e).next ∧
      TookAcks s (s.feed e) (ackCount (fsm s.cfg s.ks s.hallLast e).actions) ∧ (s.feed e).wdLast = s.wdLast ∧
      SameDiag s (s.feed e) ∧ KeepsRest s (s.feed e) :=
  ⟨take_emitted s _, rfl, take_tookAcks s _, by simp, ⟨by simp, by simp, by simp⟩, take_keepsRest s _⟩

/-! The transitions' action lists are those written out from the spec. -/

theorem hardKill_actions (c : Cfg) : (hardKill c).actions = specHardKill c := rfl

theorem softKill_actions (c : Cfg) : (softKill c).actions = specSoftKill c := rfl

theorem hardUnkill_actions (c : Cfg) : (hardUnkill c).actions = specHardUnkill c := rfl

theorem softUnkill_actions (c : Cfg) : (softUnkill c).actions = specSoftUnkill c := rfl

theorem txStatus_eq_specTx (c : Cfg) (e : StatusEvent) : txStatus c e = specTx c e := by cases e <;> rfl

/-- What stop-all leaves in channel `ch`. -/
theorem widthAfter_specStopAll (c : Cfg) (ch : Channel) (w : Width) :
    widthAfter ch (specStopAll c) w = c.neutral ch := by
  fin_cases ch <;> rfl

end Sys2Proof.Machine
end

