-- ==== Sys2Proof/Laws/Codec.lean ====
section
/-! SUPPORT. Laws of the codec: what `decode_cmd` can answer, said once, and that the instruction a frame decodes to means
exactly what the handler of spec/40_can_codec.md R98 does with the decoder's result. -/

namespace Sys2Proof.Machine

theorem formatOf_some {c : Cfg} {t : Byte} {f : ThrustFormat} (h : c.formatOf t = some f) :
    f ∈ c.thrustFormats ∧ f.tag = t := by
  unfold Cfg.formatOf at h
  exact ⟨List.mem_of_find?_eq_some h, by simpa using List.find?_some h⟩

/-- `decode_cmd` said once: what a recognised frame is. -/
theorem decodeCmd_cases (c : Cfg) (len : Nat) (d : Payload) :
    decodeCmd c len d = .unrecognized ∨
      (∃ k, decodeCmd c len d = .killCommand k ∧ d.a0 = 0x4B ∧ decodeKill len d = .killCommand k) ∨
      (∃ f, c.formatOf d.a0 = some f ∧ f ∈ c.thrustFormats ∧ f.tag = d.a0 ∧ d.a0 ≠ 0x4B ∧ len = f.len ∧
        0 < len ∧ len ≤ 8 ∧
        decodeCmd c len d = .thrust (f.cmds d) (d.get f.crOff) (d.get f.hsOff) (d.get f.uaOff)) := by
  unfold decodeCmd
  split
  · exact .inl rfl
  · next h0 =>
    split
    · next ht =>
      cases hk : decodeKill len d with
      | unrecognized => exact .inl rfl
      | killCommand k => exact .inr (.inl ⟨k, rfl, ht, rfl⟩)
      | thrust cmds cr hs ua =>
        unfold decodeKill at hk
        repeat (split at hk; · cases hk)
        cases hk
    · next ht =>
      split
      · next f hf =>
        unfold decodeThrust
        split
        · exact .inl rfl
        · next hl =>
          have hl' : len = f.len := Classical.not_not.mp hl
          exact .inr (.inr ⟨f, hf, (formatOf_some hf).1, (formatOf_some hf).2, ht, hl', by omega, by omega, rfl⟩)
      · exact .inl rfl

/-- Running the instruction of a kill command is accepting the command. -/
theorem exec_killInstr (k : KillCmd) (s : State) : exec (killInstr k) s = .next (s.acceptKill k) := by
  cases k <;> rfl

/-- Running the instruction of a status event is transmitting it. -/
theorem exec_statusInstr (e : StatusEvent) (s : State) : exec (statusInstr e) s = .next (s.transmit e) := by
  cases e <;> rfl

/-- Running the instruction of a thrust frame is accepting what the frame carries. -/
theorem exec_thrustInstr {f : ThrustFormat} {d : Payload} {i : Instr} (h : thrustInstr f d = some i) (s : State) :
    exec i s = .next (s.acceptThrust (f.cmds d) (d.get f.crOff) (d.get f.hsOff) (d.get f.uaOff)) := by
  unfold thrustInstr at h
  split at h
  · next hf => subst hf; cases h; rfl
  · split at h
    · next hf => subst hf; cases h; rfl
    · cases h

/-- What the handler of a received frame does, in terms of `decode_cmd` (spec/40_can_codec.md R98). -/
def afterRx (f : Frame) (s : State) : State :=
  if s.cfg.cmdIds.contains f.id then
    match decodeCmd s.cfg f.len.toNat f.data with
    | .unrecognized => s
    | .killCommand k => s.acceptKill k
    | .thrust cmds cr hs ua => s.acceptThrust cmds cr hs ua
  else s

theorem handleRx_eq (f : Frame) (s : State) : handleRx f s = .next (afterRx f s) := by
  unfold handleRx afterRx
  split
  · unfold decodeRx
    rcases decodeCmd_cases s.cfg f.len.toNat f.data with h | ⟨k, h, -, -⟩ | ⟨g, hg, -, -, -, -, -, -, h⟩
    · simp [h]
    · simp [h, exec_killInstr]
    · simp only [h, hg, Option.bind_some]
      cases hi : thrustInstr g f.data with
      | none => rfl
      | some i => exact exec_thrustInstr hi s
  · rfl

/-- Every instruction answers a next state. -/
theorem exec_next (i : Instr) (s : State) : ∃ t, exec i s = .next t := by
  cases i <;> exact ⟨_, rfl⟩

theorem runStatus_eq (es : List StatusEvent) (s : State) :
    runStatus es s = .next (s.emitAll (es.map (txStatus s.cfg))) := by
  induction es generalizing s with
  | nil => rfl
  | cons e rest ih =>
    simp only [runStatus, exec_statusInstr, ih, List.map_cons, State.emitAll_cons, State.transmit]
    simp

end Sys2Proof.Machine
end

