-- ==== Sys2Proof/Laws/Cycle.lean ====
section
/-! SUPPORT. What a step can do, said once: `step_cases`. Every invariant is derived from it. -/

namespace Sys2Proof.Machine

/-- The state after the handler of a stimulus (before the end of the cycle). -/
def afterStim (st : Stimulus) (s : State) : State :=
  match st with
  | .rxFrame f _ => afterRx f s
  | .hallSample raw _ => handleHall raw s
  | .wdTick _ => handleWdTick s
  | .statusTick _ => s.emitAll ((refreshList s).map (txStatus s.cfg))

theorem handle_eq (st : Stimulus) (s : State) : handle st s = .next (afterStim st s) := by
  cases st with
  | rxFrame f t => exact handleRx_eq f s
  | hallSample raw t => rfl
  | wdTick t => rfl
  | statusTick t => exact runStatus_eq (refreshList s) s

/-- The state in which the processing cycle of the queue's head begins. -/
abbrev State.accept (s : State) (st : Stimulus) (rest : List Stimulus) : State :=
  { s with ordq := rest }.beginCycle st.time

/-- A step of an idle machine with a pending stimulus. -/
theorem step_pending {s : State} {st : Stimulus} {rest : List Stimulus} (hw : s.cfg.wf = true) (hb : s.busy = false)
    (hq : s.ordq = st :: rest) : step s = .next (afterStim st (s.accept st rest)).endCycle := by
  unfold step processNext
  simp only [hw, hb, hq, handle_eq, closeCycle, Bool.not_true, Bool.false_eq_true, if_false]
  rfl

/-- What a step can do: nothing while busy or with nothing pending, else one whole processing cycle. -/
theorem step_cases {s u : State} (h : step s = .next u) :
    s.cfg.wf = true ∧
      ((s.busy = true ∨ s.ordq = []) ∧ u = s ∨
        ∃ st rest, s.busy = false ∧ s.ordq = st :: rest ∧ u = (afterStim st (s.accept st rest)).endCycle) := by
  unfold step processNext at h
  split at h
  · cases h
  · next hw =>
    have hw' : s.cfg.wf = true := by simpa using hw
    refine ⟨hw', ?_⟩
    split at h
    · next hb => cases h; exact .inl ⟨.inl hb, rfl⟩
    · next hb =>
      split at h
      · next hq => cases h; exact .inl ⟨.inr hq, rfl⟩
      · next st rest hq =>
        rw [handle_eq] at h
        cases h
        exact .inr ⟨st, rest, by simpa using hb, hq, rfl⟩

theorem step_next_of_wf {s : State} (hw : s.cfg.wf = true) : ∃ u, step s = .next u := by
  unfold step processNext
  simp only [hw, Bool.not_true, Bool.false_eq_true, if_false]
  split
  · exact ⟨_, rfl⟩
  · split
    · exact ⟨_, rfl⟩
    · next st rest _ => rw [handle_eq]; exact ⟨_, rfl⟩

/-- The events a stimulus feeds when its handler is `feedAll` of them; used to treat the handlers alike. -/
theorem acceptKill_eq (s : State) (k : KillCmd) : s.acceptKill k = s.record.feed (killEvent k) := rfl

theorem acceptThrust_eq (s : State) (cmds : List ThrustCmd) (cr hs ua : Byte) :
    s.acceptThrust cmds cr hs ua = (s.record.setDiag cr hs ua).feed (.thrustCommand cmds) := rfl

/-- What no handler touches. -/
theorem afterStim_keeps (st : Stimulus) (s : State) :
    (afterStim st s).cfg = s.cfg ∧ (afterStim st s).ordq = s.ordq ∧ (afterStim st s).busy = s.busy ∧
      (afterStim st s).arrival = s.arrival ∧ (afterStim st s).lastOk = s.lastOk := by
  cases st with
  | rxFrame f t =>
    simp only [afterStim, afterRx]
    split
    · split <;> simp [acceptKill_eq, acceptThrust_eq]
    · simp
  | hallSample raw t => simp [afterStim, handleHall]
  | wdTick t => simp only [afterStim, handleWdTick]; split <;> simp
  | statusTick t => simp [afterStim]

/-- Several events, fed one after the other: some actions are emitted and their acks taken. -/
theorem feedAll_emitted (es : List Event) (s : State) :
    ∃ as, Emitted s (s.feedAll es) as ∧ TookAcks s (s.feedAll es) (ackCount as) := by
  induction es generalizing s with
  | nil => exact ⟨[], Emitted.nil s, TookAcks.zero s⟩
  | cons e rest ih =>
    obtain ⟨as, h1, h2⟩ := ih (s.feed e)
    obtain ⟨k1, -, k2, -, -, -⟩ := feed_spec s e
    refine ⟨_ ++ as, k1.trans h1, ?_⟩
    have := k2.trans h2
    rwa [show ackCount _ + ackCount as = ackCount (_ ++ as) by
      unfold ackCount; rw [← List.length_append, ← List.filter_append]] at this

/-- Every handler emits some actions and takes their acks. -/
theorem afterStim_emitted (st : Stimulus) (s : State) :
    ∃ as, Emitted s (afterStim st s) as ∧ TookAcks s (afterStim st s) (ackCount as) := by
  cases st with
  | rxFrame f t =>
    simp only [afterStim, afterRx]
    split
    · split
      · exact ⟨[], Emitted.nil s, TookAcks.zero s⟩
      · next k _ =>
        obtain ⟨h1, -, h2, -, -, -⟩ := feed_spec s.record (killEvent k)
        exact ⟨_, ⟨h1.trace, h1.pw, h1.pwmEn, h1.thrPwr, h1.mainPwr⟩, ⟨h2.acks, h2.draws, h2.ok⟩⟩
      · next cmds cr hs ua _ =>
        obtain ⟨h1, -, h2, -, -, -⟩ := feed_spec (s.record.setDiag cr hs ua) (.thrustCommand cmds)
        exact ⟨_, ⟨h1.trace, h1.pw, h1.pwmEn, h1.thrPwr, h1.mainPwr⟩, ⟨h2.acks, h2.draws, h2.ok⟩⟩
    · exact ⟨[], Emitted.nil s, TookAcks.zero s⟩
  | hallSample raw t =>
    obtain ⟨as, h1, h2⟩ := feedAll_emitted (hallEvents s.hallLast (filtered s.cfg raw))
      { s with hallLast := filtered s.cfg raw }
    exact ⟨as, ⟨h1.trace, h1.pw, h1.pwmEn, h1.thrPwr, h1.mainPwr⟩, ⟨h2.acks, h2.draws, h2.ok⟩⟩
  | wdTick t =>
    simp only [afterStim, handleWdTick]
    split
    · obtain ⟨h1, -, h2, -, -, -⟩ := feed_spec s .commandTimeout
      exact ⟨_, h1, h2⟩
    · exact ⟨[], Emitted.nil s, TookAcks.zero s⟩
  | statusTick t => exact ⟨_, emitAll_emitted _ s, emitAll_tookAcks _ s⟩

end Sys2Proof.Machine
end

