-- ==== Sys2Proof/Laws/WellFormed.lean ====
section
/-! SUPPORT. What a well-formed configuration gives, said once: its generators, its thrust formats, the selection of a
format by its tag (spec/00_scope.md R8, spec/30_encoding.md R74). -/

namespace Sys2Proof.Machine

/-- The constants of a channel's generator are in order and fit 16 bits. -/
theorem genOf_of_wf {c : Cfg} (hw : c.wf = true) (ch : Channel) :
    (c.genOf ch).rev ≤ (c.genOf ch).neutral ∧ (c.genOf ch).neutral ≤ (c.genOf ch).fwd ∧ (c.genOf ch).fwd < 2 ^ 16 := by
  simp only [Cfg.wf, Bool.and_eq_true] at hw
  have hall := hw.1.2
  simp only [Cfg.gensOk, List.all_eq_true] at hall
  have hmem : ∀ g : GenId, g ∈ Eight.indexes := by decide
  have hg := hall (c.gen.get ch) (hmem _)
  simp only [GenParams.wf, Bool.and_eq_true, decide_eq_true_eq] at hg
  exact ⟨hg.1.1.1, hg.1.1.2, lt_of_le_of_lt hg.1.2 hg.2⟩

/-- The hard-kill delay is a duration below half of the time range. -/
theorem hardKillDelay_of_wf {c : Cfg} (hw : c.wf = true) : c.hardKillDelay < 2 ^ 31 := by
  simp only [Cfg.wf, Cfg.durationsOk, Bool.and_eq_true, decide_eq_true_eq] at hw
  exact hw.2.2

/-- A configured thrust format: its tag, its length, its offsets. -/
theorem format_of_wf {c : Cfg} (hw : c.wf = true) {f : ThrustFormat} (hf : f ∈ c.thrustFormats) :
    f.tag ≠ 0x4B ∧ 1 ≤ f.len ∧ f.len ≤ 8 ∧ f.offsets.Nodup ∧ ∀ k ∈ f.offsets, k ≠ 0 ∧ k.val < f.len := by
  simp only [Cfg.wf, Bool.and_eq_true, List.all_eq_true] at hw
  have h := hw.1.1.1.2 f hf
  simp only [ThrustFormat.wf, ThrustFormat.tagFree, ThrustFormat.lenOk, ThrustFormat.offsetsDistinct,
    ThrustFormat.offsetsInside, Bool.and_eq_true, bne_iff_ne, decide_eq_true_eq, List.all_eq_true] at h
  exact ⟨h.1.1.1, h.1.1.2.1, h.1.1.2.2, h.1.2, h.2⟩

/-- A configured thrust format is the one its tag selects. -/
theorem formatOf_tag_of_wf {c : Cfg} (hw : c.wf = true) {f : ThrustFormat} (hf : f ∈ c.thrustFormats) :
    c.formatOf f.tag = some f := by
  have hn : (c.thrustFormats.map ThrustFormat.tag).Nodup := by
    simp only [Cfg.wf, Cfg.tagsDistinct, Bool.and_eq_true, decide_eq_true_eq] at hw
    exact hw.1.1.2
  unfold Cfg.formatOf
  generalize c.thrustFormats = l at *
  induction l with
  | nil => simp at hf
  | cons a l ih =>
    simp only [List.map_cons, List.nodup_cons] at hn
    rcases List.mem_cons.mp hf with rfl | h
    · simp
    · have hne : a.tag ≠ f.tag := fun e => hn.1 (e ▸ List.mem_map.mpr ⟨f, h, rfl⟩)
      rw [List.find?_cons_of_neg (by simpa using hne)]
      exact ih h hn.2

/-- A frame with a configured format's tag and length decodes by that format. -/
theorem decodeCmd_of_format {c : Cfg} (hw : c.wf = true) {f : ThrustFormat} (hf : f ∈ c.thrustFormats) (d : Payload)
    (ht : d.a0 = f.tag) :
    decodeCmd c f.len d = .thrust (f.cmds d) (d.get f.crOff) (d.get f.hsOff) (d.get f.uaOff) := by
  obtain ⟨h1, h2, h3, -, -⟩ := format_of_wf hw hf
  unfold decodeCmd
  rw [if_neg (by omega), if_neg (by rw [ht]; exact h1), ht, formatOf_tag_of_wf hw hf]
  simp [decodeThrust]

/-- Which commands a thrust frame carries. -/
theorem mem_cmds (f : ThrustFormat) (d : Payload) (ch : Channel) (b : Byte) :
    (ch, b) ∈ f.cmds d ↔ ∃ k, f.speedOff.get ch = some k ∧ b = d.get k := by
  have hmem : ∀ g : Channel, g ∈ Eight.indexes := by decide
  unfold ThrustFormat.cmds
  simp only [List.mem_filterMap, Option.map_eq_some_iff, Prod.mk.injEq]
  constructor
  · rintro ⟨a, -, k, h1, rfl, rfl⟩
    exact ⟨k, h1, rfl⟩
  · rintro ⟨k, h1, rfl⟩
    exact ⟨ch, hmem ch, k, h1, rfl, rfl⟩

/-- A thrust frame carries each channel at most once. -/
theorem cmds_channels_nodup (f : ThrustFormat) (d : Payload) : ((f.cmds d).map Prod.fst).Nodup := by
  have h : (f.cmds d).map Prod.fst = Eight.indexes.filter fun ch => (f.speedOff.get ch).isSome := by
    unfold ThrustFormat.cmds
    generalize Eight.indexes = l
    induction l with
    | nil => rfl
    | cons a l ih =>
      rw [List.filterMap_cons, List.filter_cons]
      cases hk : f.speedOff.get a <;> simp [ih]
  rw [h]
  exact List.Nodup.filter _ (by decide)

end Sys2Proof.Machine
end

