-- ==== Sys2Proof/Laws/Operands.lean ====
section
/-! SUPPORT. Laws of the operand forms: the signed byte, its clamped operand, the range of a width, the polarity filter. -/

namespace Sys2Proof.Machine

/-- `signed(b)` is the two's-complement value of the byte. -/
theorem signedByte_eq_toInt (b : Byte) : signedByte b = b.toInt := by
  unfold signedByte
  rw [BitVec.toInt_eq_toNat_cond]
  split <;> split <;> omega

/-- The clamped operand, from the two's-complement value. -/
theorem speedOperand_eq (b : Byte) : speedOperand b = if b.toInt < -127 then -127 else b.toInt := by
  have h := b.toInt_lt
  unfold speedOperand clamp
  rw [signedByte_eq_toInt]
  split
  · rfl
  · norm_num at h
    rw [if_neg (by omega)]

/-- The clamped operand is one of 255 values. -/
theorem speedOperand_range (b : Byte) : -127 ≤ speedOperand b ∧ speedOperand b ≤ 127 := by
  unfold speedOperand clamp
  split <;> (try split) <;> omega

/-- The width of an operand in range lies between the generator's outer widths. -/
theorem widthAt_range (g : GenParams) (q : Int) (h1 : g.rev ≤ g.neutral) (h2 : g.neutral ≤ g.fwd)
    (hq : -127 ≤ q ∧ q ≤ 127) : g.rev ≤ widthAt g q ∧ widthAt g q ≤ g.fwd := by
  unfold widthAt
  split
  · have h : (g.fwd - g.neutral) * q.toNat / 127 ≤ g.fwd - g.neutral := by
      apply Nat.div_le_of_le_mul
      rw [Nat.mul_comm 127]
      exact Nat.mul_le_mul_left _ (by omega)
    omega
  · have h : (g.neutral - g.rev) * (-q).toNat / 127 ≤ g.neutral - g.rev := by
      apply Nat.div_le_of_le_mul
      rw [Nat.mul_comm 127]
      exact Nat.mul_le_mul_left _ (by omega)
    omega

/-- The neutral register value is the neutral width itself. -/
theorem neutral_toNat {c : Cfg} (hw : c.wf = true) (ch : Channel) : (c.neutral ch).toNat = (c.genOf ch).neutral := by
  obtain ⟨-, h2, h3⟩ := genOf_of_wf hw ch
  unfold Cfg.neutral
  rw [BitVec.toNat_ofNat]
  exact Nat.mod_eq_of_lt (by omega)

/-- One filtered level (spec/42_hall_interlock.md R120). -/
theorem filtered_get (c : Cfg) (raw : PerSensor Bool) (k : Sensor) : (filtered c raw).get k = present c k (raw.get k) := by
  cases k <;> rfl

end Sys2Proof.Machine
end

