-- ==== Sys2Proof/Laws/PerInstr.lean ====
section
/-! SUPPORT. One statement about every instruction as syntax, proved per constructor: its encoding is its row of
spec/opcode_table.json. -/

namespace Sys2Proof.Laws.TableRow

/-- A row of spec/opcode_table.json: the exact payload length, and the mask and match over the payload packed with byte
`k` at bits `[8k+7:8k]` (spec/30_encoding.md R84). -/
structure Row where
  len : Nat
  mask : BitVec 64
  value : BitVec 64
  deriving DecidableEq, Repr

/-- The row of an instruction, copied from spec/opcode_table.json. -/
def row (i : Instr) : Row :=
  match i with
  | .kcha => ⟨5, 0x000000FFFFFFFFFF, 0x000000004148434B⟩
  | .kcsa => ⟨5, 0x000000FFFFFFFFFF, 0x000000004153434B⟩
  | .kchu => ⟨5, 0x000000FFFFFFFFFF, 0x000000005548434B⟩
  | .kcsu => ⟨5, 0x000000FFFFFFFFFF, 0x000000005553434B⟩
  | .thrustH _ _ _ _ _ _ _ => ⟨8, 0x00000000000000FF, 0x0000000000000048⟩
  | .thrustV _ _ _ _ _ _ _ => ⟨8, 0x00000000000000FF, 0x0000000000000056⟩
  | .krha => ⟨5, 0x000000FFFFFFFFFF, 0x000000004148524B⟩
  | .krsa => ⟨5, 0x000000FFFFFFFFFF, 0x000000004153524B⟩
  | .krhu => ⟨5, 0x000000FFFFFFFFFF, 0x000000005548524B⟩
  | .krsu => ⟨5, 0x000000FFFFFFFFFF, 0x000000005553524B⟩
  | .ga => ⟨3, 0x0000000000FFFFFF, 0x0000000000004147⟩
  | .gu => ⟨3, 0x0000000000FFFFFF, 0x0000000000005547⟩

/-- The frame of `i` has its row's length, and its packed payload, under the row's mask, is the row's match. -/
def Statement (i : Instr) : Prop :=
  (encode i).1 = (row i).len ∧ (encode i).2.pack &&& (row i).mask = (row i).value

/-- The low byte of a packed payload is its byte 0. -/
theorem pack_low_byte (p : Payload) : p.pack &&& 0xFF = p.a0.setWidth 64 := by
  apply BitVec.eq_of_getLsbD_eq
  intro k hk
  have hm : ∀ j < 64, (0xFF : BitVec 64).getLsbD j = decide (j < 8) := by decide
  rw [BitVec.getLsbD_and, hm k hk, BitVec.getLsbD_setWidth]
  unfold Payload.pack
  simp only [BitVec.getLsbD_append]
  by_cases h8 : k < 8
  · have h16 : k < 16 := by omega
    have h24 : k < 24 := by omega
    have h32 : k < 32 := by omega
    have h40 : k < 40 := by omega
    have h48 : k < 48 := by omega
    have h56 : k < 56 := by omega
    simp [h8, h16, h24, h32, h40, h48, h56, hk]
  · simp [h8, hk, BitVec.getLsbD_of_ge p.a0 k (by omega)]

theorem kcha : Statement .kcha := ⟨by decide, by decide⟩

theorem kcsa : Statement .kcsa := ⟨by decide, by decide⟩

theorem kchu : Statement .kchu := ⟨by decide, by decide⟩

theorem kcsu : Statement .kcsu := ⟨by decide, by decide⟩

theorem thrustH (s0 s1 s4 s5 cr hs ua : Byte) : Statement (.thrustH s0 s1 s4 s5 cr hs ua) :=
  ⟨rfl, pack_low_byte ⟨0x48, s0, s1, s4, s5, cr, hs, ua⟩⟩

theorem thrustV (s2 s3 s6 s7 cr hs ua : Byte) : Statement (.thrustV s2 s3 s6 s7 cr hs ua) :=
  ⟨rfl, pack_low_byte ⟨0x56, s2, s3, s6, s7, cr, hs, ua⟩⟩

theorem krha : Statement .krha := ⟨by decide, by decide⟩

theorem krsa : Statement .krsa := ⟨by decide, by decide⟩

theorem krhu : Statement .krhu := ⟨by decide, by decide⟩

theorem krsu : Statement .krsu := ⟨by decide, by decide⟩

theorem ga : Statement .ga := ⟨by decide, by decide⟩

theorem gu : Statement .gu := ⟨by decide, by decide⟩

end Sys2Proof.Laws.TableRow
end

