-- ==== Sys2Proof/Laws/Pins.lean ====
section
/-! SUPPORT. What one clock of the pin-level machine can do, said once, and what running the rest of a cycle means. -/

namespace Sys2Proof.Machine

/-- What the acceptance of a stimulus means. -/
theorem accepting_spec {p : PinState} {i : PinIn} {src : Source} {t : Time} {st : Stimulus}
    (h : accepting p i = some (src, t, st)) :
    p.core.busy = false ∧ (∃ rest, p.ordq = (src, t) :: rest) ∧ offered i src t = some st := by
  unfold accepting at h
  split at h
  · cases h
  · next hb =>
    split at h
    · cases h
    · next src' t' rest hq =>
      cases ho : offered i src' t' with
      | none => rw [ho] at h; cases h
      | some x =>
        rw [ho] at h
        cases h
        exact ⟨by simpa using hb, ⟨_, hq⟩, ho⟩

/-- Nothing is accepted in the middle of a cycle. -/
theorem accepting_busy {p : PinState} {i : PinIn} (h : p.core.busy = true) : accepting p i = none := by
  unfold accepting
  rw [h]
  rfl

/-- A clock in the middle of a cycle. -/
theorem clock_busy {p : PinState} {i : PinIn} (h : p.core.busy = true) (hr : i.rst = false) :
    clock p i = { advance p i with ordq := p.ordq ++ newEntries p.ordq i } := by
  unfold clock
  rw [hr, accepting_busy h, h]
  rfl

/-- A clock that accepts a stimulus. -/
theorem clock_accept {p : PinState} {i : PinIn} {src : Source} {t : Time} {st : Stimulus} (hr : i.rst = false)
    (h : accepting p i = some (src, t, st)) :
    clock p i =
      { core := (intake st (p.core.beginCycle t)).1, plan := (intake st (p.core.beginCycle t)).2, delayFrom := none,
        ordq := p.ordq.tail ++ newEntries p.ordq i } := by
  unfold clock
  rw [hr, h]
  rfl

/-- Accepting a stimulus leaves `busy` as it was set. -/
theorem intake_busy (st : Stimulus) (s : State) : (intake st s).1.busy = s.busy := by
  cases st with
  | rxFrame f t =>
    simp only [intake]
    split
    · split <;> rfl
    · rfl
  | hallSample raw t => rfl
  | wdTick t => rfl
  | statusTick t => rfl

theorem runPlan_acts (as : List Action) (rest : List Micro) (s : State) :
    runPlan (as.map Micro.act ++ rest) s = runPlan rest (s.emitAll as) := by
  induction as generalizing s with
  | nil => rfl
  | cons a as ih =>
    simp only [List.map_cons, List.cons_append, runPlan, ih]
    rfl

/-- The micro-operations of a transition run the transition. -/
theorem runPlan_micros (tr : Transition) (rest : List Micro) (s : State) :
    runPlan (tr.micros ++ rest) s = runPlan rest (s.take tr) := by
  unfold Transition.micros
  rw [List.append_assoc, runPlan_acts]
  rfl

theorem runPlan_feeds (es : List Event) (s : State) : runPlan (es.map Micro.feed) s = (s.feedAll es).endCycle := by
  induction es generalizing s with
  | nil => rfl
  | cons e es ih => exact ih _

/-- The plan made at acceptance runs the stimulus's handler. -/
theorem runPlan_intake (st : Stimulus) (s : State) :
    runPlan (intake st s).2 (intake st s).1 = (afterStim st s).endCycle := by
  cases st with
  | rxFrame f t =>
    simp only [intake, afterStim, afterRx]
    split
    · cases decodeCmd s.cfg f.len.toNat f.data <;> rfl
    · rfl
  | hallSample raw t => exact runPlan_feeds _ _
  | wdTick t =>
    simp only [intake, afterStim, handleWdTick]
    split <;> rfl
  | statusTick t =>
    have h := runPlan_acts ((refreshList s).map (txStatus s.cfg)) [] s
    rw [List.map_map, List.append_nil] at h
    exact h

/-- A source offers a stimulus exactly while its valid is 1, whatever time the entry recorded. -/
theorem offered_isSome (i : PinIn) (src : Source) (t : Time) : (offered i src t).isSome = i.valid src := by
  cases src with
  | hall => simp [offered, PinIn.valid]
  | rx => simp [offered, PinIn.valid]
  | wdTick => cases h : i.wdTick <;> simp [offered, PinIn.valid, h]
  | statusTick => cases h : i.statusTick <;> simp [offered, PinIn.valid, h]

/-- The acks of a clock in the middle of a cycle, by what is next in the plan. -/
theorem clockAcks_busy {p : PinState} {i : PinIn} (hb : p.core.busy = true) (hr : i.rst = false) :
    clockAcks p i = match p.plan with
      | .act (.pwmSet _ _) :: _ => if i.pwmSetReady then [i.pwmSetOk] else []
      | .act (.tx _) :: _ => if i.txReady then [i.txOk] else []
      | _ => [] := by
  unfold clockAcks
  simp only [pinOut, txOffer, pwmSetOffer, hr, hb]
  rcases p.plan with _ | ⟨m, rest⟩
  · rfl
  · rcases m with a | k | e
    · cases a <;> simp
    · rfl
    · rfl

/-- All that a clock can do in the middle of a cycle: the state it leaves and the acks it samples. -/
inductive Advances (p : PinState) : PinState → List Bool → Prop where
  /-- A stalled clock, an offer not taken, or a delay not over. -/
  | wait : Advances p p []
  /-- The end of the cycle. -/
  | close (hp : p.plan = []) : Advances p { p with core := p.core.endCycle } []
  /-- An event is fed. -/
  | feed (e : Event) (rest : List Micro) (hp : p.plan = .feed e :: rest) :
      Advances p { p with plan := (fsm p.core.cfg p.core.ks p.core.hallLast e).micros ++ rest } []
  /-- The kill state is committed. -/
  | commit (k : KillState) (rest : List Micro) (hp : p.plan = .commit k :: rest) :
      Advances p { p with core := { p.core with ks := k }, plan := rest } []
  /-- An action without a result. -/
  | plain (a : Action) (rest : List Micro) (hp : p.plan = .act a :: rest) (ha : a.hasAck = false)
      (hd : ∀ d, a ≠ .delay d) : Advances p { p with core := p.core.apply a, plan := rest } []
  /-- An action with a result, on its transfer. -/
  | acked (a : Action) (rest : List Micro) (ok : Bool) (hp : p.plan = .act a :: rest) (ha : a.hasAck = true) :
      Advances p { p with core := (p.core.apply a).noteAck ok, plan := rest } [ok]
  /-- A delay begins at `t0`. -/
  | delayBegins (d : Nat) (rest : List Micro) (t0 : Time) (hp : p.plan = .act (.delay d) :: rest)
      (hd : p.delayFrom = none) :
      Advances p { p with core := p.core.apply (.delay d), delayFrom := some t0 } []
  /-- A delay that began at `t0` is over. -/
  | delayEnds (d : Nat) (rest : List Micro) (t0 : Time) (hp : p.plan = .act (.delay d) :: rest)
      (hd : p.delayFrom = some t0) : Advances p { p with delayFrom := none, plan := rest } []

/-- A clock in the middle of a cycle does one of these, and samples the acks said there. -/
theorem advance_spec {p : PinState} {i : PinIn} (hb : p.core.busy = true) (hr : i.rst = false) :
    Advances p (advance p i) (clockAcks p i) := by
  rw [clockAcks_busy hb hr]
  unfold advance
  split
  case h_1 hp =>
    have h := Advances.close hp
    simp only [hp] at h ⊢
    cases i.stall
    · exact h
    · exact .wait
  case h_2 e rest hp =>
    simp only [hp]
    cases i.stall
    · exact .feed e rest hp
    · exact .wait
  case h_3 k rest hp =>
    simp only [hp]
    cases i.stall
    · exact .commit k rest hp
    · exact .wait
  case h_4 ch w rest hp =>
    simp only [hp]
    cases i.pwmSetReady
    · exact .wait
    · exact .acked _ rest _ hp rfl
  case h_5 f rest hp =>
    simp only [hp]
    cases i.txReady
    · exact .wait
    · exact .acked _ rest _ hp rfl
  case h_6 d rest hp =>
    simp only [hp]
    split
    · next hd =>
      have h := Advances.delayBegins d rest i.now hp hd
      simp only [hp] at h
      cases i.stall
      · exact h
      · exact .wait
    · next t0 hd =>
      split
      · exact .wait
      · exact .delayEnds d rest t0 hp hd
  case h_7 b rest hp =>
    simp only [hp]
    cases i.stall
    · exact .plain _ rest hp rfl nofun
    · exact .wait
  case h_8 b rest hp =>
    simp only [hp]
    cases i.stall
    · exact .plain _ rest hp rfl nofun
    · exact .wait
  case h_9 b rest hp =>
    simp only [hp]
    cases i.stall
    · exact .plain _ rest hp rfl nofun
    · exact .wait

end Sys2Proof.Machine
end

