-- ==== Sys2Proof/Tests/Slice0.lean ====
section
/-! SUPPORT. Tests. Expected values are those of spec/95_test_vectors.md (the vector is named at each test) or written out
from the encoding tables of spec/30_encoding.md. After them, one witness for every statement that has hypotheses. -/

namespace Sys2Proof.Tests

open Sys2Proof Sys2Proof.Machine

/-! Well-formedness: for each check a configuration that only this check refuses. -/

/-- The reference configuration with one generator's constants replaced. -/
def cfgWithGen (g : GenParams) : Cfg := { Cfg.reference with gens := Cfg.reference.gens.set 5 g }

/-- The reference configuration with one thrust format instead of two. -/
def cfgWithFormat (f : ThrustFormat) : Cfg := { Cfg.reference with thrustFormats := [f] }

theorem test_wf_reference : Cfg.reference.wf = true := by decide

theorem test_wf_ids_overlap :
    let c := { Cfg.reference with cmdIds := [0x10, 0x20] }
    c.idsDisjoint = false ∧ c.wf = false := by decide

theorem test_wf_tag_is_kill_class :
    let f := { ThrustFormat.h with tag := 0x4B }
    f.tagFree = false ∧ (cfgWithFormat f).wf = false := by decide

theorem test_wf_len_is_nine :
    let f := { ThrustFormat.h with len := 9 }
    f.lenOk = false ∧ (cfgWithFormat f).wf = false := by decide

theorem test_wf_offset_repeated :
    let f := { ThrustFormat.h with hsOff := 5 }
    f.offsetsDistinct = false ∧ (cfgWithFormat f).wf = false := by decide

theorem test_wf_offset_zero :
    let f := { ThrustFormat.h with uaOff := 0 }
    f.offsetsInside = false ∧ (cfgWithFormat f).wf = false := by decide

theorem test_wf_offset_beyond_len :
    let f := { ThrustFormat.h with len := 7 }
    f.offsetsInside = false ∧ (cfgWithFormat f).wf = false := by decide

theorem test_wf_tags_repeated :
    let c := { Cfg.reference with thrustFormats := [ThrustFormat.h, { ThrustFormat.v with tag := 0x48 }] }
    c.tagsDistinct = false ∧ c.wf = false := by decide

theorem test_wf_neutral_below_reverse :
    (cfgWithGen ⟨1501, 1500, 1900, 2000⟩).gensOk = false ∧ (cfgWithGen ⟨1501, 1500, 1900, 2000⟩).wf = false := by decide

theorem test_wf_forward_below_neutral :
    (cfgWithGen ⟨1100, 1500, 1499, 2000⟩).gensOk = false ∧ (cfgWithGen ⟨1100, 1500, 1499, 2000⟩).wf = false := by decide

theorem test_wf_period_below_forward :
    (cfgWithGen ⟨1100, 1500, 1900, 1899⟩).gensOk = false ∧ (cfgWithGen ⟨1100, 1500, 1900, 1899⟩).wf = false := by decide

theorem test_wf_period_too_wide :
    (cfgWithGen ⟨1100, 1500, 1900, 65536⟩).gensOk = false ∧ (cfgWithGen ⟨1100, 1500, 1900, 65536⟩).wf = false := by
  decide

theorem test_wf_timeout_too_long :
    let c := { Cfg.reference with wdTimeout := 2147483648 }
    c.durationsOk = false ∧ c.wf = false := by decide

theorem test_wf_delay_too_long :
    let c := { Cfg.reference with hardKillDelay := 2147483648 }
    c.durationsOk = false ∧ c.wf = false := by decide

/-! Decoding: every row's word, written out from spec/30_encoding.md R71, R72, R75 (vectors DC1 to DC4, DC17, DC19, E1 to
E6), byte 0 in bits 7..0. -/

theorem test_word_kcha : decodeTableWord 40 0x004148434B = some .kcha := by decide
theorem test_word_kcsa : decodeTableWord 40 0x004153434B = some .kcsa := by decide
theorem test_word_kchu : decodeTableWord 40 0x005548434B = some .kchu := by decide
theorem test_word_kcsu : decodeTableWord 40 0x005553434B = some .kcsu := by decide
theorem test_word_thrust_h :
    decodeTableWord 64 0x0706050403020148 = some (.thrustH 1 2 3 4 5 6 7) := by decide
theorem test_word_thrust_v :
    decodeTableWord 64 0x070809007F80FF56 = some (.thrustV 0xFF 0x80 0x7F 0x00 9 8 7) := by decide
theorem test_word_krha : decodeTableWord 40 0x004148524B = some .krha := by decide
theorem test_word_krsa : decodeTableWord 40 0x004153524B = some .krsa := by decide
theorem test_word_krhu : decodeTableWord 40 0x005548524B = some .krhu := by decide
theorem test_word_krsu : decodeTableWord 40 0x005553524B = some .krsu := by decide
theorem test_word_ga : decodeTableWord 24 0x004147 = some .ga := by decide
theorem test_word_gu : decodeTableWord 24 0x005547 = some .gu := by decide

/-- Vectors DC17 and DC19: channels, bytes and auxiliary bytes. -/
theorem test_decode_thrust_frames :
    decodeCmd Cfg.reference 8 ⟨0x48, 1, 2, 3, 4, 5, 6, 7⟩ = .thrust [(0, 1), (1, 2), (4, 3), (5, 4)] 5 6 7 ∧
      decodeCmd Cfg.reference 8 ⟨0x56, 0xFF, 0x80, 0x7F, 0, 9, 8, 7⟩ =
        .thrust [(2, 0xFF), (3, 0x80), (6, 0x7F), (7, 0)] 9 8 7 := by decide

/-- Vectors DC5 to DC16, DC18, DC20: all `Unrecognized`. -/
theorem test_decode_unrecognized :
    ([(4, ⟨0x4B, 0x43, 0x48, 0x41, 0, 0, 0, 0⟩), (6, ⟨0x4B, 0x43, 0x48, 0x41, 0, 0, 0, 0⟩),
      (8, ⟨0x4B, 0x43, 0x48, 0x41, 0, 0, 0, 0⟩), (5, ⟨0x4B, 0x43, 0x48, 0x41, 1, 0, 0, 0⟩),
      (5, ⟨0x6B, 0x63, 0x68, 0x61, 0, 0, 0, 0⟩), (5, ⟨0x4B, 0x43, 0x48, 0x42, 0, 0, 0, 0⟩),
      (5, ⟨0x4B, 0x52, 0x48, 0x41, 0, 0, 0, 0⟩), (3, ⟨0x47, 0x41, 0, 0, 0, 0, 0, 0⟩),
      (0, ⟨0x4B, 0x43, 0x48, 0x41, 0, 0, 0, 0⟩), (9, ⟨0x4B, 0x43, 0x48, 0x41, 0, 0, 0, 0⟩),
      (1, ⟨0x4B, 0, 0, 0, 0, 0, 0, 0⟩), (1, ⟨0x48, 0, 0, 0, 0, 0, 0, 0⟩), (7, ⟨0x48, 1, 2, 3, 4, 5, 6, 0⟩),
      (8, ⟨0x49, 1, 2, 3, 4, 5, 6, 7⟩)] : List (Nat × Payload)).all
      (fun x => decide (decodeCmd Cfg.reference x.1 x.2 = .unrecognized)) = true := by decide

/-- Vectors RT7, RT8: a command and an unknown literal are no status frames. -/
theorem test_decode_status_unrecognized :
    decodeStatus 5 ⟨0x4B, 0x43, 0x48, 0x41, 0, 0, 0, 0⟩ = none ∧
      decodeStatus 3 ⟨0x47, 0x42, 0, 0, 0, 0, 0, 0⟩ = none := by decide

/-! The mapper. -/

/-- Vectors M1 to M18. -/
theorem test_map_reference :
    ([0x00, 0x01, 0x02, 0x20, 0x3F, 0x40, 0x64, 0x7E, 0x7F, 0x80, 0x81, 0x82, 0x9C, 0xC0, 0xC1, 0xE0, 0xFE, 0xFF].map
      (mapWidth Cfg.reference 3)) =
      [1500, 1503, 1506, 1600, 1698, 1701, 1814, 1896, 1900, 1100, 1100, 1104, 1186, 1299, 1302, 1400, 1494, 1497] := by
  decide

/-- Vectors M19 to M26: the asymmetric generator, here that of channel 2 only. -/
theorem test_map_asymmetric :
    let c := { Cfg.reference with gens := Cfg.reference.gens.set 1 ⟨1000, 1500, 1800, 2000⟩ }
    [0x00, 0x01, 0x40, 0x7F, 0x80, 0x81, 0xC0, 0xFF].map (mapWidth c 2) =
      [1500, 1502, 1651, 1800, 1000, 1000, 1249, 1497] ∧ mapWidth c 1 0x7F = 1900 := by decide

/-! The meanings. The states are `RESET`, `RUN`, `SK` and `RUN0` of the vectors, with acks all true. -/

/-- `RESET` with sixteen acks of `b` to come. -/
def resetAcks (b : Bool) : State := { State.reset with acks := List.replicate 16 b }

/-- `RUN`. -/
def run : State := { resetAcks true with ks := .running, pwmEn := true, thrPwr := true, mainPwr := true }

/-- `SK`. -/
def sk : State := { resetAcks true with ks := .softKilled, mainPwr := true }

/-- `RUN0`. -/
def run0 : State := { run with thrPwr := false, hallLast := ⟨false, true, true⟩ }

/-- `s` at arrival time `t`. -/
def at_ (s : State) (t : Time) : State := { s with arrival := t }

/-- `s` with one stimulus pending. -/
def pending (s : State) (st : Stimulus) : State := { s with ordq := [st] }

/-- A frame on the reference command identifier. -/
def rx (len : BitVec 4) (d : Payload) : Frame := ⟨0x10, len, d⟩

/-- `rx.KCHA`, `rx.KCSA`, `rx.KCHU`. -/
def rxKcha : Frame := rx 5 ⟨0x4B, 0x43, 0x48, 0x41, 0, 0, 0, 0⟩
/-- `rx.KCSA`. -/
def rxKcsa : Frame := rx 5 ⟨0x4B, 0x43, 0x53, 0x41, 0, 0, 0, 0⟩
/-- `rx.KCHU`. -/
def rxKchu : Frame := rx 5 ⟨0x4B, 0x43, 0x48, 0x55, 0, 0, 0, 0⟩

/-- The next state of an outcome (the state after reset if there is none). -/
def got (o : Host.Outcome State Fault Refusal) : State :=
  match o with
  | .next s => s
  | .fault _ => State.reset
  | .refused _ => State.reset

/-- Eight pulse-width writes of 1500. -/
def stop1500 : List Action := [0, 1, 2, 3, 4, 5, 6, 7].map fun ch => .pwmSet ch 1500

/-- `HK`. -/
def hk : List Action :=
  stop1500 ++ [.pwmEnable false, .thrusterPower false, .tx ⟨0x20, 5, ⟨0x4B, 0x52, 0x53, 0x41, 0, 0, 0, 0⟩⟩, .delay 500,
    .mainPower false, .tx ⟨0x20, 5, ⟨0x4B, 0x52, 0x48, 0x41, 0, 0, 0, 0⟩⟩]

/-- `SKT`. -/
def skt : List Action :=
  stop1500 ++ [.pwmEnable false, .thrusterPower false, .tx ⟨0x20, 5, ⟨0x4B, 0x52, 0x53, 0x41, 0, 0, 0, 0⟩⟩]

/-- Scenario S6, vector F19. -/
theorem test_kcha_running :
    let u := got (exec .kcha (at_ { run with pw := run.pw.set 0 1900 } 400))
    u.trace = hk ∧ u.ks = .hardKilled ∧ u.pw = Eight.const 1500 ∧ u.pwmEn = false ∧ u.thrPwr = false ∧
      u.mainPwr = false ∧ u.wdLast = 400 := by decide

/-- Vectors F1, X1: the sequence runs again in `HardKilled`; failing acks change `last_ok` only. -/
theorem test_kcha_hard_killed_acks_fail :
    let u := got (step (pending (resetAcks false) (.rxFrame rxKcha 400)))
    u.trace = hk ∧ u.ks = .hardKilled ∧ u.lastOk = false ∧ u.acks.length = 6 := by decide

/-- Vector F22. -/
theorem test_kcsa_running :
    let u := got (exec .kcsa { run with pw := run.pw.set 5 1701 })
    u.trace = skt ∧ u.ks = .softKilled ∧ u.pw = Eight.const 1500 ∧ u.pwmEn = false ∧ u.thrPwr = false ∧
      u.mainPwr = true := by decide

/-- Vector W11: ignored, yet the watchdog is refreshed. -/
theorem test_kcsa_soft_killed : got (exec .kcsa (at_ sk 1234)) = { at_ sk 1234 with wdLast := 1234 } := by decide

/-- Vector F3. -/
theorem test_kchu_reset :
    let u := got (exec .kchu (at_ (resetAcks true) 100))
    u.trace = [.mainPower true, .thrusterPower true] ++ stop1500 ++ [.pwmEnable true] ∧ u.ks = .running ∧
      u.wdLast = 100 ∧ u.mainPwr = true ∧ u.thrPwr = true ∧ u.pwmEn = true := by decide

/-- Vector F12. -/
theorem test_kchu_soft_killed : got (exec .kchu (at_ sk 9)) = { at_ sk 9 with wdLast := 9 } := by decide

/-- Vector F17c: the soft-kill magnet is not in the guard; `thr_pwr` stays 0. -/
theorem test_kcsu_guard_holds :
    let u := got (exec .kcsu { sk with hallLast := ⟨true, true, true⟩ })
    u.trace = [.pwmEnable true, .tx ⟨0x20, 5, ⟨0x4B, 0x52, 0x53, 0x55, 0, 0, 0, 0⟩⟩] ∧ u.ks = .running ∧
      u.pwmEn = true ∧ u.thrPwr = false ∧ u.mainPwr = true := by decide

/-- Vector F17b: three failing guards. -/
theorem test_kcsu_guard_fails :
    [(⟨false, false, true⟩ : Hall), ⟨false, true, false⟩, ⟨false, false, false⟩].all
      (fun h => decide ((got (exec .kcsu { sk with hallLast := h })).ks = .softKilled ∧
        (got (exec .kcsu { sk with hallLast := h })).trace = [])) = true := by decide

/-- Program P1, step 2 (vector F27). -/
theorem test_thrust_h_running :
    let u := got (exec (.thrustH 0x7F 0x00 0x81 0x40 0xAA 0x05 0x00) (at_ run 200))
    u.trace = [.pwmSet 0 1900, .pwmSet 1 1500, .pwmSet 4 1100, .pwmSet 5 1701] ∧
      u.pw = ⟨1900, 1500, 1500, 1500, 1100, 1701, 1500, 1500⟩ ∧ u.wdLast = 200 ∧
      u.diagCr = 0xAA ∧ u.diagHs = 5 ∧ u.diagUa = 0 := by decide

/-- Vector DC24: ignored in `SoftKilled`, diagnostics and watchdog written. -/
theorem test_thrust_h_soft_killed :
    got (exec (.thrustH 0x7F 0x7F 0x7F 0x7F 0x11 0x22 0x33) (at_ sk 500)) =
      { at_ sk 500 with wdLast := 500, diagCr := 0x11, diagHs := 0x22, diagUa := 0x33 } := by decide

/-- Program P1, step 3. -/
theorem test_thrust_v_running :
    let u := got (exec (.thrustV 0xC0 0x01 0xFF 0x80 0xAB 0x06 0x01) (at_ run 300))
    u.trace = [.pwmSet 2 1299, .pwmSet 3 1503, .pwmSet 6 1497, .pwmSet 7 1100] ∧
      u.pw = ⟨1500, 1500, 1299, 1503, 1500, 1500, 1497, 1100⟩ := by decide

/-- The packed frame of the last action, if it is a transmission: identifier, length, `tx_data`. -/
def lastTx (s : State) : Option (CanId × BitVec 4 × BitVec 64) :=
  match s.trace.getLast? with
  | some (.tx f) => some (f.id, f.len, f.data.pack)
  | some (.pwmSet _ _) => none
  | some (.pwmEnable _) => none
  | some (.thrusterPower _) => none
  | some (.mainPower _) => none
  | some (.delay _) => none
  | none => none

/-- Vector E1. -/
theorem test_krha : lastTx (got (exec .krha run)) = some (0x20, 5, 0x000000004148524B) := by decide
/-- Vector E2. -/
theorem test_krsa : lastTx (got (exec .krsa run)) = some (0x20, 5, 0x000000004153524B) := by decide
/-- Vector E3. -/
theorem test_krhu : lastTx (got (exec .krhu run)) = some (0x20, 5, 0x000000005548524B) := by decide
/-- Vector E4. -/
theorem test_krsu : lastTx (got (exec .krsu run)) = some (0x20, 5, 0x000000005553524B) := by decide
/-- Vector E5. -/
theorem test_ga : lastTx (got (exec .ga run)) = some (0x20, 3, 0x0000000000004147) := by decide
/-- Vector E6. -/
theorem test_gu : lastTx (got (exec .gu run)) = some (0x20, 3, 0x0000000000005547) := by decide

/-! The step on stimuli that are no frames. -/

/-- `RUN` with the go and on/off magnets last seen present. -/
def runArmed : State := { run with hallLast := ⟨false, true, true⟩ }

/-- The reference configuration with all three pins active low. -/
def cfgLow : Cfg := { Cfg.reference with actLevel := ⟨.activeLow, .activeLow, .activeLow⟩ }

/-- Vectors HL9 and HL8: three events make one hard kill, two events one soft kill. -/
theorem test_hall_kills_once :
    (got (step (pending runArmed (.hallSample ⟨true, false, false⟩ 200)))).trace = hk ∧
      (got (step (pending runArmed (.hallSample ⟨true, false, true⟩ 200)))).trace = skt := by decide

/-- Vectors HL10 and HL13: no edge without a present sample before; active-low pins. -/
theorem test_hall_edge_and_polarity :
    (got (step (pending run (.hallSample ⟨false, true, false⟩ 200)))).trace = [] ∧
      (got (step (pending { runArmed with cfg := cfgLow } (.hallSample ⟨true, false, true⟩ 200)))).trace = hk := by
  decide

/-- Vectors W2 and W3: the comparison is strict. -/
theorem test_watchdog_strict :
    (got (step (pending { run with wdLast := 1000 } (.wdTick 3000)))).trace = [] ∧
      (got (step (pending { run with wdLast := 1000 } (.wdTick 3001)))).trace = skt := by decide

/-- Vectors W5 and W6: a wrap of `now` between record and tick. -/
theorem test_watchdog_wrap :
    (got (step (pending { run with wdLast := 0xFFFFFF00 } (.wdTick 1744)))).ks = .running ∧
      (got (step (pending { run with wdLast := 0xFFFFFF00 } (.wdTick 2000)))).ks = .softKilled := by decide

/-- The `STATUS_REFRESH` of vector ST2 as a table. -/
def refreshST2 : PerKill (Eight (List StatusEvent)) :=
  let go (l : List StatusEvent) : Eight (List StatusEvent) :=
    ⟨l ++ [.goUnasserted], l ++ [.goUnasserted], l ++ [.goAsserted], l ++ [.goAsserted],
      l ++ [.goUnasserted], l ++ [.goUnasserted], l ++ [.goAsserted], l ++ [.goAsserted]⟩
  ⟨go [.hardKilled], go [.softKilled], go []⟩

/-- `s` under the `STATUS_REFRESH` of vector ST2. -/
def st2 (s : State) : State := { s with cfg := { s.cfg with statusRefresh := refreshST2 } }

/-- Vector ST2. -/
theorem test_status_tick :
    (got (step (pending (st2 (resetAcks true)) (.statusTick 1000)))).trace =
      [.tx ⟨0x20, 5, ⟨0x4B, 0x52, 0x48, 0x41, 0, 0, 0, 0⟩⟩, .tx ⟨0x20, 3, ⟨0x47, 0x55, 0, 0, 0, 0, 0, 0⟩⟩] ∧
    (got (step (pending (st2 run0) (.statusTick 1000)))).trace = [.tx ⟨0x20, 3, ⟨0x47, 0x41, 0, 0, 0, 0, 0, 0⟩⟩] := by
  decide

/-- Vectors DC21 and DC22: filtered and unrecognised frames. -/
theorem test_dropped_frames :
    (got (step (pending { run with wdLast := 100 } (.rxFrame { rxKcsa with id := 0x11 } 500)))).wdLast = 100 ∧
      (got (step (pending { run with wdLast := 100 }
        (.rxFrame (rx 5 ⟨0x4B, 0x43, 0x58, 0x58, 0, 0, 0, 0⟩) 500)))).wdLast = 100 := by decide

/-- An ill-formed configuration is refused (spec/93_implementation_defined.md U1). -/
theorem test_ill_formed_refused :
    step { State.reset with cfg := { Cfg.reference with wdTimeout := 2147483648 } } = .refused .illFormedConfig := rfl

/-! The pin level. -/

/-- A clock on which nothing happens. -/
def quiet : PinIn :=
  { rst := false, now := 7, rx := none, hall := none, wdTick := false, statusTick := false, txReady := false,
    txOk := false, pwmSetReady := false, pwmSetOk := false, stall := false }

/-- A clock with a watchdog tick offered. -/
def tickIn : PinIn := { quiet with wdTick := true }

/-- A clock with all four sources valid. -/
def allIn : PinIn :=
  { tickIn with rx := some (toPort rxKcha), hall := some 0b010, statusTick := true }

/-- spec/10_state.md R37: a tick is queued on its first clock with the value of `now`, and taken on a later one. -/
theorem test_pin_queue_then_ready :
    (clock PinState.reset tickIn).ordq = [(.wdTick, 7)] ∧
      (pinOut PinState.reset tickIn).wdTickReady = false ∧
      (pinOut (clock PinState.reset tickIn) tickIn).wdTickReady = true ∧
      (clock (clock PinState.reset tickIn) tickIn).core.busy = true := by decide

/-- spec/10_state.md R36: `hall_raw` bit 0 soft, bit 1 go, bit 2 on/off; `rx_data` byte `k` at bits `[8k+7:8k]`. -/
theorem test_pin_ports :
    offered allIn .hall 3 = some (.hallSample ⟨false, true, false⟩ 3) ∧
      offered { quiet with rx := some ⟨0x10, 5, 0x000000004148434B⟩ } .rx 3 = some (.rxFrame rxKcha 3) := by decide

/-! Witnesses: for every statement with hypotheses a concrete state and operands that meet them, for each of its cases at a
boundary. -/

theorem witness_DecodeOfEncodeIsInstruction :
    Cfg.reference.wf = true ∧ ThrustFormat.h ∈ Cfg.reference.thrustFormats ∧
      ThrustFormat.v ∈ Cfg.reference.thrustFormats := by decide

theorem witness_DecodedFrameIsTheRowsFrame :
    Cfg.reference.wf = true ∧ decodeRow Cfg.reference 5 rxKcha.data = .ok .kcha := ⟨by decide, rfl⟩

/-- A format of five bytes that carries channel 3 alone, and a configuration with it: no row of the table. -/
def oneChannel : ThrustFormat :=
  { tag := 0x54, len := 5, speedOff := ⟨none, none, none, some 4, none, none, none, none⟩, crOff := 1, hsOff := 3,
    uaOff := 2 }

theorem witness_ThrustFormatRoundTrip :
    (cfgWithFormat oneChannel).wf = true ∧ oneChannel ∈ (cfgWithFormat oneChannel).thrustFormats := by decide

theorem witness_LengthGuardAndUnreadBytes :
    Cfg.reference.wf = true ∧ (0 = 0 ∨ 8 < 0) ∧ (9 = 0 ∨ 8 < 9) ∧
      rxKcha.data.bytes.take 5 = (Payload.bytes ⟨0x4B, 0x43, 0x48, 0x41, 0, 1, 2, 9⟩).take 5 := by decide

theorem witness_KillLiteralMatchIsExact : ∀ k, decodeKill 4 rxKcha.data ≠ .killCommand k := by
  intro k; cases k <;> decide

theorem witness_RecognisedExactlyIfARow : Cfg.reference.wf = true ∧ (cfgWithFormat oneChannel).wf = true := by decide

theorem witness_StatusRoundTripAndDisjointVocabularies : Cfg.reference.wf = true := by decide

theorem witness_MapStaysInRangeWithoutOverflow : (cfgWithGen ⟨0, 0, 65535, 65535⟩).wf = true := by decide

theorem witness_MapHitsNeutralAndEndPoints : (cfgWithGen ⟨1500, 1500, 1500, 1500⟩).wf = true := by decide

theorem witness_MapIsMonotone :
    Cfg.reference.wf = true ∧ (0x80 : Byte).toInt ≤ (0x81 : Byte).toInt ∧
      (0xFF : Byte).toInt ≤ (0x00 : Byte).toInt := by decide

theorem witness_MapIsRoundedInterpolation :
    Cfg.reference.wf = true ∧ 0 ≤ (0x00 : Byte).toInt ∧ (0xFF : Byte).toInt < 0 := by decide

theorem witness_HardKillRunsInEveryState :
    (Event.hardKillRequest = .hardKillRequest ∨ Event.hardKillRequest = .onOffMagnetRemoved) ∧
      (Event.onOffMagnetRemoved = .hardKillRequest ∨ Event.onOffMagnetRemoved = .onOffMagnetRemoved) := by decide

theorem witness_HardUnkillRunsInHardKilled :
    State.reset.ks = .hardKilled ∧ sk.ks ≠ .hardKilled ∧ run.ks ≠ .hardKilled := by decide

theorem witness_SoftKillRunsInRunning :
    run.ks = .running ∧ sk.ks ≠ .running ∧ [Event.softKillRequest, .softKillMagnetAsserted, .goMagnetDeasserted, .commandTimeout].all
      (fun e => decide (e = .softKillRequest ∨ e = .softKillMagnetAsserted ∨ e = .goMagnetDeasserted ∨
        e = .commandTimeout)) = true := by decide

/-- `SK` with both magnets of the guard present. -/
def skArmed : State := { sk with hallLast := ⟨false, true, true⟩ }

theorem witness_SoftUnkillRunsUnderItsGuard :
    (skArmed.ks = .softKilled ∧ skArmed.hallLast.go = true ∧ skArmed.hallLast.onoff = true) ∧
      (sk.ks = .softKilled ∧ ¬(sk.hallLast.go = true ∧ sk.hallLast.onoff = true)) := by decide

theorem witness_ThrustAppliesInRunning :
    run.ks = .running ∧ (([(0, 0x7F), (7, 0x80)] : List ThrustCmd).map Prod.fst).Nodup ∧
      ((7, 0x80) : ThrustCmd) ∈ ([(0, 0x7F), (7, 0x80)] : List ThrustCmd) ∧
      (([(0, 0x7F), (7, 0x80)] : List ThrustCmd).all fun p => p.1 != 3) = true := by decide

theorem witness_IgnoredCellsChangeNothing :
    (sk.ks ≠ .hardKilled ∧ run.ks ≠ .hardKilled) ∧ (sk.ks ≠ .running ∧ State.reset.ks ≠ .running) ∧
      (run.ks ≠ .softKilled ∧ State.reset.ks ≠ .softKilled ∧ sk.hallLast.go = false ∧
        { sk with hallLast := ⟨false, true, false⟩ }.hallLast.onoff = false) := by decide

theorem witness_KillStateLaws :
    State.reset.ks = .hardKilled ∧ State.reset.ks ≠ .running ∧ skArmed.ks ≠ .running := by decide

theorem witness_KcsaSoftKillsInRunning : run.ks = .running ∧ sk.ks ≠ .running := by decide

theorem witness_KchuHardUnkillsInHardKilled : State.reset.ks = .hardKilled ∧ run.ks ≠ .hardKilled := by decide

theorem witness_KcsuSoftUnkillsUnderGuard :
    (skArmed.ks = .softKilled ∧ skArmed.hallLast.go = true ∧ skArmed.hallLast.onoff = true) ∧
      ¬(sk.ks = .softKilled ∧ sk.hallLast.go = true ∧ sk.hallLast.onoff = true) ∧
      ¬(runArmed.ks = .softKilled ∧ runArmed.hallLast.go = true ∧ runArmed.hallLast.onoff = true) := by decide

theorem witness_ThrustHAppliesFourChannels : run.ks = .running ∧ sk.ks ≠ .running := by decide

theorem witness_ThrustVAppliesFourChannels : run.ks = .running ∧ State.reset.ks ≠ .running := by decide

theorem witness_StatusFramesTransmitAndWriteNothing :
    (Instr.gu, specGU run.cfg) ∈ [(Instr.krha, specKRHA run.cfg), (.krsa, specKRSA run.cfg), (.krhu, specKRHU run.cfg),
      (.krsu, specKRSU run.cfg), (.ga, specGA run.cfg), (.gu, specGU run.cfg)] := by decide

/-- `STATUS_REFRESH` answers `[GoAsserted]` everywhere. -/
def refreshGo : State :=
  { run with cfg := { Cfg.reference with
      statusRefresh := ⟨Eight.const [.goAsserted], Eight.const [.goAsserted], Eight.const [.goAsserted]⟩ } }

theorem witness_StepRunsTheDecodedInstruction :
    (run.cfg.wf = true ∧ run.busy = false ∧ (pending run (.rxFrame rxKcha 4)).ordq = [.rxFrame rxKcha 4] ∧
      rxKcha.id ∈ run.cfg.cmdIds) ∧ decodeRx run.cfg rxKcha.len.toNat rxKcha.data = .ok .kcha ∧
      (refreshGo.cfg.wf = true ∧ refreshGo.busy = false ∧
        (pending refreshGo (.statusTick 4)).ordq = [.statusTick 4] ∧
        refreshList (pending refreshGo (.statusTick 4)) = [.goAsserted] ∧ Instr.ga = statusInstr .goAsserted) :=
  ⟨by decide, rfl, by decide⟩

theorem witness_PlacedTableWordIsRunNext :
    run.cfg.wf = true ∧ run.cfg.thrustFormats = [ThrustFormat.h, ThrustFormat.v] ∧ run.cfg.cmdIds ≠ [] ∧
      decodeTableWord 40 0x004148434B = some .kcha ∧ decodeTableWord 24 0x005547 = some .gu := by decide

theorem witness_UnacceptedFrameIsDropped :
    run.cfg.wf = true ∧ run.busy = false ∧
      (pending run (.rxFrame { rxKcha with id := 0x11 } 5)).ordq = [.rxFrame { rxKcha with id := 0x11 } 5] ∧
      ¬ accepted run.cfg { rxKcha with id := 0x11 } ∧ ¬ accepted run.cfg (rx 4 rxKcha.data) :=
  ⟨by decide, by decide, by decide, fun h => absurd h.1 (by decide), fun h => h.2 (by decide)⟩

theorem witness_WatchdogRecordsAcceptedFramesOnly :
    run.cfg.wf = true ∧ run.busy = false ∧ accepted run.cfg rxKcsa ∧
      (∃ u, step (pending run (.rxFrame rxKcsa 5)) = .next u) ∧
      (∀ f t, Stimulus.wdTick 5 = .rxFrame f t → ¬ accepted run.cfg f) ∧
      (∃ u, step (pending run (.wdTick 5)) = .next u) :=
  ⟨by decide, by decide, ⟨by decide, by decide⟩, ⟨_, rfl⟩, (fun _ _ h => nomatch h), ⟨_, rfl⟩⟩

/-- `rx.H 7F 00 81 40 AA 05 00`. -/
def rxH : Frame := rx 8 ⟨0x48, 0x7F, 0x00, 0x81, 0x40, 0xAA, 0x05, 0x00⟩

theorem witness_DiagnosticBytesFollowThrustFrames :
    run.cfg.wf = true ∧ run.busy = false ∧ rxH.id ∈ run.cfg.cmdIds ∧
      decodeCmd run.cfg rxH.len.toNat rxH.data = .thrust [(0, 0x7F), (1, 0), (4, 0x81), (5, 0x40)] 0xAA 5 0 ∧
      (∃ u, step (pending run (.rxFrame rxH 5)) = .next u) ∧
      (∀ cmds cr hs ua, decodeCmd run.cfg rxKcsa.len.toNat rxKcsa.data ≠ .thrust cmds cr hs ua) ∧
      (∃ u, step (pending run (.rxFrame rxKcsa 5)) = .next u) :=
  ⟨by decide, by decide, by decide, by decide, ⟨_, rfl⟩, (fun _ _ _ _ h => by
    have e : decodeCmd run.cfg rxKcsa.len.toNat rxKcsa.data = .killCommand .softKill := by decide
    rw [e] at h
    cases h), ⟨_, rfl⟩⟩

/-- A frame of `oneChannel`. -/
def rxOne : Frame := rx 5 ⟨0x54, 1, 2, 3, 0x7F, 0, 0, 0⟩

theorem witness_AnyThrustFormatIsApplied :
    let s := { run with cfg := cfgWithFormat oneChannel }
    s.cfg.wf = true ∧ s.busy = false ∧ rxOne.id ∈ s.cfg.cmdIds ∧ oneChannel ∈ s.cfg.thrustFormats ∧
      rxOne.data.a0 = oneChannel.tag ∧ rxOne.len.toNat = oneChannel.len ∧ s.ks = .running ∧ sk.ks ≠ .running ∧
      (got (step (pending s (.rxFrame rxOne 5)))).trace = [.pwmSet 3 1900] := by decide

theorem witness_HallSampleKillsAtMostOnce :
    runArmed.cfg.wf = true ∧ runArmed.busy = false ∧
      (let u := got (step (pending runArmed (.hallSample ⟨false, true, false⟩ 5)))
       runArmed.hallLast.onoff = true ∧ u.hallLast.onoff = false) ∧
      (let u := got (step (pending runArmed (.hallSample ⟨true, true, true⟩ 5)))
       ¬(runArmed.hallLast.onoff = true ∧ u.hallLast.onoff = false) ∧ u.hallLast.soft = true ∧
         u.hallLast.go = true) ∧
      (let u := got (step (pending runArmed (.hallSample ⟨false, false, true⟩ 5)))
       ¬(runArmed.hallLast.onoff = true ∧ u.hallLast.onoff = false) ∧ u.hallLast.soft = false ∧
         u.hallLast.go = false) ∧
      (let u := got (step (pending runArmed (.hallSample ⟨false, true, true⟩ 5)))
       ¬(runArmed.hallLast.onoff = true ∧ u.hallLast.onoff = false) ∧
         ¬(runArmed.ks = .running ∧ (u.hallLast.soft = true ∨ u.hallLast.go = false))) := by decide

theorem witness_WatchdogTickTimesOutStrictly :
    let s := { run with wdLast := 1000 }
    s.cfg.wf = true ∧ s.busy = false ∧ (s.cfg.wdTimeout < ((3001 : Time) - s.wdLast).toNat ∧ s.ks = .running) ∧
      ¬(s.cfg.wdTimeout < ((3000 : Time) - s.wdLast).toNat ∧ s.ks = .running) := by decide

theorem witness_StatusTickOnlyTransmits :
    refreshGo.cfg.wf = true ∧ refreshGo.busy = false ∧
      (pending refreshGo (.statusTick 5)).ordq = [.statusTick 5] := by decide

theorem witness_OnlyStatusTicksSendRefreshFrames :
    run.cfg.wf = true ∧ run.busy = false ∧ (∀ t, Stimulus.rxFrame rxKcha 5 ≠ .statusTick t) ∧
      ∃ u, step (pending run (.rxFrame rxKcha 5)) = .next u := ⟨by decide, by decide, nofun, ⟨_, rfl⟩⟩

theorem witness_LastOkIsTheCyclesAnd :
    run.cfg.wf = true ∧ run.busy = false ∧ (pending run (.rxFrame rxKcha 5)).ordq ≠ [] ∧
      ∃ u, step (pending run (.rxFrame rxKcha 5)) = .next u := ⟨by decide, by decide, by decide, ⟨_, rfl⟩⟩

theorem witness_AcksInfluenceOnlyLastOk :
    SameButAcks (pending (resetAcks true) (.rxFrame rxKchu 5)) (pending (resetAcks false) (.rxFrame rxKchu 5)) ∧
      ∃ s', runSteps 1 (pending (resetAcks true) (.rxFrame rxKchu 5)) = .next s' :=
  ⟨⟨⟨rfl, rfl, rfl, rfl, rfl, rfl, rfl, rfl, rfl, rfl, rfl⟩, rfl, rfl, rfl, rfl⟩, ⟨_, rfl⟩⟩

theorem witness_OutputsFollowTheTrace : ∃ u, step (pending run (.rxFrame rxKcha 5)) = .next u := ⟨_, rfl⟩

/-- The invariant of a state whose widths are all 1500, in the reference configuration. -/
theorem inv_of_neutral {s : State} (hc : s.cfg = Cfg.reference) (hp : s.pw = Eight.const 1500) (ho : s.OutputsFit)
    (hb : s.busy = false) : s.Inv := by
  refine ⟨ho, ?_, hb⟩
  unfold State.WidthsInRange
  rw [hc, hp]
  decide

theorem witness_StepKeepsStateInvariant :
    (State.reset.Inv ∧ ∃ u, step (pending (resetAcks true) (.rxFrame rxKchu 5)) = .next u ∧ u.ks = .running) ∧
      (skArmed.Inv ∧ ∃ u, step (pending skArmed
        (.rxFrame (rx 5 ⟨0x4B, 0x43, 0x53, 0x55, 0, 0, 0, 0⟩) 5)) = .next u ∧ u.ks = .running) ∧
      (run0.Inv ∧ ∃ u, step (pending run0 (.rxFrame rxH 5)) = .next u ∧ u.ks = .running) :=
  ⟨⟨inv_of_neutral rfl rfl ⟨rfl, rfl, rfl, by decide⟩ rfl, ⟨_, rfl, rfl⟩⟩,
    ⟨inv_of_neutral rfl rfl ⟨rfl, rfl, rfl, by decide⟩ rfl, ⟨_, rfl, rfl⟩⟩,
    ⟨inv_of_neutral rfl rfl ⟨rfl, rfl⟩ rfl, ⟨_, rfl, rfl⟩⟩⟩

theorem witness_ResetEstablishesInvariant : Cfg.reference.wf = true := by decide

theorem witness_OnlyKchuWakesThePowerOutputs :
    ∃ u, step (pending (resetAcks true) (.rxFrame rxKchu 5)) = .next u ∧ (resetAcks true).ks = .hardKilled ∧
      u.ks ≠ .hardKilled ∧ (resetAcks true).thrPwr = false ∧ u.thrPwr = true ∧ (resetAcks true).mainPwr = false ∧
      u.mainPwr = true := ⟨_, rfl, by decide⟩

theorem witness_StepTakesStimuliInArrivalOrder :
    (∃ u, step (pending run (.wdTick 5)) = .next u) ∧ run.busy = false := ⟨⟨_, rfl⟩, rfl⟩

theorem witness_EveryStimulusSequenceIsProcessed :
    run.cfg.wf = true ∧ run.busy = false ∧ { Cfg.reference with wdTimeout := 2147483648 }.wf = false := by decide

theorem witness_RunningWithoutThrusterPower :
    runArmed.ks = .running ∧ runArmed.hallLast.go = true ∧ runArmed.hallLast.onoff = true := by decide

theorem witness_SimultaneousStimuliKeepTheTieOrder :
    allIn.rst = false ∧ (∀ src, taking PinState.reset allIn src = false) ∧
      (let p : PinState := { PinState.reset with ordq := [(.rx, 3), (.hall, 3)] }
       taking p allIn .rx = true ∧ newSources p allIn = [(.wdTick, 7), (.statusTick, 7)]) := by
  refine ⟨rfl, fun src => ?_, by decide⟩
  cases src <;> rfl

/-- The pin-level machine with all four sources queued. -/
def queued : PinState := clock PinState.reset allIn

/-- The pin-level machine one clock into the cycle of a `KCHA` frame. -/
def killing : PinState := clock { PinState.reset with core := run, ordq := [(.rx, 3)] } { quiet with rx := allIn.rx }

theorem witness_PinQueueHoldsEachSourceOnce :
    (queued.ordq.map Prod.fst).Nodup ∧ queued.ordq.length = 4 := by decide

theorem witness_PinReadyOnlyForTheHeadOfAnIdleQueue :
    (pinOut queued allIn).ready .hall = true ∧ (∃ rest, queued.ordq = (.hall, 7) :: rest) ∧
      allIn.rst = false ∧ allIn.valid .hall = true ∧ Source.hall ∉ PinState.reset.ordq.map Prod.fst :=
  ⟨by decide, ⟨_, rfl⟩, by decide⟩

theorem witness_PinResetAbandonsTheCycle : ({ quiet with rst := true } : PinIn).rst = true := by decide

/-- A `PinState` in a cycle whose next micro-operation is `a`. -/
def doing (a : Action) : PinState := { killing with plan := [.act a] }

theorem witness_PinOffersAreHeldUntilTaken :
    quiet.rst = false ∧ quiet.txReady = false ∧ quiet.pwmSetReady = false ∧
      (txOffer (doing (.tx rxKcha)) quiet).isSome = true ∧
      (pwmSetOffer (doing (.pwmSet 7 1500)) quiet).isSome = true := by decide

/-- A `PinState` in which a delay of 5 began at time `t0`. -/
def delaying (t0 : Time) : PinState := { doing (.delay 5) with delayFrom := some t0 }

/-- Each clause at a boundary: the starting clock, one unit short of the delay, its end, and a stalled clock. -/
theorem witness_PinDelayBlocksUntilItsTime :
    quiet.rst = false ∧ (doing (.delay 5)).core.busy = true ∧ (doing (.delay 5)).plan = [.act (.delay 5)] ∧
      (doing (.delay 5)).delayFrom = none ∧ quiet.stall = false ∧
      (delaying 3).core.busy = true ∧ (delaying 3).plan = [.act (.delay 5)] ∧ (delaying 3).delayFrom = some 3 ∧
      (quiet.now - (3 : Time)).toNat = 4 ∧ (delaying 2).delayFrom = some 2 ∧ (quiet.now - (2 : Time)).toNat = 5 ∧
      ({ quiet with stall := true } : PinIn).stall = true := by decide

theorem witness_PinClockKeepsItsPlanFitting : (delaying 3).Fits :=
  ⟨fun _ => ⟨5, [], rfl⟩, fun h => absurd h (by decide)⟩

/-- A clock on which a frame offered is taken, and refused by the bus driver. -/
def refusing : PinIn := { quiet with txReady := true }

theorem witness_PinClockRefinesTheRestOfTheCycle :
    (doing (.tx rxKcha)).Fits ∧ (doing (.tx rxKcha)).core.busy = true ∧ refusing.rst = false ∧
      clockAcks (doing (.tx rxKcha)) refusing = [false] :=
  ⟨⟨fun h => absurd rfl h, fun h => absurd h (by decide)⟩, by decide⟩

/-- An idle pin-level machine that takes a status tick and then transmits one frame. -/
def refreshing : PinState := { PinState.reset with core := refreshGo, ordq := [(.statusTick, 3)] }

theorem witness_PinCycleRefinesStep :
    let i : PinIn := { quiet with statusTick := true }
    refreshing.core.cfg.wf = true ∧ refreshing.core.busy = false ∧ i.rst = false ∧
      accepting refreshing i = some (.statusTick, 3, .statusTick 3) ∧
      (∀ j ∈ [quiet, refusing, quiet], j.rst = false) ∧
      (∀ k, k < [quiet, refusing, quiet].length →
        (clocks (clock refreshing i) ([quiet, refusing, quiet].take k)).core.busy = true) ∧
      (clocks (clock refreshing i) [quiet, refusing, quiet]).core.busy = false ∧
      sampledAcks (clock refreshing i) [quiet, refusing, quiet] = [false] := by decide

theorem witness_PinLastOkIsTheAndOfTheSampledAcks :
    let i : PinIn := { quiet with statusTick := true }
    i.rst = false ∧ accepting refreshing i = some (.statusTick, 3, .statusTick 3) ∧
      (∀ j ∈ [refusing, quiet], j.rst = false) ∧
      (∀ k, k < [refusing, quiet].length →
        (clocks (clock refreshing i) ([refusing, quiet].take k)).core.busy = true) ∧
      (clocks (clock refreshing i) [refusing, quiet]).core.busy = false ∧
      (clocks (clock refreshing i) [refusing, quiet]).core.lastOk = false := by decide

theorem witness_PinCycleCanAlwaysEnd :
    killing.core.busy = true ∧ killing.core.cfg.wf = true ∧
      killing.plan = [.feed .hardKillRequest] := by decide

end Sys2Proof.Tests
end

section
/-! PROOFS. The statements of the family of spec/00_scope.md: a step takes stimuli in arrival order, and the pin level
refines the transaction level. The refinement is a simulation: what `PinState.finish` reckons for the end of the cycle
does not change with a clock, so at the end of the cycle it is what `step` reckons at acceptance. -/

namespace Sys2Proof.Machine

/-! The registers that a transaction-level run starts from: the queue emptied, the acks to come given. -/

/-- `s` as the transaction level sees it in the middle of a cycle: no other stimulus pending, `acks` still to come. -/
def State.answeredBy (s : State) (acks : List Bool) : State := { s with ordq := [], acks := acks }

/-- An action with a result takes the first ack to come (spec/10_state.md R39). -/
theorem State.emit_answeredBy_acked {a : Action} (ha : a.hasAck = true) (s : State) (ok : Bool) (acks : List Bool) :
    (s.answeredBy (ok :: acks)).emit a = ((s.apply a).noteAck ok).answeredBy acks := by
  cases a with
  | pwmSet ch w => rfl
  | tx f => rfl
  | pwmEnable b => cases ha
  | thrusterPower b => cases ha
  | mainPower b => cases ha
  | delay d => cases ha

/-- An action without a result takes no ack. -/
theorem State.emit_answeredBy_plain {a : Action} (ha : a.hasAck = false) (s : State) (acks : List Bool) :
    (s.answeredBy acks).emit a = (s.apply a).answeredBy acks := by
  cases a with
  | pwmSet ch w => cases ha
  | tx f => cases ha
  | pwmEnable b => rfl
  | thrusterPower b => rfl
  | mainPower b => rfl
  | delay d => rfl

/-- Accepting a stimulus reads neither the queue nor the acks. -/
theorem intake_answeredBy (st : Stimulus) (s : State) (acks : List Bool) :
    intake st (s.answeredBy acks) = ((intake st s).1.answeredBy acks, (intake st s).2) := by
  cases st with
  | rxFrame f t =>
    have hcfg : (s.answeredBy acks).cfg = s.cfg := rfl
    simp only [intake, hcfg]
    split
    · cases decodeCmd s.cfg f.len.toNat f.data <;> rfl
    · rfl
  | hallSample raw t => rfl
  | wdTick t => rfl
  | statusTick t => rfl

/-- An offered stimulus carries the arrival time its entry recorded (spec/10_state.md R37). -/
theorem offered_time {i : PinIn} {src : Source} {t : Time} {st : Stimulus} (h : offered i src t = some st) :
    st.time = t := by
  cases src with
  | hall =>
    obtain ⟨r, -, rfl⟩ := Option.map_eq_some_iff.mp h
    rfl
  | rx =>
    obtain ⟨f, -, rfl⟩ := Option.map_eq_some_iff.mp h
    rfl
  | wdTick =>
    obtain ⟨-, h⟩ := Option.ite_none_right_eq_some.mp h
    cases h
    rfl
  | statusTick =>
    obtain ⟨-, h⟩ := Option.ite_none_right_eq_some.mp h
    cases h
    rfl

/-! `finish`, `unissued` and `Fits`, said once. -/

theorem PinState.finish_busy {p : PinState} (hb : p.core.busy = true) (acks : List Bool) :
    p.finish acks = runPlan p.unissued (p.core.answeredBy acks) := by
  unfold PinState.finish
  rw [if_pos hb]
  rfl

theorem PinState.finish_idle {p : PinState} (hb : p.core.busy = false) (acks : List Bool) :
    p.finish acks = p.core.answeredBy acks := by
  unfold PinState.finish
  rw [hb]
  rfl

/-- With no delay running, the whole plan is still to be issued. -/
theorem PinState.finish_of_no_delay {p : PinState} (hb : p.core.busy = true) (hd : p.delayFrom = none)
    (acks : List Bool) : p.finish acks = runPlan p.plan (p.core.answeredBy acks) := by
  rw [PinState.finish_busy hb, PinState.unissued, hd]

/-- A running delay was issued when it began. -/
theorem PinState.finish_of_delay {p : PinState} {t0 : Time} (hb : p.core.busy = true) (hd : p.delayFrom = some t0)
    (acks : List Bool) : p.finish acks = runPlan p.plan.tail (p.core.answeredBy acks) := by
  rw [PinState.finish_busy hb, PinState.unissued, hd]

/-- Two positions with no delay running end alike when the rest of their plans do. -/
theorem PinState.finish_congr {p q : PinState} {as bs : List Bool} (hp : p.core.busy = true)
    (hq : q.core.busy = true) (hdp : p.delayFrom = none) (hdq : q.delayFrom = none)
    (h : runPlan p.plan (p.core.answeredBy as) = runPlan q.plan (q.core.answeredBy bs)) :
    p.finish as = q.finish bs := by
  rw [PinState.finish_of_no_delay hp hdp, PinState.finish_of_no_delay hq hdq, h]

/-- No delay runs unless it is the next thing to do. -/
theorem PinState.Fits.delayFrom_none {p : PinState} (hf : p.Fits)
    (h : ∀ d rest, p.plan ≠ .act (.delay d) :: rest) : p.delayFrom = none := by
  by_contra hd
  obtain ⟨d, rest, hp⟩ := hf.delay hd
  exact h d rest hp

/-- No delay runs where another action is next. -/
theorem PinState.Fits.delayFrom_none_of_act {p : PinState} (hf : p.Fits) {a : Action} {rest : List Micro}
    (hp : p.plan = .act a :: rest) (ha : ∀ d, a ≠ .delay d) : p.delayFrom = none :=
  hf.delayFrom_none fun d rest' hp' => by
    rw [hp] at hp'
    injection hp' with hm _
    injection hm with had
    exact ha d had

/-- A delay has no result (spec/10_state.md R38). -/
theorem Action.ne_delay_of_hasAck {a : Action} (ha : a.hasAck = true) (d : Nat) : a ≠ .delay d := by
  rintro rfl
  cases ha

/-- A position in a cycle with no delay running fits. -/
theorem PinState.fits_of_busy {p : PinState} (hb : p.core.busy = true) (hd : p.delayFrom = none) : p.Fits :=
  ⟨fun h => absurd hd h, fun h => by rw [hb] at h; cases h⟩

/-! The simulation, by what a clock in the middle of a cycle can do (`Advances`). -/

/-- A clock inside a cycle keeps that the position fits. -/
theorem Advances.fits {p q : PinState} {bs : List Bool} (h : Advances p q bs) (hf : p.Fits)
    (hb : p.core.busy = true) : q.Fits := by
  cases h with
  | wait => exact hf
  | close hp => exact ⟨hf.delay, fun _ => hp⟩
  | feed e rest hp => exact PinState.fits_of_busy hb (hf.delayFrom_none (by simp [hp]))
  | commit k rest hp => exact PinState.fits_of_busy hb (hf.delayFrom_none (by simp [hp]))
  | plain a rest hp ha hnd =>
    exact PinState.fits_of_busy (by simpa using hb) (hf.delayFrom_none_of_act hp hnd)
  | acked a rest ok hp ha =>
    exact PinState.fits_of_busy (by simpa using hb) (hf.delayFrom_none_of_act hp (Action.ne_delay_of_hasAck ha))
  | delayBegins d rest t0 hp hd => exact ⟨fun _ => ⟨d, rest, hp⟩, fun h => by simp [hb] at h⟩
  | delayEnds d rest t0 hp hd => exact PinState.fits_of_busy hb rfl

/-- A clock inside a cycle does not change how the cycle ends, once the acks it samples are put first. -/
theorem Advances.finish_eq {p q : PinState} {bs : List Bool} (h : Advances p q bs) (hf : p.Fits)
    (hb : p.core.busy = true) (acks : List Bool) : p.finish (bs ++ acks) = q.finish acks := by
  cases h with
  | wait => rfl
  | close hp =>
    rw [PinState.finish_of_no_delay hb (hf.delayFrom_none (by simp [hp])), hp]
    rfl
  | feed e rest hp =>
    have hd := hf.delayFrom_none (by simp [hp])
    refine PinState.finish_congr hb hb hd hd ?_
    rw [hp, runPlan_micros]
    rfl
  | commit k rest hp =>
    have hd := hf.delayFrom_none (by simp [hp])
    refine PinState.finish_congr hb hb hd hd ?_
    rw [hp]
    rfl
  | plain a rest hp ha hnd =>
    have hd := hf.delayFrom_none_of_act hp hnd
    refine PinState.finish_congr hb (by simpa using hb) hd hd ?_
    rw [hp, runPlan, List.nil_append, State.emit_answeredBy_plain ha]
  | acked a rest ok hp ha =>
    have hd := hf.delayFrom_none_of_act hp (Action.ne_delay_of_hasAck ha)
    refine PinState.finish_congr hb (by simpa using hb) hd hd ?_
    rw [hp, runPlan, List.singleton_append, State.emit_answeredBy_acked ha]
  | delayBegins d rest t0 hp hd =>
    rw [PinState.finish_of_no_delay hb hd, PinState.finish_of_delay (by simpa using hb) rfl, hp]
    rfl
  | delayEnds d rest t0 hp hd =>
    rw [PinState.finish_of_delay hb hd, PinState.finish_of_no_delay (by simpa using hb) rfl, hp]
    rfl

/-- The position after a clock inside a cycle fits. -/
theorem clock_fits_of_busy {p : PinState} {i : PinIn} (hf : p.Fits) (hb : p.core.busy = true) (hr : i.rst = false) :
    (clock p i).Fits := by
  rw [clock_busy hb hr]
  have h := (advance_spec hb hr).fits hf hb
  exact ⟨h.delay, h.idle⟩

/-- The queue of the pin level has no part in how the cycle ends. -/
theorem clock_finish_of_busy {p : PinState} {i : PinIn} (hf : p.Fits) (hb : p.core.busy = true) (hr : i.rst = false)
    (acks : List Bool) : p.finish (clockAcks p i ++ acks) = (clock p i).finish acks := by
  rw [clock_busy hb hr]
  exact (advance_spec hb hr).finish_eq hf hb acks

/-- Settles O58: each kind of clock inside a cycle leaves what `finish` reckons as it was. -/
theorem pinClockRefinesTheRestOfTheCycle : Obligations.PinClockRefinesTheRestOfTheCycle := by
  unfold Obligations.PinClockRefinesTheRestOfTheCycle
  intro p i hf hb hr acks
  exact clock_finish_of_busy hf hb hr acks

/-- Clocks through which a cycle lasts do not change how it ends, once the acks they sample are put first. -/
theorem clocks_finish_of_busy (is : List PinIn) (p : PinState) (hf : p.Fits) (hr : ∀ j ∈ is, j.rst = false)
    (hb : ∀ k, k < is.length → (clocks p (is.take k)).core.busy = true) (acks : List Bool) :
    p.finish (sampledAcks p is ++ acks) = (clocks p is).finish acks := by
  induction is generalizing p with
  | nil => rfl
  | cons i rest ih =>
    have hb0 : p.core.busy = true := hb 0 (Nat.zero_lt_succ _)
    have hr0 : i.rst = false := hr i List.mem_cons_self
    calc p.finish (sampledAcks p (i :: rest) ++ acks)
        = p.finish (clockAcks p i ++ (sampledAcks (clock p i) rest ++ acks)) := by
          rw [sampledAcks, List.append_assoc]
      _ = (clock p i).finish (sampledAcks (clock p i) rest ++ acks) := clock_finish_of_busy hf hb0 hr0 _
      _ = (clocks p (i :: rest)).finish acks :=
          ih (clock p i) (clock_fits_of_busy hf hb0 hr0) (fun j hj => hr j (List.mem_cons_of_mem _ hj))
            fun k hk => hb (k + 1) (Nat.succ_lt_succ hk)

/-- The clock that accepts a stimulus begins a cycle. -/
theorem clock_accept_busy {p : PinState} {i : PinIn} {src : Source} {t : Time} {st : Stimulus} (hr : i.rst = false)
    (ha : accepting p i = some (src, t, st)) : (clock p i).core.busy = true := by
  rw [clock_accept hr ha, intake_busy]
  rfl

/-- The position at which a cycle begins fits. -/
theorem clock_accept_fits {p : PinState} {i : PinIn} {src : Source} {t : Time} {st : Stimulus} (hr : i.rst = false)
    (ha : accepting p i = some (src, t, st)) : (clock p i).Fits :=
  PinState.fits_of_busy (clock_accept_busy hr ha) (by rw [clock_accept hr ha])

/-- One step on a stimulus is how the pin-level cycle that accepts it ends, when the same acks are given. -/
theorem step_eq_finish_of_accept {p : PinState} {i : PinIn} {src : Source} {t : Time} {st : Stimulus}
    (hw : p.core.cfg.wf = true) (hr : i.rst = false) (ha : accepting p i = some (src, t, st)) (acks : List Bool) :
    step { p.core with ordq := [st], acks := acks } = .next ((clock p i).finish acks) := by
  obtain ⟨hidle, -, ho⟩ := accepting_spec ha
  have hacc : State.accept { p.core with ordq := [st], acks := acks } st [] =
      (p.core.beginCycle t).answeredBy acks := by
    rw [State.accept, offered_time ho]
    rfl
  rw [step_pending (s := { p.core with ordq := [st], acks := acks }) hw hidle rfl, hacc,
    ← runPlan_intake, intake_answeredBy, PinState.finish_of_no_delay (clock_accept_busy hr ha)
      (by rw [clock_accept hr ha]), clock_accept hr ha]

/-- Settles O54: the step is what `finish` reckons at acceptance, and every clock of the cycle keeps that. -/
theorem pinCycleRefinesStep : Obligations.PinCycleRefinesStep := by
  unfold Obligations.PinCycleRefinesStep
  intro p i is src t st hw _ hr ha hrs hbusy hend
  have hrun := clocks_finish_of_busy is (clock p i) (clock_accept_fits hr ha) hrs hbusy []
  rw [List.append_nil, PinState.finish_idle hend] at hrun
  rw [step_eq_finish_of_accept hw hr ha, hrun]
  rfl

/-- Settles O44: a step that takes nothing changes nothing, and a processing cycle touches neither the configuration nor
the stimuli behind the one it took. -/
theorem stepTakesStimuliInArrivalOrder : Obligations.StepTakesStimuliInArrivalOrder := by
  unfold Obligations.StepTakesStimuliInArrivalOrder
  intro s u h
  obtain ⟨-, ⟨hnone, rfl⟩ | ⟨st, rest, -, hq, rfl⟩⟩ := step_cases h
  · refine ⟨rfl, fun hidle => ⟨?_, hidle⟩⟩
    obtain hbusy | hempty := hnone
    · rw [hidle] at hbusy
      cases hbusy
    · rw [hempty]
      rfl
  · obtain ⟨hcfg, hordq, -⟩ := afterStim_keeps st (s.accept st rest)
    exact ⟨hcfg, fun _ => ⟨by rw [State.endCycle_ordq, hordq, hq]; rfl, rfl⟩⟩

end Sys2Proof.Machine
end

section
/-! PROOFS. The statements of spec/10_state.md about acks and the trace: what acks can influence is a relation that
every operation keeps (`SameButAcks`), and what a cycle emits says which acks it took (`afterStim_emitted`). -/

namespace Sys2Proof.Machine

/-! Two states that differ in acks only stay so (spec/10_state.md R39), operation by operation. -/

namespace SameButAcks

variable {s t : State}

theorem emitAll (h : SameButAcks s t) (as : List Action) : SameButAcks (s.emitAll as) (t.emitAll as) := by
  have hs := emitAll_emitted as s
  have ht := emitAll_emitted as t
  have hr := h.regs
  exact {
    regs := {
      ks := by simp [hr.ks]
      pw := Eight.ext_get fun ch => by rw [ht.pw, hs.pw, hr.pw]
      pwmEn := by rw [ht.pwmEn, hs.pwmEn, hr.pwmEn]
      thrPwr := by rw [ht.thrPwr, hs.thrPwr, hr.thrPwr]
      mainPwr := by rw [ht.mainPwr, hs.mainPwr, hr.mainPwr]
      hallLast := by simp [hr.hallLast]
      wdLast := by simp [hr.wdLast]
      diagCr := by simp [hr.diagCr]
      diagHs := by simp [hr.diagHs]
      diagUa := by simp [hr.diagUa]
      cfg := by simp [hr.cfg] }
    ordq := by simp [h.ordq]
    busy := by simp [h.busy]
    arrival := by simp [h.arrival]
    trace := by simp [h.trace] }

theorem take (h : SameButAcks s t) (tr : Transition) : SameButAcks (s.take tr) (t.take tr) :=
  have k := h.emitAll tr.actions
  ⟨{ k.regs with ks := rfl }, k.ordq, k.busy, k.arrival, k.trace⟩

/-- The transition function reads nothing that acks influence. -/
theorem feed (h : SameButAcks s t) (e : Event) : SameButAcks (s.feed e) (t.feed e) := by
  unfold State.feed
  rw [h.regs.cfg, h.regs.ks, h.regs.hallLast]
  exact h.take _

theorem feedAll (h : SameButAcks s t) (es : List Event) : SameButAcks (s.feedAll es) (t.feedAll es) := by
  induction es generalizing s t with
  | nil => exact h
  | cons e es ih => exact ih (h.feed e)

theorem record (h : SameButAcks s t) : SameButAcks s.record t.record :=
  ⟨{ h.regs with wdLast := h.arrival }, h.ordq, h.busy, h.arrival, h.trace⟩

theorem setDiag (h : SameButAcks s t) (cr hs ua : Byte) : SameButAcks (s.setDiag cr hs ua) (t.setDiag cr hs ua) :=
  ⟨{ h.regs with diagCr := rfl, diagHs := rfl, diagUa := rfl }, h.ordq, h.busy, h.arrival, h.trace⟩

theorem setHall (h : SameButAcks s t) (cur : Hall) :
    SameButAcks { s with hallLast := cur } { t with hallLast := cur } :=
  ⟨{ h.regs with hallLast := rfl }, h.ordq, h.busy, h.arrival, h.trace⟩

theorem afterRx (h : SameButAcks s t) (f : Frame) :
    SameButAcks (Machine.afterRx f s) (Machine.afterRx f t) := by
  unfold Machine.afterRx
  rw [h.regs.cfg]
  split
  · cases decodeCmd s.cfg f.len.toNat f.data with
    | unrecognized => exact h
    | killCommand k => exact h.record.feed (killEvent k)
    | thrust cmds cr hs ua => exact (h.record.setDiag cr hs ua).feed (.thrustCommand cmds)
  · exact h

/-- The handler of a stimulus reads nothing that acks influence. -/
theorem afterStim (h : SameButAcks s t) (st : Stimulus) :
    SameButAcks (Machine.afterStim st s) (Machine.afterStim st t) := by
  cases st with
  | rxFrame f _ => exact h.afterRx f
  | hallSample raw _ =>
    have hcur : filtered t.cfg raw = filtered s.cfg raw := by rw [h.regs.cfg]
    simp only [Machine.afterStim, handleHall]
    rw [hcur, h.regs.hallLast]
    exact (h.setHall _).feedAll _
  | wdTick _ =>
    simp only [Machine.afterStim, handleWdTick, h.regs.cfg, h.arrival, h.regs.wdLast]
    split
    · exact h.feed .commandTimeout
    · exact h
  | statusTick _ =>
    simp only [Machine.afterStim, refreshList, h.regs.cfg, h.regs.ks, h.regs.hallLast]
    exact h.emitAll _

theorem accept (h : SameButAcks s t) (st : Stimulus) (rest : List Stimulus) :
    SameButAcks (s.accept st rest) (t.accept st rest) :=
  ⟨{ h.regs with }, rfl, rfl, rfl, h.trace⟩

theorem endCycle (h : SameButAcks s t) : SameButAcks s.endCycle t.endCycle :=
  ⟨{ h.regs with }, h.ordq, rfl, h.arrival, h.trace⟩

end SameButAcks

/-- A step that is busy or has nothing pending changes nothing. -/
theorem step_nothing {s : State} (hw : s.cfg.wf = true) (h : s.busy = true ∨ s.ordq = []) : step s = .next s := by
  obtain ⟨u, hu⟩ := step_next_of_wf hw
  obtain ⟨-, ⟨-, rfl⟩ | ⟨st, rest, hidle, hq, -⟩⟩ := step_cases hu
  · exact hu
  · obtain hbusy | hempty := h
    · rw [hidle] at hbusy
      cases hbusy
    · rw [hq] at hempty
      cases hempty

/-- A step takes states that differ in acks only to states that differ in acks only. -/
theorem SameButAcks.step {s t s' : State} (h : SameButAcks s t) (hs : step s = .next s') :
    ∃ t', Machine.step t = .next t' ∧ SameButAcks s' t' := by
  obtain ⟨hw, ⟨hnone, rfl⟩ | ⟨st, rest, hidle, hq, rfl⟩⟩ := step_cases hs
  all_goals rw [← h.regs.cfg] at hw
  · rw [← h.busy, ← h.ordq] at hnone
    exact ⟨t, step_nothing hw hnone, h⟩
  · rw [← h.busy] at hidle
    rw [← h.ordq] at hq
    exact ⟨_, step_pending hw hidle hq, ((h.accept st rest).afterStim st).endCycle⟩

/-- Settles O39, by induction on the number of steps. -/
theorem acksInfluenceOnlyLastOk : Obligations.AcksInfluenceOnlyLastOk := by
  unfold Obligations.AcksInfluenceOnlyLastOk
  intro n
  induction n with
  | zero =>
    intro s t s' h hs
    cases hs
    exact ⟨t, rfl, h⟩
  | succ n ih =>
    intro s t s' h hs
    rw [runSteps] at hs
    cases hsu : step s with
    | next u =>
      obtain ⟨v, htv, huv⟩ := h.step hsu
      obtain ⟨t', ht', hst'⟩ := ih u v s' huv (by rw [hsu] at hs; exact hs)
      exact ⟨t', by rw [runSteps, htv]; exact ht', hst'⟩
    | fault r => cases r
    | refused r =>
      rw [hsu] at hs
      cases hs

/-! What a cycle emits, and the acks it takes for it (spec/10_state.md R27, R38). -/

/-- The actions of a processing cycle, in the terms of its first and its last state. -/
theorem endCycle_afterStim_emitted (s : State) (st : Stimulus) (rest : List Stimulus) :
    ∃ as, Emitted s (afterStim st (s.accept st rest)).endCycle as ∧
      TookAcks (s.accept st rest) (afterStim st (s.accept st rest)) (ackCount as) := by
  obtain ⟨as, he, ha⟩ := afterStim_emitted st (s.accept st rest)
  exact ⟨as, ⟨he.trace, he.pw, he.pwmEn, he.thrPwr, he.mainPwr⟩, ha⟩

/-- Settles O40: a step that takes nothing emits nothing, and a processing cycle emits what its handler does. -/
theorem outputsFollowTheTrace : Obligations.OutputsFollowTheTrace := by
  unfold Obligations.OutputsFollowTheTrace
  intro s u h
  obtain ⟨-, ⟨-, rfl⟩ | ⟨st, rest, -, -, rfl⟩⟩ := step_cases h
  · exact ⟨[], Emitted.nil _⟩
  · obtain ⟨as, he, -⟩ := endCycle_afterStim_emitted s st rest
    exact ⟨as, he⟩

/-- Two states with the same acks to come and the same AND so far end a cycle on the same stimulus in the same state:
they emit the same actions, so they take the same acks, and `last_ok` is overwritten. -/
theorem SameButAcks.endCycle_afterStim_eq {s t : State} (h : SameButAcks s t) (hacks : t.acks = s.acks)
    (hdraws : t.ackDraws = s.ackDraws) (hok : t.cycOk = s.cycOk) (st : Stimulus) :
    (Machine.afterStim st t).endCycle = (Machine.afterStim st s).endCycle := by
  obtain ⟨as, hse, hsa⟩ := afterStim_emitted st s
  obtain ⟨bs, hte, hta⟩ := afterStim_emitted st t
  have k := h.afterStim st
  have hsame : bs = as := by
    have htr := k.trace
    rw [hte.trace, hse.trace, h.trace] at htr
    exact List.append_cancel_left htr
  subst hsame
  have hahead : t.acksAhead (ackCount bs) = s.acksAhead (ackCount bs) := by
    simp only [State.acksAhead, hacks, hdraws]
  have hcyc : (Machine.afterStim st t).cycOk = (Machine.afterStim st s).cycOk := by
    rw [hta.ok, hsa.ok, hok, hahead]
  have hr := k.regs
  exact State.ext_fields hr.ks hr.pw hr.pwmEn hr.thrPwr hr.mainPwr hcyc hr.hallLast hr.wdLast hr.diagCr hr.diagHs
    hr.diagUa k.ordq rfl hr.cfg k.arrival hcyc (by simp only [State.endCycle_acks, hta.acks, hsa.acks, hacks])
    (by simp only [State.endCycle_ackDraws, hta.draws, hsa.draws, hdraws, hacks]) k.trace

/-- States that differ in `last_ok` only differ in acks only. -/
theorem sameButAcks_lastOk (s : State) (b : Bool) : SameButAcks s { s with lastOk := b } :=
  ⟨⟨rfl, rfl, rfl, rfl, rfl, rfl, rfl, rfl, rfl, rfl, rfl⟩, rfl, rfl, rfl, rfl⟩

/-- Settles O38: the AND starts at 1 with the cycle, takes one ack for each action that has one, and becomes `last_ok`;
the old `last_ok` has no part in it. -/
theorem lastOkIsTheCyclesAnd : Obligations.LastOkIsTheCyclesAnd := by
  unfold Obligations.LastOkIsTheCyclesAnd
  refine ⟨fun s u hw hidle hne hs => ?_, fun c => rfl⟩
  obtain ⟨st, rest, hq⟩ := List.exists_cons_of_ne_nil hne
  rw [step_pending hw hidle hq] at hs
  cases hs
  constructor
  · obtain ⟨as, he, ha⟩ := endCycle_afterStim_emitted s st rest
    exact ⟨as, he.trace, ha.ok, ha.acks⟩
  · intro b
    have hb := ((sameButAcks_lastOk s b).accept st rest).endCycle_afterStim_eq rfl rfl rfl st
    rw [step_pending (s := { s with lastOk := b }) hw hidle hq, hb]

end Sys2Proof.Machine
end

section
/-! PROOFS. The statements of spec/10_state.md about the invariants of R35: reset establishes them, and every step keeps
them, cell by cell of the transition function (`Cell`). -/

namespace Sys2Proof.Machine

/-! What a cell of the transition matrix does to the outputs (spec/44_kill_fsm.md R148 to R153). -/

/-- The transitions the matrix of spec/44_kill_fsm.md R146 can answer in kill state `k`. -/
inductive Cell (c : Cfg) : KillState → Transition → Prop where
  | hardKill (k : KillState) : Cell c k (hardKill c)
  | ignore (k : KillState) : Cell c k (ignore k)
  | hardUnkill : Cell c .hardKilled (hardUnkill c)
  | softKill : Cell c .running (softKill c)
  | softUnkill : Cell c .softKilled (softUnkill c)
  | thrust (cmds : List ThrustCmd) : Cell c .running (thrustApply c cmds)

/-- An event that acts in one kill state only fills one cell of its row and is ignored in the others. -/
theorem fsm_cell (c : Cfg) (k : KillState) (h : Hall) (e : Event) : Cell c k (fsm c k h e) := by
  cases e with
  | hardKillRequest => exact .hardKill k
  | onOffMagnetRemoved => exact .hardKill k
  | hardUnkillRequest =>
    cases k with
    | hardKilled => exact .hardUnkill
    | softKilled => exact .ignore _
    | running => exact .ignore _
  | softUnkillRequest =>
    cases k with
    | hardKilled => exact .ignore _
    | softKilled =>
      change Cell c .softKilled (if h.go && h.onoff then softUnkill c else ignore .softKilled)
      split
      · exact .softUnkill
      · exact .ignore _
    | running => exact .ignore _
  | thrustCommand cmds =>
    cases k with
    | hardKilled => exact .ignore _
    | softKilled => exact .ignore _
    | running => exact .thrust cmds
  | _ =>
    cases k with
    | hardKilled => exact .ignore _
    | softKilled => exact .ignore _
    | running => exact .softKill

/-- Actions with a result, writes of a width and frames, write none of the three switches (spec/10_state.md R38). -/
theorem switches_of_acked {as : List Action} (h : ∀ a ∈ as, a.hasAck = true) (b : Bool) :
    pwmEnAfter as b = b ∧ thrPwrAfter as b = b ∧ mainPwrAfter as b = b := by
  induction as with
  | nil => exact ⟨rfl, rfl, rfl⟩
  | cons a as ih =>
    have ha := h a List.mem_cons_self
    have hrest := ih fun x hx => h x (List.mem_cons_of_mem _ hx)
    cases a with
    | pwmSet ch w => exact hrest
    | tx f => exact hrest
    | pwmEnable b => cases ha
    | thrusterPower b => cases ha
    | mainPower b => cases ha
    | delay d => cases ha

/-- `w` lies between the reverse and the forward width of channel `ch` (spec/10_state.md R35 (iv)). -/
def Cfg.Allows (c : Cfg) (ch : Channel) (w : Width) : Prop :=
  (c.genOf ch).rev ≤ w.toNat ∧ w.toNat ≤ (c.genOf ch).fwd

theorem widthsInRange_iff (s : State) : s.WidthsInRange ↔ ∀ ch, Cfg.Allows s.cfg ch (s.pw.get ch) := Iff.rfl

theorem allows_neutral {c : Cfg} (hw : c.wf = true) (ch : Channel) : Cfg.Allows c ch (c.neutral ch) := by
  obtain ⟨h1, h2, -⟩ := genOf_of_wf hw ch
  unfold Cfg.Allows
  rw [neutral_toNat hw]
  exact ⟨h1, h2⟩

theorem allows_mapWidth {c : Cfg} (hw : c.wf = true) (ch : Channel) (b : Byte) :
    Cfg.Allows c ch (mapWidth c ch b) := by
  obtain ⟨h1, h2, h3⟩ := genOf_of_wf hw ch
  obtain ⟨hlo, hhi⟩ := widthAt_range (c.genOf ch) (speedOperand b) h1 h2 (speedOperand_range b)
  unfold Cfg.Allows mapWidth
  rw [BitVec.toNat_ofNat, Nat.mod_eq_of_lt (by omega)]
  exact ⟨hlo, hhi⟩

/-- Writing allowed widths only leaves an allowed width. -/
theorem widthAfter_allowed {c : Cfg} {as : List Action} (h : ∀ ch w, Action.pwmSet ch w ∈ as → Cfg.Allows c ch w)
    {ch : Channel} {w : Width} (hw : Cfg.Allows c ch w) : Cfg.Allows c ch (widthAfter ch as w) := by
  induction as generalizing w with
  | nil => exact hw
  | cons a as ih =>
    have hrest := fun ch w hm => h ch w (List.mem_cons_of_mem _ hm)
    cases a with
    | pwmSet ch' v =>
      refine ih hrest ?_
      split
      · next he => exact he ▸ h ch' v List.mem_cons_self
      · exact hw
    | _ => exact ih hrest hw

/-- Every width a transition writes is allowed: it is a neutral width or a mapped speed. -/
theorem Cell.allowed {c : Cfg} {k : KillState} {tr : Transition} (hc : Cell c k tr) (hw : c.wf = true) (ch : Channel)
    (w : Width) (h : Action.pwmSet ch w ∈ tr.actions) : Cfg.Allows c ch w := by
  have hstop : Action.pwmSet ch w ∈ stopAll c → Cfg.Allows c ch w := by
    intro hm
    obtain ⟨ch', -, he⟩ := List.mem_map.mp hm
    injection he with hch hv
    rw [← hch, ← hv]
    exact allows_neutral hw ch'
  cases hc with
  | hardKill => exact hstop (by simpa [Machine.hardKill, txStatus] using h)
  | ignore => cases h
  | hardUnkill => exact hstop (by simpa [Machine.hardUnkill] using h)
  | softKill => exact hstop (by simpa [Machine.softKill, txStatus] using h)
  | softUnkill => simp [Machine.softUnkill, txStatus] at h
  | thrust cmds =>
    obtain ⟨cb, -, he⟩ := List.mem_map.mp h
    cases he
    exact allows_mapWidth hw cb.1 cb.2

/-! The invariant in the middle of a cycle, where `busy` is 1. -/

/-- spec/10_state.md R35 (i) to (iv): `State.Inv` but for `busy`. -/
structure State.Sound (s : State) : Prop where
  outputs : s.OutputsFit
  widths : s.WidthsInRange

theorem State.outputsFit_hardKilled {s : State} (hk : s.ks = .hardKilled) : s.OutputsFit ↔ s.PoweredDown := by
  simp only [State.OutputsFit, hk]

theorem State.outputsFit_softKilled {s : State} (hk : s.ks = .softKilled) : s.OutputsFit ↔ s.SoftStopped := by
  simp only [State.OutputsFit, hk]

theorem State.outputsFit_running {s : State} (hk : s.ks = .running) : s.OutputsFit ↔ s.Enabled := by
  simp only [State.OutputsFit, hk]

/-- How `thr_pwr` in `Running` depends on how `Running` was entered (spec/70_reset_and_hazards.md R211). -/
def ThrPwrByEntry (s u : State) : Prop :=
  (u.ks = .running → s.ks = .hardKilled → u.thrPwr = true) ∧
    (u.ks = .running → s.ks = .softKilled → u.thrPwr = false) ∧
    (u.ks = .running → s.ks = .running → u.thrPwr = s.thrPwr)

theorem ThrPwrByEntry.of_same {s u : State} (hk : u.ks = s.ks) (ht : u.thrPwr = s.thrPwr) : ThrPwrByEntry s u := by
  refine ⟨fun hu hs => ?_, fun hu hs => ?_, fun _ _ => ht⟩
  all_goals
    rw [hk, hs] at hu
    cases hu

theorem ThrPwrByEntry.of_not_running {s u : State} (h : u.ks ≠ .running) : ThrPwrByEntry s u :=
  ⟨fun hu => absurd hu h, fun hu => absurd hu h, fun hu => absurd hu h⟩

/-- Emitting actions with a result only leaves the switches as they were. -/
theorem Emitted.switches_of_acked {s t : State} {as : List Action} (h : Emitted s t as)
    (ha : ∀ a ∈ as, a.hasAck = true) : t.pwmEn = s.pwmEn ∧ t.thrPwr = s.thrPwr ∧ t.mainPwr = s.mainPwr :=
  ⟨h.pwmEn.trans (Machine.switches_of_acked ha _).1, h.thrPwr.trans (Machine.switches_of_acked ha _).2.1,
    h.mainPwr.trans (Machine.switches_of_acked ha _).2.2⟩

theorem thrustApply_acked (c : Cfg) (cmds : List ThrustCmd) : ∀ a ∈ (thrustApply c cmds).actions, a.hasAck = true := by
  intro a ha
  obtain ⟨cb, -, rfl⟩ := List.mem_map.mp ha
  rfl

/-- Taking a transition of the matrix leaves outputs that fit the state it commits. -/
theorem Cell.outputsFit {s : State} {tr : Transition} (hc : Cell s.cfg s.ks tr) (hs : s.OutputsFit) :
    (s.take tr).OutputsFit := by
  have he := take_emitted s tr
  have hcfg := State.take_cfg s tr
  generalize hk : s.ks = k at hc
  cases hc with
  | hardKill =>
    rw [State.outputsFit_hardKilled rfl, State.PoweredDown, hcfg]
    refine ⟨he.pwmEn, he.thrPwr, he.mainPwr, fun ch => ?_⟩
    rw [he.pw, hardKill_actions, specHardKill, widthAfter_append, widthAfter_specStopAll]
    rfl
  | ignore =>
    rw [← hk, State.take_ignore]
    exact hs
  | hardUnkill => exact (State.outputsFit_running rfl).mpr ⟨he.pwmEn, he.mainPwr⟩
  | softKill =>
    obtain ⟨-, hmain⟩ := (State.outputsFit_running hk).mp hs
    rw [State.outputsFit_softKilled rfl, State.SoftStopped, hcfg]
    refine ⟨he.pwmEn, he.thrPwr, he.mainPwr.trans hmain, fun ch => ?_⟩
    rw [he.pw, softKill_actions, specSoftKill, widthAfter_append, widthAfter_specStopAll]
    rfl
  | softUnkill =>
    obtain ⟨-, -, hmain, -⟩ := (State.outputsFit_softKilled hk).mp hs
    exact (State.outputsFit_running rfl).mpr ⟨he.pwmEn, he.mainPwr.trans hmain⟩
  | thrust cmds =>
    obtain ⟨hen, hmain⟩ := (State.outputsFit_running hk).mp hs
    obtain ⟨hen', -, hmain'⟩ := he.switches_of_acked (thrustApply_acked _ cmds)
    exact (State.outputsFit_running rfl).mpr ⟨hen'.trans hen, hmain'.trans hmain⟩

/-- `HardUnkill` switches thruster power on, `SoftUnkill` leaves it off, and thrust leaves it as it is. -/
theorem Cell.thrPwrByEntry {s : State} {tr : Transition} (hc : Cell s.cfg s.ks tr) (hs : s.OutputsFit) :
    ThrPwrByEntry s (s.take tr) := by
  have he := take_emitted s tr
  generalize hk : s.ks = k at hc
  cases hc with
  | hardKill => exact .of_not_running nofun
  | ignore =>
    rw [← hk, State.take_ignore]
    exact .of_same rfl rfl
  | hardUnkill =>
    refine ⟨fun _ _ => he.thrPwr, fun _ h => ?_, fun _ h => ?_⟩
    all_goals
      rw [hk] at h
      cases h
  | softKill => exact .of_not_running nofun
  | softUnkill =>
    obtain ⟨-, hoff, -⟩ := (State.outputsFit_softKilled hk).mp hs
    refine ⟨fun _ h => ?_, fun _ _ => he.thrPwr.trans hoff, fun _ h => ?_⟩
    all_goals
      rw [hk] at h
      cases h
  | thrust cmds => exact .of_same hk.symm (he.switches_of_acked (thrustApply_acked _ cmds)).2.1

/-- Actions that write allowed widths only keep the widths in range. -/
theorem Emitted.widthsInRange {s t : State} {as : List Action} (h : Emitted s t as) (hc : t.cfg = s.cfg)
    (ha : ∀ ch w, Action.pwmSet ch w ∈ as → Cfg.Allows s.cfg ch w) (hs : s.WidthsInRange) : t.WidthsInRange := by
  rw [widthsInRange_iff] at hs ⊢
  intro ch
  rw [hc, h.pw]
  exact widthAfter_allowed ha (hs ch)

theorem State.Sound.feed {s : State} (hs : s.Sound) (hw : s.cfg.wf = true) (e : Event) : (s.feed e).Sound :=
  have hc := fsm_cell s.cfg s.ks s.hallLast e
  ⟨hc.outputsFit hs.outputs, (take_emitted s _).widthsInRange (by simp) (hc.allowed hw) hs.widths⟩

theorem State.Sound.feedAll {s : State} (hs : s.Sound) (hw : s.cfg.wf = true) (es : List Event) :
    (s.feedAll es).Sound := by
  induction es generalizing s with
  | nil => exact hs
  | cons e es ih => exact ih (hs.feed hw e) (by simpa using hw)

theorem feed_thrPwrByEntry {s : State} (hs : s.Sound) (e : Event) : ThrPwrByEntry s (s.feed e) :=
  (fsm_cell s.cfg s.ks s.hallLast e).thrPwrByEntry hs.outputs

/-! Every handler keeps the invariant. -/

/-- No event of a hall sample leaves the machine in `Running` (spec/42_hall_interlock.md R124, R125). -/
theorem feed_hallEvent_not_running {prev cur : Hall} {e : Event} (he : e ∈ hallEvents prev cur) (s : State) :
    (s.feed e).ks ≠ .running := by
  have hkill : e = .onOffMagnetRemoved ∨ e = .softKillMagnetAsserted ∨ e = .goMagnetDeasserted := by
    simp only [hallEvents, List.mem_append, List.mem_ite_nil_right, List.mem_ite_nil_left, List.mem_singleton] at he
    tauto
  change (fsm s.cfg s.ks s.hallLast e).next ≠ .running
  obtain rfl | rfl | rfl := hkill
  · exact nofun
  all_goals cases s.ks <;> exact nofun

/-- A hall sample that feeds an event does not end in `Running`. -/
theorem feedAll_not_running {es : List Event} (h : ∀ e ∈ es, ∀ s : State, (s.feed e).ks ≠ .running) (hne : es ≠ [])
    (s : State) : (s.feedAll es).ks ≠ .running := by
  induction es generalizing s with
  | nil => exact absurd rfl hne
  | cons e es ih =>
    cases es with
    | nil => exact h e List.mem_cons_self s
    | cons e' es => exact ih (fun x hx => h x (List.mem_cons_of_mem _ hx)) (List.cons_ne_nil _ _) (s.feed e)

theorem txStatus_acked (c : Cfg) (es : List StatusEvent) : ∀ a ∈ es.map (txStatus c), a.hasAck = true := by
  intro a ha
  obtain ⟨e, -, rfl⟩ := List.mem_map.mp ha
  rfl

/-- What the invariant reads is the same in two states. -/
theorem State.Sound.congr {s t : State} (hs : s.Sound) (hk : t.ks = s.ks) (hpw : t.pw = s.pw)
    (hen : t.pwmEn = s.pwmEn) (hthr : t.thrPwr = s.thrPwr) (hmain : t.mainPwr = s.mainPwr) (hcfg : t.cfg = s.cfg) :
    t.Sound := by
  obtain ⟨ho, hr⟩ := hs
  constructor
  · simpa only [State.OutputsFit, State.PoweredDown, State.SoftStopped, State.Enabled, hk, hpw, hen, hthr, hmain,
      hcfg] using ho
  · simpa only [State.WidthsInRange, hpw, hcfg] using hr

/-- Frames write no pulse width. -/
theorem emitAll_txStatus_pw (es : List StatusEvent) (c : Cfg) (s : State) :
    (s.emitAll (es.map (txStatus c))).pw = s.pw := by
  induction es generalizing s with
  | nil => rfl
  | cons e es ih =>
    rw [List.map_cons, State.emitAll_cons, ih, State.emit_pw]
    rfl

/-- What a handler keeps: the invariant, and the rule on `thr_pwr`. -/
theorem afterStim_sound {s : State} (hs : s.Sound) (hw : s.cfg.wf = true) (st : Stimulus) :
    (afterStim st s).Sound ∧ ThrPwrByEntry s (afterStim st s) := by
  cases st with
  | rxFrame f _ =>
    simp only [afterStim, afterRx]
    split
    · cases decodeCmd s.cfg f.len.toNat f.data with
      | unrecognized => exact ⟨hs, .of_same rfl rfl⟩
      | killCommand k =>
        have hr : s.record.Sound := hs.congr rfl rfl rfl rfl rfl rfl
        exact ⟨hr.feed hw _, feed_thrPwrByEntry hr _⟩
      | thrust cmds cr hs' ua =>
        have hr : (s.record.setDiag cr hs' ua).Sound := hs.congr rfl rfl rfl rfl rfl rfl
        exact ⟨hr.feed hw _, feed_thrPwrByEntry hr _⟩
    · exact ⟨hs, .of_same rfl rfl⟩
  | hallSample raw _ =>
    have hr : State.Sound { s with hallLast := filtered s.cfg raw } := hs.congr rfl rfl rfl rfl rfl rfl
    refine ⟨hr.feedAll hw _, ?_⟩
    simp only [afterStim, handleHall]
    by_cases hnil : hallEvents s.hallLast (filtered s.cfg raw) = []
    · rw [hnil]
      exact .of_same rfl rfl
    · exact .of_not_running (feedAll_not_running (fun e he => feed_hallEvent_not_running he) hnil _)
  | wdTick _ =>
    simp only [afterStim, handleWdTick]
    split
    · exact ⟨hs.feed hw _, feed_thrPwrByEntry hs _⟩
    · exact ⟨hs, .of_same rfl rfl⟩
  | statusTick _ =>
    obtain ⟨hen, hthr, hmain⟩ := (emitAll_emitted _ s).switches_of_acked (txStatus_acked s.cfg (refreshList s))
    exact ⟨hs.congr (by simp [afterStim]) (emitAll_txStatus_pw _ _ _) hen hthr hmain (by simp [afterStim]),
      .of_same (by simp [afterStim]) hthr⟩

/-- Settles O41: a step that takes nothing changes nothing, and every handler keeps what R35 says. -/
theorem stepKeepsStateInvariant : Obligations.StepKeepsStateInvariant := by
  unfold Obligations.StepKeepsStateInvariant
  intro s u hinv h
  obtain ⟨hw, ⟨-, rfl⟩ | ⟨st, rest, -, -, rfl⟩⟩ := step_cases h
  · exact ⟨hinv, ThrPwrByEntry.of_same rfl rfl⟩
  · have hacc : (s.accept st rest).Sound := ⟨hinv.outputs, hinv.widths⟩
    obtain ⟨hend, hthr⟩ := afterStim_sound hacc hw st
    exact ⟨⟨hend.outputs, hend.widths, rfl⟩, hthr⟩

/-! Reset. -/

/-- Settles O42: every width is neutral, and neutral is in range under a well-formed configuration. -/
theorem resetEstablishesInvariant : Obligations.ResetEstablishesInvariant := by
  unfold Obligations.ResetEstablishesInvariant
  intro c hw
  refine ⟨⟨rfl, rfl, rfl, allNeutral_get c⟩, ?_, rfl⟩
  rw [widthsInRange_iff]
  intro ch
  change Cfg.Allows c ch (c.allNeutral.get ch)
  rw [allNeutral_get]
  exact allows_neutral hw ch

theorem resetWith_hasResetValues (c : Cfg) : (State.resetWith c).HasResetValues :=
  ⟨rfl, allNeutral_get c, rfl, rfl, rfl, rfl, rfl, rfl, rfl, rfl, rfl, rfl, rfl, rfl, rfl⟩

/-- A reset between two steps leaves the registers of a power cycle (spec/70_reset_and_hazards.md R200). -/
theorem applyReset_hasResetValues (s : State) : s.applyReset.HasResetValues := by
  obtain ⟨ks, pw, pwmEn, thrPwr, mainPwr, lastOk, soft, go, onoff, wdLast, diagCr, diagHs, diagUa, ordq, busy⟩ :=
    resetWith_hasResetValues s.cfg
  exact ⟨ks, pw, pwmEn, thrPwr, mainPwr, lastOk, soft, go, onoff, wdLast, diagCr, diagHs, diagUa, ordq, busy⟩

/-- Settles O47: a reset between two steps keeps the configuration and the trace and leaves what a power cycle leaves. -/
theorem resetLeavesTheResetValues : Obligations.ResetLeavesTheResetValues := by
  unfold Obligations.ResetLeavesTheResetValues
  intro s
  exact ⟨resetWith_hasResetValues s.cfg, rfl, rfl, applyReset_hasResetValues s, rfl, rfl⟩

end Sys2Proof.Machine
end

section
/-! PROOFS. The pin-level statements of spec/10_state.md about a single clock: the arrival-order queue, the readies, the
offers, the delay, and the output ports. -/

namespace Sys2Proof.Machine

/-! The clocks outside a cycle. -/

/-- A clock on which an idle machine takes nothing changes the queue only. -/
theorem clock_idle {p : PinState} {i : PinIn} (hr : i.rst = false) (hidle : p.core.busy = false)
    (ha : accepting p i = none) : clock p i = { p with ordq := p.ordq ++ newEntries p.ordq i } := by
  unfold clock
  rw [hr, ha, hidle]
  rfl

theorem clock_reset {p : PinState} {i : PinIn} (hr : i.rst = true) : clock p i = pinReset p := by
  unfold clock
  rw [if_pos hr]

/-! The arrival-order queue (spec/10_state.md R33 (a), R37). -/

/-- A clock takes at most the head of the queue away and appends the new entries. -/
theorem clock_ordq {p : PinState} {i : PinIn} (hr : i.rst = false) :
    (clock p i).ordq = (if (accepting p i).isSome then p.ordq.tail else p.ordq) ++ newEntries p.ordq i := by
  cases ha : accepting p i with
  | some e =>
    obtain ⟨src, t, st⟩ := e
    rw [clock_accept hr ha]
    rfl
  | none =>
    cases hb : p.core.busy with
    | true =>
      rw [clock_busy hb hr]
      rfl
    | false =>
      rw [clock_idle hr hb ha]
      rfl

/-- A new entry is a source whose valid is 1 and that does not wait in the queue, with the present time. -/
theorem mem_newEntries {q : List (Source × Time)} {i : PinIn} {src : Source} {t : Time} :
    (src, t) ∈ newEntries q i ↔ i.valid src = true ∧ src ∉ q.map Prod.fst ∧ t = i.now := by
  have hall : src ∈ Source.all := by cases src <;> decide
  simp only [newEntries, List.mem_map, List.mem_filter, offered_isSome, Bool.and_eq_true, Bool.not_eq_true',
    List.any_eq_false, beq_iff_eq, Prod.mk.injEq]
  constructor
  · rintro ⟨src', ⟨-, hv, hq⟩, rfl, rfl⟩
    exact ⟨hv, fun ⟨e, he, hfst⟩ => hq e he hfst, rfl⟩
  · rintro ⟨hv, hq, rfl⟩
    exact ⟨src, ⟨hall, hv, fun e he hfst => hq ⟨e, he, hfst⟩⟩, rfl, rfl⟩

theorem newEntries_nodup (q : List (Source × Time)) (i : PinIn) : ((newEntries q i).map Prod.fst).Nodup := by
  have hfst : (newEntries q i).map Prod.fst =
      Source.all.filter fun src => (offered i src i.now).isSome && !(q.any fun e => e.1 == src) := by
    simp [newEntries, Function.comp_def]
  rw [hfst]
  exact List.Nodup.filter _ (by decide)

/-- Four sources: a queue that holds none twice has at most four entries. -/
theorem length_le_four_of_nodup {q : List (Source × Time)} (h : (q.map Prod.fst).Nodup) : q.length ≤ 4 := by
  have hsub : q.map Prod.fst ⊆ Source.all := fun src _ => by cases src <;> decide
  have hlen := (h.subperm hsub).length_le
  rwa [List.length_map] at hlen

theorem clock_ordq_nodup {p : PinState} (h : (p.ordq.map Prod.fst).Nodup) (i : PinIn) :
    ((clock p i).ordq.map Prod.fst).Nodup := by
  cases hr : i.rst with
  | true =>
    rw [clock_reset hr]
    exact List.nodup_nil
  | false =>
    rw [clock_ordq hr, List.map_append]
    generalize hkept : (if (accepting p i).isSome then p.ordq.tail else p.ordq) = kept
    have hsub : kept.Sublist p.ordq := by
      rw [← hkept]
      split
      · exact List.tail_sublist _
      · exact List.Sublist.refl _
    refine List.nodup_append.mpr ⟨(hsub.map _).nodup h, newEntries_nodup _ _, fun src hk src' hn => ?_⟩
    rintro rfl
    obtain ⟨⟨src', t⟩, he, rfl⟩ := List.mem_map.mp hn
    exact (mem_newEntries.mp he).2.1 ((hsub.map _).subset hk)

/-- Settles O49: what is new does not wait in the queue, so no entry repeats a source. -/
theorem pinQueueHoldsEachSourceOnce : Obligations.PinQueueHoldsEachSourceOnce := by
  unfold Obligations.PinQueueHoldsEachSourceOnce
  intro p i h
  exact ⟨clock_ordq_nodup h i, length_le_four_of_nodup (clock_ordq_nodup h i)⟩

/-! The readies (spec/10_state.md R33 (b), R36, R37). -/

theorem pinOut_ready (p : PinState) (i : PinIn) (src : Source) : (pinOut p i).ready src = taking p i src := by
  cases src <;> rfl

/-- A transfer is out of reset, and with the source that is accepted. -/
theorem taking_iff {p : PinState} {i : PinIn} {src : Source} :
    taking p i src = true ↔ i.rst = false ∧ ∃ t st, accepting p i = some (src, t, st) := by
  unfold taking
  rw [Bool.and_eq_true, Bool.not_eq_true']
  refine and_congr_right fun _ => ?_
  split
  · next src' t st ha =>
    rw [beq_iff_eq]
    constructor
    · rintro rfl
      exact ⟨t, st, ha⟩
    · rintro ⟨t', st', ha'⟩
      rw [ha] at ha'
      injection ha' with he
      injection he
  · next ha => simp [ha]

/-- The head of the queue of an idle machine is accepted while its valid is 1. -/
theorem accepting_of_head {p : PinState} {i : PinIn} {src : Source} {t : Time} {rest : List (Source × Time)}
    (hidle : p.core.busy = false) (hq : p.ordq = (src, t) :: rest) (hv : i.valid src = true) :
    ∃ st, accepting p i = some (src, t, st) := by
  rw [← offered_isSome i src t] at hv
  obtain ⟨st, ho⟩ := Option.isSome_iff_exists.mp hv
  refine ⟨st, ?_⟩
  unfold accepting
  rw [hidle, hq]
  simp [ho]

/-- A source is taken exactly while it is valid and at the head of the queue of an idle machine out of reset. -/
theorem taking_iff_head {p : PinState} {i : PinIn} {src : Source} :
    taking p i src = true ↔
      i.rst = false ∧ p.core.busy = false ∧ i.valid src = true ∧ ∃ t rest, p.ordq = (src, t) :: rest := by
  rw [taking_iff]
  refine and_congr_right fun _ => ⟨?_, ?_⟩
  · rintro ⟨t, st, ha⟩
    obtain ⟨hidle, ⟨rest, hq⟩, ho⟩ := accepting_spec ha
    have hv : i.valid src = true := by rw [← offered_isSome i src t, ho]; rfl
    exact ⟨hidle, hv, t, rest, hq⟩
  · rintro ⟨hidle, hv, t, rest, hq⟩
    obtain ⟨st, ha⟩ := accepting_of_head hidle hq hv
    exact ⟨t, st, ha⟩

/-- A machine in the middle of a cycle takes nothing. -/
theorem taking_busy {p : PinState} (hb : p.core.busy = true) (i : PinIn) (src : Source) : taking p i src = false := by
  rw [Bool.eq_false_iff]
  intro h
  obtain ⟨-, hidle, -⟩ := taking_iff_head.mp h
  rw [hb] at hidle
  cases hidle

/-- No two sources are taken on one clock. -/
theorem taking_unique {p : PinState} {i : PinIn} {src src' : Source} (h : taking p i src = true)
    (h' : taking p i src' = true) : src' = src := by
  obtain ⟨-, -, -, t, rest, hq⟩ := taking_iff_head.mp h
  obtain ⟨-, -, -, t', rest', hq'⟩ := taking_iff_head.mp h'
  rw [hq] at hq'
  injection hq' with he
  injection he with hsrc
  exact hsrc.symm

/-- Accepting a stimulus writes neither the arrival time, nor `last_ok`, nor the AND of the cycle that begins. -/
theorem intake_keeps (st : Stimulus) (s : State) :
    (intake st s).1.arrival = s.arrival ∧ (intake st s).1.lastOk = s.lastOk ∧ (intake st s).1.cycOk = s.cycOk := by
  cases st with
  | rxFrame f t =>
    simp only [intake]
    split
    · cases decodeCmd s.cfg f.len.toNat f.data <;> exact ⟨rfl, rfl, rfl⟩
    · exact ⟨rfl, rfl, rfl⟩
  | hallSample raw t => exact ⟨rfl, rfl, rfl⟩
  | wdTick t => exact ⟨rfl, rfl, rfl⟩
  | statusTick t => exact ⟨rfl, rfl, rfl⟩

/-- The cycle of the stimulus taken runs with the time its entry recorded. -/
theorem clock_arrival_of_taking {p : PinState} {i : PinIn} {src : Source} {t : Time} {rest : List (Source × Time)}
    (h : taking p i src = true) (hq : p.ordq = (src, t) :: rest) : (clock p i).core.arrival = t := by
  obtain ⟨hr, hidle, hv, -⟩ := taking_iff_head.mp h
  obtain ⟨st, ha⟩ := accepting_of_head hidle hq hv
  rw [clock_accept hr ha, (intake_keeps _ _).1, State.beginCycle_arrival]

theorem clock_busy_of_taking {p : PinState} {i : PinIn} {src : Source} (h : taking p i src = true) :
    (clock p i).core.busy = true := by
  obtain ⟨hr, t, st, ha⟩ := taking_iff.mp h
  exact clock_accept_busy hr ha

/-- Settles O50, from when a source is taken (`taking_iff_head`) and what a clock does to the queue (`clock_ordq`). -/
theorem pinReadyOnlyForTheHeadOfAnIdleQueue : Obligations.PinReadyOnlyForTheHeadOfAnIdleQueue := by
  unfold Obligations.PinReadyOnlyForTheHeadOfAnIdleQueue
  intro p i src
  simp only [pinOut_ready]
  refine ⟨taking_iff_head, trivial, fun h => ⟨clock_busy_of_taking h, ?_, ?_, ?_⟩, fun hr hv hnew => ?_⟩
  · intro j src'
    exact taking_busy (clock_busy_of_taking h) j src'
  · intro src' hne
    exact Bool.eq_false_iff.mpr fun h' => hne (taking_unique h h')
  · intro t rest hq
    exact clock_arrival_of_taking h hq
  · rw [clock_ordq hr]
    exact List.mem_append_right _ (mem_newEntries.mpr ⟨hv, hnew, rfl⟩)

/-! The offers (spec/10_state.md R36, R37). -/

theorem txOffer_eq_some_iff {p : PinState} {i : PinIn} {g : FramePort} :
    txOffer p i = some g ↔
      i.rst = false ∧ p.core.busy = true ∧ ∃ f rest, p.plan = .act (.tx f) :: rest ∧ toPort f = g := by
  unfold txOffer
  cases i.rst
  · cases p.core.busy
    · simp
    · simp only [Bool.not_true, Bool.or_false, Bool.false_eq_true, if_false, true_and]
      split
      · next f rest hp => simp [hp]
      · next hp =>
        simp only [reduceCtorEq, false_iff]
        rintro ⟨f, rest, hp', -⟩
        exact hp f rest hp'
  · simp

theorem pwmSetOffer_eq_some_iff {p : PinState} {i : PinIn} {g : BitVec 3 × Width} :
    pwmSetOffer p i = some g ↔
      i.rst = false ∧ p.core.busy = true ∧
        ∃ ch w rest, p.plan = .act (.pwmSet ch w) :: rest ∧ (BitVec.ofFin ch, w) = g := by
  unfold pwmSetOffer
  cases i.rst
  · cases p.core.busy
    · simp
    · simp only [Bool.not_true, Bool.or_false, Bool.false_eq_true, if_false, true_and]
      split
      · next ch w rest hp => simp [hp]
      · next hp =>
        simp only [reduceCtorEq, false_iff]
        rintro ⟨ch, w, rest, hp', -⟩
        exact hp ch w rest hp'
  · simp

/-- A clock on which the position does not move leaves all but the queue as it was. -/
theorem clock_of_advance_eq {p : PinState} {i : PinIn} (hb : p.core.busy = true) (hr : i.rst = false)
    (h : advance p i = p) :
    (clock p i).core = p.core ∧ (clock p i).plan = p.plan ∧ (clock p i).delayFrom = p.delayFrom := by
  rw [clock_busy hb hr, h]
  exact ⟨rfl, rfl, rfl⟩

/-- A frame offered and not taken holds the position. -/
theorem advance_tx_waiting {p : PinState} {i : PinIn} {f : Frame} {rest : List Micro}
    (hp : p.plan = .act (.tx f) :: rest) (h : i.txReady = false) : advance p i = p := by
  unfold advance
  simp [hp, h]

/-- A pulse-width write offered and not taken holds the position. -/
theorem advance_pwmSet_waiting {p : PinState} {i : PinIn} {ch : Channel} {w : Width} {rest : List Micro}
    (hp : p.plan = .act (.pwmSet ch w) :: rest) (h : i.pwmSetReady = false) : advance p i = p := by
  unfold advance
  simp [hp, h]

/-- Settles O52: a position that waits for its transfer does not move, and the offer is read off the position. -/
theorem pinOffersAreHeldUntilTaken : Obligations.PinOffersAreHeldUntilTaken := by
  unfold Obligations.PinOffersAreHeldUntilTaken
  intro p i j hri hrj
  constructor
  · intro g hoff hready
    obtain ⟨-, hb, f, rest, hp, hg⟩ := txOffer_eq_some_iff.mp hoff
    obtain ⟨hcore, hplan, -⟩ := clock_of_advance_eq hb hri (advance_tx_waiting hp hready)
    rw [txOffer_eq_some_iff, hcore, hplan]
    exact ⟨hrj, hb, f, rest, hp, hg⟩
  · intro g hoff hready
    obtain ⟨-, hb, ch, w, rest, hp, hg⟩ := pwmSetOffer_eq_some_iff.mp hoff
    obtain ⟨hcore, hplan, -⟩ := clock_of_advance_eq hb hri (advance_pwmSet_waiting hp hready)
    rw [pwmSetOffer_eq_some_iff, hcore, hplan]
    exact ⟨hrj, hb, ch, w, rest, hp, hg⟩

/-! The delay (spec/10_state.md R38): one equation of `advance` per clause. -/

section Delay

variable {p : PinState} {i : PinIn} {d : Nat} {rest : List Micro}

theorem advance_delay_begins (hp : p.plan = .act (.delay d) :: rest) (hd : p.delayFrom = none)
    (hs : i.stall = false) :
    advance p i = { p with core := p.core.apply (.delay d), delayFrom := some i.now } := by
  unfold advance
  simp [hp, hd, hs]

theorem advance_delay_waits {t0 : Time} (hp : p.plan = .act (.delay d) :: rest) (hd : p.delayFrom = some t0)
    (ht : elapsed i.now t0 < d) : advance p i = p := by
  unfold advance
  simp [hp, hd, ht]

theorem advance_delay_ends {t0 : Time} (hp : p.plan = .act (.delay d) :: rest) (hd : p.delayFrom = some t0)
    (ht : d ≤ elapsed i.now t0) (hs : i.stall = false) :
    advance p i = { p with delayFrom := none, plan := rest } := by
  unfold advance
  simp [hp, hd, hs, Nat.not_lt.mpr ht]

theorem advance_delay_stalls (hp : p.plan = .act (.delay d) :: rest) (hs : i.stall = true) : advance p i = p := by
  unfold advance
  cases hd : p.delayFrom <;> simp [hp, hs]

end Delay

/-- Settles O53, clause by clause. -/
theorem pinDelayBlocksUntilItsTime : Obligations.PinDelayBlocksUntilItsTime := by
  unfold Obligations.PinDelayBlocksUntilItsTime
  intro p i d rest hr hb hp
  refine ⟨taking_busy hb i, fun hd hs => ?_, fun t0 hd ht => ?_, fun t0 hd ht hs => ?_, fun hs => ?_⟩
  · rw [clock_busy hb hr, advance_delay_begins hp hd hs]
    exact ⟨rfl, rfl, rfl⟩
  · rw [← hd]
    exact clock_of_advance_eq hb hr (advance_delay_waits hp hd ht)
  · rw [clock_busy hb hr, advance_delay_ends hp hd ht hs]
    exact ⟨rfl, rfl, rfl⟩
  · exact clock_of_advance_eq hb hr (advance_delay_stalls hp hs)

/-! The output ports (spec/10_state.md R21, R32, R36). -/

theorem ksCode_injective : Function.Injective ksCode := by
  intro k k' h
  cases k <;> cases k' <;> simp [ksCode] at h ⊢

theorem ksCode_ne_three (k : KillState) : ksCode k ≠ 0b11 := by
  cases k <;> decide

theorem hallLevel_bits (h : Hall) :
    (hallLevel h).getLsbD 0 = h.soft ∧ (hallLevel h).getLsbD 1 = h.go ∧ (hallLevel h).getLsbD 2 = h.onoff := by
  obtain ⟨soft, go, onoff⟩ := h
  cases soft <;> cases go <;> cases onoff <;> decide

/-- A byte below the topmost one is a byte of the rest. -/
theorem append_below {w s : Nat} {hi b : Byte} {lo : BitVec w} (hb : lo.extractLsb' s 8 = b)
    (h : s + 8 ≤ w := by decide) : (hi ++ lo).extractLsb' s 8 = b :=
  (BitVec.extractLsb'_append_eq_of_add_le h).trans hb

/-- Payload byte `k` stands at bits `[8k+7:8k]` of the port (spec/20_memory.md R54): `7 - k` bytes stand above it. -/
theorem pack_byte (d : Payload) (k : Fin 8) : d.pack.extractLsb' (8 * k.val) 8 = d.get k := by
  have top {w : Nat} {hi : Byte} {lo : BitVec w} : (hi ++ lo).extractLsb' w 8 = hi := BitVec.extractLsb'_append_eq_left
  have bottom : (d.a1 ++ d.a0).extractLsb' 0 8 = d.a0 := BitVec.extractLsb'_append_eq_right
  unfold Payload.pack
  fin_cases k
  · exact append_below (append_below (append_below (append_below (append_below (append_below bottom)))))
  · exact append_below (append_below (append_below (append_below (append_below (append_below top)))))
  · exact append_below (append_below (append_below (append_below (append_below top))))
  · exact append_below (append_below (append_below (append_below top)))
  · exact append_below (append_below (append_below top))
  · exact append_below (append_below top)
  · exact append_below top
  · exact top

/-- A 64-bit value is determined by its eight bytes. -/
theorem eq_of_bytes_eq {v w : BitVec 64} (h : ∀ k : Fin 8, v.extractLsb' (8 * k.val) 8 = w.extractLsb' (8 * k.val) 8) :
    v = w := by
  apply BitVec.eq_of_getLsbD_eq
  intro j hj
  have hbyte := congrArg (fun b => b.getLsbD (j % 8)) (h ⟨j / 8, by omega⟩)
  have hmod : j % 8 < 8 := Nat.mod_lt _ (by decide)
  simpa [BitVec.getLsbD_extractLsb', hmod, Nat.div_add_mod] using hbyte

/-- A port carries frame `f` exactly when it shows its identifier, its length, and every byte at its place. -/
theorem toPort_eq_iff {f : Frame} {g : FramePort} :
    toPort f = g ↔ g.id = f.id ∧ g.len = f.len ∧ ∀ k : Fin 8, g.data.extractLsb' (8 * k.val) 8 = f.data.get k := by
  constructor
  · rintro rfl
    exact ⟨rfl, rfl, pack_byte f.data⟩
  · obtain ⟨id, len, data⟩ := g
    rintro ⟨rfl, rfl, hdata⟩
    have hpack : f.data.pack = data := eq_of_bytes_eq fun k => by rw [pack_byte, hdata]
    rw [toPort, hpack]

/-- A channel number on its port. -/
theorem ofFin_eq_iff {ch : Channel} {c : BitVec 3} : BitVec.ofFin ch = c ↔ c.toNat = ch.val := by
  constructor
  · rintro rfl
    rfl
  · intro h
    exact BitVec.eq_of_toNat_eq h.symm

/-- Settles O56: the ports are read off the registers, the offers off the plan. -/
theorem pinOutputsShowTheRegisters : Obligations.PinOutputsShowTheRegisters := by
  unfold Obligations.PinOutputsShowTheRegisters
  intro p i
  obtain ⟨hsoft, hgo, honoff⟩ := hallLevel_bits p.core.hallLast
  have hcode : ∀ k, ksCode p.core.ks = ksCode k ↔ p.core.ks = k := fun k => ksCode_injective.eq_iff
  refine ⟨rfl, rfl, rfl, rfl, rfl, rfl, rfl, rfl, rfl, hcode .hardKilled, hcode .softKilled, hcode .running,
    ksCode_ne_three _, hsoft, hgo, honoff, fun g => ?_, fun c w => ?_⟩
  · change txOffer p i = some g ↔ _
    simp only [txOffer_eq_some_iff, toPort_eq_iff]
  · change pwmSetOffer p i = some (c, w) ↔ _
    rw [pwmSetOffer_eq_some_iff]
    refine and_congr_right fun _ => and_congr_right fun _ => ⟨?_, ?_⟩
    · rintro ⟨ch, w', rest, hp, he⟩
      injection he with hc hw
      subst hw
      exact ⟨ch, rest, hp, ofFin_eq_iff.mp hc⟩
    · rintro ⟨ch, rest, hp, hc⟩
      exact ⟨ch, w, rest, hp, by rw [ofFin_eq_iff.mpr hc]⟩

end Sys2Proof.Machine
end

section
/-! PROOFS. The pin-level statements of spec/10_state.md about whole cycles: the position inside the cycle stays
consistent, and `last_ok` is written at the end of the cycle only. Both by what a clock inside a cycle can do (`Advances`). -/

namespace Sys2Proof.Machine

/-! The position inside the cycle (spec/10_state.md R33 (b), R38, R40). -/

/-- An idle machine with nothing left to do and no delay running fits. -/
theorem PinState.fits_of_idle {p : PinState} (hp : p.plan = []) (hd : p.delayFrom = none) : p.Fits :=
  ⟨fun h => absurd hd h, fun _ => hp⟩

/-- Every clock keeps that the position fits, whatever it does: reset, take a stimulus, wait idle, or advance. -/
theorem clock_fits {p : PinState} (hf : p.Fits) (i : PinIn) : (clock p i).Fits := by
  cases hr : i.rst with
  | true =>
    rw [clock_reset hr]
    exact PinState.fits_of_idle rfl rfl
  | false =>
    cases hb : p.core.busy with
    | true => exact clock_fits_of_busy hf hb hr
    | false =>
      cases ha : accepting p i with
      | some e => exact clock_accept_fits hr ha
      | none =>
        rw [clock_idle hr hb ha]
        exact ⟨hf.delay, hf.idle⟩

/-- Settles O57: reset leaves an empty plan, and `clock_fits` is the step. -/
theorem pinClockKeepsItsPlanFitting : Obligations.PinClockKeepsItsPlanFitting := by
  unfold Obligations.PinClockKeepsItsPlanFitting
  exact ⟨PinState.fits_of_idle rfl rfl, fun p i hf => clock_fits hf i⟩

/-! `last_ok` and the acks sampled (spec/10_state.md R27, R39). -/

/-- Inside a cycle the AND so far takes exactly the acks sampled, `last_ok` is kept while the cycle lasts, and where it
ends `last_ok` becomes the AND. -/
theorem Advances.acks {p q : PinState} {bs : List Bool} (h : Advances p q bs) (hb : p.core.busy = true) :
    q.core.cycOk = (p.core.cycOk && bs.all id) ∧ (q.core.busy = true → q.core.lastOk = p.core.lastOk) ∧
      (q.core.busy = false → q.core.lastOk = q.core.cycOk) := by
  cases h with
  | wait => simp [hb]
  | close hp => simp
  | feed e rest hp => simp [hb]
  | commit k rest hp => simp [hb]
  | plain a rest hp ha hnd => simp [hb]
  | acked a rest ok hp ha => simp [hb]
  | delayBegins d rest t0 hp hd => simp [hb]
  | delayEnds d rest t0 hp hd => simp [hb]

theorem clock_acks_of_busy {p : PinState} {i : PinIn} (hb : p.core.busy = true) (hr : i.rst = false) :
    (clock p i).core.cycOk = (p.core.cycOk && (clockAcks p i).all id) ∧
      ((clock p i).core.busy = true → (clock p i).core.lastOk = p.core.lastOk) ∧
      ((clock p i).core.busy = false → (clock p i).core.lastOk = (clock p i).core.cycOk) := by
  rw [clock_busy hb hr]
  exact (advance_spec hb hr).acks hb

/-- A cycle clock by clock: `last_ok` is kept before its end, and at its end is the AND of what the cycle had and of the
acks sampled since. -/
theorem clocks_lastOk (is : List PinIn) (p : PinState) (hr : ∀ j ∈ is, j.rst = false)
    (hb : ∀ k, k < is.length → (clocks p (is.take k)).core.busy = true)
    (hend : p.core.busy = false → p.core.lastOk = p.core.cycOk) :
    (∀ k, k < is.length → (clocks p (is.take k)).core.lastOk = p.core.lastOk) ∧
      ((clocks p is).core.busy = false → (clocks p is).core.lastOk = (p.core.cycOk && (sampledAcks p is).all id)) := by
  induction is generalizing p with
  | nil => exact ⟨fun k hk => absurd hk (Nat.not_lt_zero k), fun h => by simpa [sampledAcks, clocks] using hend h⟩
  | cons i rest ih =>
    have hb0 : p.core.busy = true := hb 0 (Nat.zero_lt_succ _)
    obtain ⟨hcyc, hkept, hclose⟩ := clock_acks_of_busy hb0 (hr i List.mem_cons_self)
    have hb' : ∀ k, k < rest.length → (clocks (clock p i) (rest.take k)).core.busy = true :=
      fun k hk => hb (k + 1) (Nat.succ_lt_succ hk)
    obtain ⟨hbefore, hafter⟩ := ih (clock p i) (fun j hj => hr j (List.mem_cons_of_mem _ hj)) hb' hclose
    constructor
    · intro k hk
      cases k with
      | zero => rfl
      | succ k =>
        have hk' : k < rest.length := Nat.lt_of_succ_lt_succ hk
        calc (clocks p ((i :: rest).take (k + 1))).core.lastOk
            = (clock p i).core.lastOk := hbefore k hk'
          _ = p.core.lastOk := hkept (hb' 0 (Nat.zero_lt_of_lt hk'))
    · intro h
      calc (clocks p (i :: rest)).core.lastOk
          = ((clock p i).core.cycOk && (sampledAcks (clock p i) rest).all id) := hafter h
        _ = (p.core.cycOk && (sampledAcks p (i :: rest)).all id) := by
          rw [hcyc, sampledAcks, List.all_append, Bool.and_assoc]

/-- Settles O59: the AND is 1 when the stimulus is accepted. -/
theorem pinLastOkIsTheAndOfTheSampledAcks : Obligations.PinLastOkIsTheAndOfTheSampledAcks := by
  unfold Obligations.PinLastOkIsTheAndOfTheSampledAcks
  intro p i is src t st hr ha hrs hbusy
  obtain ⟨-, hlast, hcyc⟩ := intake_keeps st (p.core.beginCycle t)
  have hlast' : (clock p i).core.lastOk = p.core.lastOk := by rw [clock_accept hr ha, hlast, State.beginCycle_lastOk]
  have hcyc' : (clock p i).core.cycOk = true := by rw [clock_accept hr ha, hcyc, State.beginCycle_cycOk]
  obtain ⟨hbefore, hafter⟩ := clocks_lastOk is (clock p i) hrs hbusy fun h => by
    rw [clock_accept_busy hr ha] at h
    cases h
  rw [hlast'] at hbefore
  rw [hcyc', Bool.true_and] at hafter
  exact ⟨hbefore, hafter⟩

end Sys2Proof.Machine
end

section
/-! PROOFS. The statement of spec/20_memory.md about the 64-bit data ports: a port and a payload are each determined by
their eight bytes, and packing and unpacking both leave every byte at its place. -/

namespace Sys2Proof.Machine

/-- Byte `k` of the payload a port holds is bits `[8k+7:8k]` of the port (spec/20_memory.md R54). -/
theorem unpack_get (w : BitVec 64) (k : Fin 8) : (Payload.unpack w).get k = w.extractLsb' (8 * k.val) 8 := by
  fin_cases k <;> rfl

theorem unpack_pack (p : Payload) : Payload.unpack p.pack = p :=
  Eight.ext_get fun k => (unpack_get p.pack k).trans (pack_byte p k)

theorem pack_unpack (w : BitVec 64) : (Payload.unpack w).pack = w :=
  eq_of_bytes_eq fun k => (pack_byte (Payload.unpack w) k).trans (unpack_get w k)

/-- Settles O9: every byte is at its place (`pack_byte`), so each way back gives all eight bytes again. -/
theorem dataPortCarriesThePayload : Obligations.DataPortCarriesThePayload := by
  unfold Obligations.DataPortCarriesThePayload
  exact ⟨pack_byte, unpack_pack, pack_unpack⟩

end Sys2Proof.Machine
end

section
/-! PROOFS. The rows of spec/30_encoding.md: each decoder is characterised once by the frames it recognises (the
kill and status literals, the configured thrust formats), the frame of a row is given by the group the row belongs to,
and each statement compares the two. -/

namespace Sys2Proof.Machine

/-! The literals of the kill and the status group (spec/30_encoding.md R71, R72). -/

/-- The payload bytes of a kill command, as `statusBytes` has them for a status event. -/
def killBytes (k : KillCmd) : List Byte :=
  match k with
  | .hardKill => litKCHA
  | .softKill => litKCSA
  | .hardUnkill => litKCHU
  | .softUnkill => litKCSU

theorem encode_killInstr (k : KillCmd) : encode (killInstr k) = (5, Payload.ofBytes (killBytes k)) := by
  cases k <;> rfl

theorem encode_statusInstr (e : StatusEvent) :
    encode (statusInstr e) = ((statusBytes e).length, Payload.ofBytes (statusBytes e)) := by
  cases e <;> rfl

theorem take_bytes_ofBytes_killBytes (k : KillCmd) : (Payload.ofBytes (killBytes k)).bytes.take 5 = killBytes k := by
  cases k <;> rfl

theorem take_bytes_ofBytes_statusBytes (e : StatusEvent) :
    (Payload.ofBytes (statusBytes e)).bytes.take (statusBytes e).length = statusBytes e := by
  cases e <;> rfl

theorem a0_of_take_eq_killBytes {d : Payload} {k : KillCmd} (h : d.bytes.take 5 = killBytes k) : d.a0 = 0x4B := by
  have hhead := congrArg List.head? h
  cases k <;> exact Option.some.inj hhead

theorem mem_killLiterals_iff {l : List Byte} : l ∈ [litKCHA, litKCSA, litKCHU, litKCSU] ↔ ∃ k, l = killBytes k := by
  simp only [List.mem_cons, List.not_mem_nil, or_false]
  constructor
  · rintro (h | h | h | h)
    exacts [⟨.hardKill, h⟩, ⟨.softKill, h⟩, ⟨.hardUnkill, h⟩, ⟨.softUnkill, h⟩]
  · rintro ⟨k, rfl⟩
    cases k <;> simp [killBytes]

theorem killBytes_ne_statusBytes (k : KillCmd) (e : StatusEvent) : killBytes k ≠ statusBytes e := by
  cases k <;> cases e <;> decide

/-- The kill decoder matches length and bytes exactly (spec/40_can_codec.md R95). -/
theorem decodeKill_eq_killCommand_iff {len : Nat} {d : Payload} {k : KillCmd} :
    decodeKill len d = .killCommand k ↔ len = 5 ∧ d.bytes.take 5 = killBytes k := by
  constructor
  · intro h
    unfold decodeKill at h
    split at h
    · cases h
    · next hlen =>
      refine ⟨not_not.mp hlen, ?_⟩
      simp only [Payload.startsWith, decide_eq_true_eq] at h
      repeat' split at h
      all_goals cases h
      all_goals assumption
  · rintro ⟨rfl, h⟩
    cases k <;> simp [decodeKill, Payload.startsWith, h, killBytes, litKCHA, litKCSA, litKCHU, litKCSU]

/-- The status decoder matches length and bytes exactly (spec/40_can_codec.md R96). -/
theorem decodeStatus_eq_some_iff {len : Nat} {d : Payload} {e : StatusEvent} :
    decodeStatus len d = some e ↔
      len = (statusBytes e).length ∧ d.bytes.take (statusBytes e).length = statusBytes e := by
  constructor
  · intro h
    simp only [decodeStatus, Payload.startsWith, decide_eq_true_eq] at h
    repeat' split at h
    all_goals cases h
    all_goals assumption
  · rintro ⟨rfl, h⟩
    cases e <;>
      simp [decodeStatus, Payload.startsWith, statusBytes, litKRHA, litKRSA, litKRHU, litKRSU, litGA, litGU] at h ⊢ <;>
      simp [h]

/-- A kill frame is recognised under every configuration: its class comes before the thrust formats (R93). -/
theorem decodeCmd_eq_killCommand_iff {c : Cfg} {len : Nat} {d : Payload} {k : KillCmd} :
    decodeCmd c len d = .killCommand k ↔ len = 5 ∧ d.bytes.take 5 = killBytes k := by
  rw [← decodeKill_eq_killCommand_iff]
  constructor
  · intro h
    rcases decodeCmd_cases c len d with hc | ⟨k', hc, -, hk⟩ | ⟨f, -, -, -, -, -, -, -, hc⟩
    · cases hc.symm.trans h
    · cases hc.symm.trans h; exact hk
    · cases hc.symm.trans h
  · intro h
    obtain ⟨rfl, hd⟩ := decodeKill_eq_killCommand_iff.mp h
    simp [decodeCmd, a0_of_take_eq_killBytes hd, h]

/-! The configured thrust formats and the two formats of the table's rows (spec/30_encoding.md R74, R75). -/

/-- The three auxiliary bytes take three offsets, and none of them is 0. -/
theorem four_le_len_of_wf {c : Cfg} (hw : c.wf = true) {f : ThrustFormat} (hf : f ∈ c.thrustFormats) : 4 ≤ f.len := by
  obtain ⟨-, -, -, hnodup, hinside⟩ := format_of_wf hw hf
  obtain ⟨-, haux, -⟩ := List.nodup_append.mp hnodup
  have hmem : ∀ k ∈ [f.crOff, f.hsOff, f.uaOff], k ∈ f.offsets := fun k hk => List.mem_append_right _ hk
  have hcr := hinside f.crOff (hmem _ (by simp))
  have hhs := hinside f.hsOff (hmem _ (by simp))
  have hua := hinside f.uaOff (hmem _ (by simp))
  simp only [List.nodup_cons, List.mem_cons, List.not_mem_nil, Fin.ext_iff, ne_eq,
    Fin.val_zero] at haux hcr hhs hua
  omega

/-- The two formats `thrustInstr` names. -/
theorem thrustInstr_eq_some_iff {f : ThrustFormat} {d : Payload} {i : Instr} :
    thrustInstr f d = some i ↔
      f = ThrustFormat.h ∧ i = .thrustH d.a1 d.a2 d.a3 d.a4 d.a5 d.a6 d.a7 ∨
        f = ThrustFormat.v ∧ i = .thrustV d.a1 d.a2 d.a3 d.a4 d.a5 d.a6 d.a7 := by
  have hne : ThrustFormat.v ≠ ThrustFormat.h := by decide
  unfold thrustInstr
  split
  · next hf => subst hf; simp [hne.symm, eq_comm]
  · split
    · next hf => subst hf; simp [hne, eq_comm]
    · next hh hv => simp [hh, hv]

/-- A frame that carries a table format's tag is the frame of its instruction. -/
theorem encode_of_thrustInstr {f : ThrustFormat} {d : Payload} {i : Instr} (hi : thrustInstr f d = some i)
    (ht : d.a0 = f.tag) : encode i = (f.len, d) := by
  rcases thrustInstr_eq_some_iff.mp hi with ⟨rfl, rfl⟩ | ⟨rfl, rfl⟩ <;>
    exact congrArg (fun t : Byte => (8, { d with a0 := t })) ht.symm

/-- The rows by group: the kill commands, the status events, the frames of the two table formats. -/
theorem instr_cases (i : Instr) :
    (∃ k, i = killInstr k) ∨ (∃ e, i = statusInstr e) ∨
      ∃ f d, (f = ThrustFormat.h ∨ f = ThrustFormat.v) ∧ d.a0 = f.tag ∧ thrustInstr f d = some i := by
  cases i with
  | kcha => exact .inl ⟨.hardKill, rfl⟩
  | kcsa => exact .inl ⟨.softKill, rfl⟩
  | kchu => exact .inl ⟨.hardUnkill, rfl⟩
  | kcsu => exact .inl ⟨.softUnkill, rfl⟩
  | thrustH s0 s1 s4 s5 cr hs ua =>
    exact .inr (.inr ⟨.h, ⟨0x48, s0, s1, s4, s5, cr, hs, ua⟩, .inl rfl, rfl, rfl⟩)
  | thrustV s2 s3 s6 s7 cr hs ua =>
    exact .inr (.inr ⟨.v, ⟨0x56, s2, s3, s6, s7, cr, hs, ua⟩, .inr rfl, rfl, rfl⟩)
  | krha => exact .inr (.inl ⟨.hardKilled, rfl⟩)
  | krsa => exact .inr (.inl ⟨.softKilled, rfl⟩)
  | krhu => exact .inr (.inl ⟨.hardUnkilled, rfl⟩)
  | krsu => exact .inr (.inl ⟨.softUnkilled, rfl⟩)
  | ga => exact .inr (.inl ⟨.goAsserted, rfl⟩)
  | gu => exact .inr (.inl ⟨.goUnasserted, rfl⟩)

/-! The two row decoders, read as instructions. -/

/-- What a frame that decodes to an instruction of the command group is. -/
theorem decodeRx_eq_ok_iff {c : Cfg} {len : Nat} {d : Payload} {i : Instr} (hw : c.wf = true) :
    decodeRx c len d = .ok i ↔
      (∃ k, i = killInstr k ∧ len = 5 ∧ d.bytes.take 5 = killBytes k) ∨
        ∃ f ∈ c.thrustFormats, f.tag = d.a0 ∧ f.len = len ∧ thrustInstr f d = some i := by
  constructor
  · intro h
    unfold decodeRx at h
    rcases decodeCmd_cases c len d with hc | ⟨k, hc, -, -⟩ | ⟨f, hfo, hf, ht, -, hl, -, -, hc⟩
    · simp [hc] at h
    · obtain ⟨hl, hd⟩ := decodeCmd_eq_killCommand_iff.mp hc
      simp only [hc, Except.ok.injEq] at h
      exact .inl ⟨k, h.symm, hl, hd⟩
    · simp only [hc, hfo, Option.bind_some] at h
      cases hi : thrustInstr f d with
      | none => simp [hi] at h
      | some j =>
        simp only [hi, Except.ok.injEq] at h
        exact .inr ⟨f, hf, ht, hl.symm, by rw [hi, h]⟩
  · rintro (⟨k, rfl, hl, hd⟩ | ⟨f, hf, ht, rfl, hi⟩)
    · simp [decodeRx, decodeCmd_eq_killCommand_iff.mpr ⟨hl, hd⟩]
    · simp [decodeRx, decodeCmd_of_format hw hf d ht.symm, ← ht, formatOf_tag_of_wf hw hf, hi]

/-- No status frame belongs to the command group (spec/40_can_codec.md R96): the long literals carry the tag of the kill
class, and the short ones are shorter than every thrust format. -/
theorem decodeCmd_of_decodeStatus {c : Cfg} {len : Nat} {d : Payload} {e : StatusEvent} (hw : c.wf = true)
    (he : decodeStatus len d = some e) : decodeCmd c len d = .unrecognized := by
  obtain ⟨hlen, hd⟩ := decodeStatus_eq_some_iff.mp he
  rcases decodeCmd_cases c len d with hc | ⟨k, hc, -, -⟩ | ⟨f, -, hf, -, hclass, hl, -, -, -⟩
  · exact hc
  · obtain ⟨hl, hk⟩ := decodeCmd_eq_killCommand_iff.mp hc
    rw [← hlen, hl, hk] at hd
    exact absurd hd (killBytes_ne_statusBytes k e)
  · have hfour := four_le_len_of_wf hw hf
    rw [← hl, hlen] at hfour
    have hhead := congrArg List.head? hd
    cases e with
    | goAsserted | goUnasserted => exact absurd hfour (by decide)
    | _ => exact absurd (Option.some.inj hhead) hclass

theorem decodeStatus_of_decodeRx {c : Cfg} {len : Nat} {d : Payload} {i : Instr} (hw : c.wf = true)
    (h : decodeRx c len d = .ok i) : decodeStatus len d = none := by
  cases he : decodeStatus len d with
  | none => rfl
  | some e => simp [decodeRx, decodeCmd_of_decodeStatus hw he] at h

/-- A frame read as any row: the two groups side by side. -/
theorem decodeRow_eq_ok_iff {c : Cfg} {len : Nat} {d : Payload} {i : Instr} (hw : c.wf = true) :
    decodeRow c len d = .ok i ↔ decodeRx c len d = .ok i ∨ ∃ e, decodeStatus len d = some e ∧ i = statusInstr e := by
  unfold decodeRow
  cases hs : decodeStatus len d with
  | none => cases decodeRx c len d <;> simp
  | some e =>
    have hrx : decodeRx c len d = .error .unrecognized := by simp [decodeRx, decodeCmd_of_decodeStatus hw hs]
    simp [hrx, eq_comm]

/-- Settles O1, group by group. -/
theorem decodeOfEncodeIsInstruction : Obligations.DecodeOfEncodeIsInstruction := by
  unfold Obligations.DecodeOfEncodeIsInstruction
  intro c hw hh hv i
  rw [decodeRow_eq_ok_iff hw, decodeRx_eq_ok_iff hw]
  rcases instr_cases i with ⟨k, rfl⟩ | ⟨e, rfl⟩ | ⟨f, d, hf, ht, hi⟩
  · rw [encode_killInstr]
    exact .inl (.inl ⟨k, rfl, rfl, take_bytes_ofBytes_killBytes k⟩)
  · rw [encode_statusInstr]
    exact .inr ⟨e, decodeStatus_eq_some_iff.mpr ⟨rfl, take_bytes_ofBytes_statusBytes e⟩, rfl⟩
  · rw [encode_of_thrustInstr hi ht]
    have hmem : f ∈ c.thrustFormats := by rcases hf with rfl | rfl <;> assumption
    exact .inl (.inr ⟨f, hmem, ht.symm, rfl, hi⟩)

/-- Settles O2: what each decoder recognises is what `encode` gives for the group. -/
theorem decodedFrameIsTheRowsFrame : Obligations.DecodedFrameIsTheRowsFrame := by
  unfold Obligations.DecodedFrameIsTheRowsFrame
  intro c len d i hw h
  rw [decodeRow_eq_ok_iff hw, decodeRx_eq_ok_iff hw] at h
  rcases h with (⟨k, rfl, rfl, hd⟩ | ⟨f, -, ht, rfl, hi⟩) | ⟨e, he, rfl⟩
  · rw [encode_killInstr]
    exact ⟨rfl, hd.trans (take_bytes_ofBytes_killBytes k).symm⟩
  · rw [encode_of_thrustInstr hi ht.symm]
    exact ⟨rfl, rfl⟩
  · obtain ⟨rfl, hd⟩ := decodeStatus_eq_some_iff.mp he
    rw [encode_statusInstr]
    exact ⟨rfl, hd.trans (take_bytes_ofBytes_statusBytes e).symm⟩

/-- Settles O6, from what `decode_cmd` can answer (`decodeCmd_cases`). -/
theorem recognisedExactlyIfARow : Obligations.RecognisedExactlyIfARow := by
  unfold Obligations.RecognisedExactlyIfARow
  intro c len d hw
  constructor
  · intro h
    rcases decodeCmd_cases c len d with hc | ⟨k, hc, -, -⟩ | ⟨f, -, hf, ht, -, hl, -, -, -⟩
    · exact absurd hc h
    · obtain ⟨hl, hd⟩ := decodeCmd_eq_killCommand_iff.mp hc
      exact .inl ⟨hl, mem_killLiterals_iff.mpr ⟨k, hd⟩⟩
    · exact .inr ⟨f, hf, ht, hl.symm⟩
  · rintro (⟨hl, hd⟩ | ⟨f, hf, ht, rfl⟩)
    · obtain ⟨k, hk⟩ := mem_killLiterals_iff.mp hd
      simp [decodeCmd_eq_killCommand_iff.mpr ⟨hl, hk⟩]
    · simp [decodeCmd_of_format hw hf d ht.symm]

/-! The words of the opcode table (spec/30_encoding.md R84). -/

theorem rowLen_encode (i : Instr) : rowLen Cfg.reference (encode i).2.a0 = (encode i).1 := by
  cases i <;> rfl

/-- A word whose payload is the row's frame decodes to the row. -/
theorem decodeTableWord_of_payload {nbits w : Nat} {i : Instr} (h : tablePayload nbits w = (encode i).2) :
    decodeTableWord nbits w = some i := by
  have hrow : decodeRow Cfg.reference (encode i).1 (encode i).2 = .ok i :=
    decodeOfEncodeIsInstruction Cfg.reference (by decide) (by decide) (by decide) i
  simp [decodeTableWord, h, rowLen_encode, hrow]

/-- Settles O8: the five payloads are the rows' frames. -/
theorem tableWordsDecodeToTheirRows : Obligations.TableWordsDecodeToTheirRows := by
  unfold Obligations.TableWordsDecodeToTheirRows
  exact ⟨decodeTableWord_of_payload (by decide), decodeTableWord_of_payload (by decide),
    decodeTableWord_of_payload (by decide), decodeTableWord_of_payload (by decide),
    decodeTableWord_of_payload (by decide)⟩

end Sys2Proof.Machine
end

section
/-! PROOFS. A frame built from a thrust format (spec/30_encoding.md R74): the writes that build it go to pairwise
different offsets and leave byte 0, so each field is read back where it was written. -/

namespace Sys2Proof.Machine

section SetAll

/-- A list of writes to offsets, done from left to right. -/
def setAll {α : Type} (p : Eight α) (ws : List (Fin 8 × α)) : Eight α := ws.foldl (fun q w => q.set w.1 w.2) p

variable {α : Type} {ws : List (Fin 8 × α)} {k : Fin 8}

theorem get_setAll_of_not_mem (p : Eight α) (h : k ∉ ws.map Prod.fst) : (setAll p ws).get k = p.get k := by
  induction ws generalizing p with
  | nil => rfl
  | cons w ws ih =>
    obtain ⟨hw, hws⟩ : k ≠ w.1 ∧ k ∉ ws.map Prod.fst := by simpa using h
    exact (ih (p.set w.1 w.2) hws).trans (Eight.get_set_other p w.1 k w.2 hw.symm)

/-- Where every offset is written once, each holds what was written to it. -/
theorem get_setAll_of_mem (p : Eight α) {x : α} (hn : (ws.map Prod.fst).Nodup) (h : (k, x) ∈ ws) :
    (setAll p ws).get k = x := by
  induction ws generalizing p with
  | nil => simp at h
  | cons w ws ih =>
    obtain ⟨hw, hws⟩ := List.nodup_cons.mp hn
    rcases List.mem_cons.mp h with rfl | h
    · exact (get_setAll_of_not_mem _ hw).trans (Eight.get_set_same p k x)
    · exact ih _ hws h

end SetAll

/-- The fields a frame of format `f` carries, each with its offset. -/
def thrustFields (f : ThrustFormat) (speed : Eight Byte) (cr hs ua : Byte) : List (Offset × Byte) :=
  (Eight.indexes.filterMap fun ch => (f.speedOff.get ch).map fun k => (k, speed.get ch)) ++
    [(f.crOff, cr), (f.hsOff, hs), (f.uaOff, ua)]

section ThrustFrame

variable (f : ThrustFormat) (speed : Eight Byte) (cr hs ua : Byte)

theorem encodeThrust_eq_setAll :
    encodeThrust f speed cr hs ua = setAll (Payload.ofBytes [f.tag]) (thrustFields f speed cr hs ua) := rfl

theorem map_fst_thrustFields : (thrustFields f speed cr hs ua).map Prod.fst = f.offsets := by
  simp [thrustFields, ThrustFormat.offsets, List.map_filterMap, Function.comp_def]

variable {f} in
theorem speed_mem_thrustFields {ch : Channel} {k : Offset} (h : f.speedOff.get ch = some k) :
    (k, speed.get ch) ∈ thrustFields f speed cr hs ua := by
  have hmem : ∀ g : Channel, g ∈ Eight.indexes := by decide
  exact List.mem_append_left _ (List.mem_filterMap.mpr ⟨ch, hmem ch, by simp [h]⟩)

variable {c : Cfg} {f}

/-- Byte 0 of the frame is the tag: no field lies there. -/
theorem encodeThrust_a0 (hw : c.wf = true) (hf : f ∈ c.thrustFormats) : (encodeThrust f speed cr hs ua).a0 = f.tag := by
  obtain ⟨-, -, -, -, hinside⟩ := format_of_wf hw hf
  have hzero : (0 : Offset) ∉ (thrustFields f speed cr hs ua).map Prod.fst := by
    rw [map_fst_thrustFields]
    exact fun h => (hinside 0 h).1 rfl
  exact get_setAll_of_not_mem _ hzero

/-- Every field of the frame stands at its offset: no two fields share one. -/
theorem encodeThrust_get (hw : c.wf = true) (hf : f ∈ c.thrustFormats) {k : Offset} {b : Byte}
    (h : (k, b) ∈ thrustFields f speed cr hs ua) : (encodeThrust f speed cr hs ua).get k = b := by
  obtain ⟨-, -, -, hnodup, -⟩ := format_of_wf hw hf
  rw [← map_fst_thrustFields f speed cr hs ua] at hnodup
  exact get_setAll_of_mem _ hnodup h

end ThrustFrame

/-- The commands of a frame that holds `speed.get ch` at the offset of each channel `ch` of the format. -/
theorem cmds_eq_of_speeds {f : ThrustFormat} {d : Payload} {speed : Eight Byte}
    (h : ∀ ch k, f.speedOff.get ch = some k → d.get k = speed.get ch) :
    f.cmds d = (Eight.indexes.filter fun ch => (f.speedOff.get ch).isSome).map fun ch => (ch, speed.get ch) := by
  unfold ThrustFormat.cmds
  induction Eight.indexes with
  | nil => rfl
  | cons ch rest ih =>
    rw [List.filterMap_cons, List.filter_cons]
    cases hk : f.speedOff.get ch with
    | none => simpa using ih
    | some k => simpa [h ch k hk] using ih

/-- Settles O3: the frame holds every field at its offset, and the decoder reads the same offsets. -/
theorem thrustFormatRoundTrip : Obligations.ThrustFormatRoundTrip := by
  unfold Obligations.ThrustFormatRoundTrip
  intro c f speed cr hs ua hw hf
  have hget {k : Offset} {b : Byte} := encodeThrust_get (k := k) (b := b) speed cr hs ua hw hf
  have hcmds := cmds_eq_of_speeds fun ch k hk => hget (speed_mem_thrustFields speed cr hs ua hk)
  rw [decodeCmd_of_format hw hf _ (encodeThrust_a0 speed cr hs ua hw hf), hcmds,
    hget (k := f.crOff) (b := cr) (by simp [thrustFields]),
    hget (k := f.hsOff) (b := hs) (by simp [thrustFields]),
    hget (k := f.uaOff) (b := ua) (by simp [thrustFields])]
  rfl

end Sys2Proof.Machine
end

section
/-! PROOFS. Placing a word of the opcode table (log entry 14): the placed stimulus is handled by running the instruction
the word decodes to, and the next step is the handling of the placed stimulus. -/

namespace Sys2Proof.Machine

/-! Decoders and row lengths depend on the configuration's thrust formats alone. -/

theorem decodeRow_congr {c c' : Cfg} (h : c.thrustFormats = c'.thrustFormats) (len : Nat) (d : Payload) :
    decodeRow c len d = decodeRow c' len d := by
  simp only [decodeRow, decodeRx, decodeCmd, Cfg.formatOf, h]

theorem rowLen_congr {c c' : Cfg} (h : c.thrustFormats = c'.thrustFormats) (t : Byte) : rowLen c t = rowLen c' t := by
  simp only [rowLen, Cfg.formatOf, h]

theorem rowLen_le_eight {c : Cfg} (hw : c.wf = true) (t : Byte) : rowLen c t ≤ 8 := by
  unfold rowLen
  split
  · decide
  · split
    · decide
    · split
      · next f hf =>
        obtain ⟨hmem, -⟩ := formatOf_some hf
        obtain ⟨-, -, hlen, -, -⟩ := format_of_wf hw hmem
        exact hlen
      · decide

/-- The frame a table word is offered as. -/
abbrev wordFrame (c : Cfg) (nbits w : Nat) : Frame :=
  { id := c.cmdIds.headD 0, len := BitVec.ofNat 4 (rowLen c (tablePayload nbits w).a0), data := tablePayload nbits w }

/-- A table word decodes alike under every configuration that has the formats of the reference. -/
theorem decodeRow_of_decodeTableWord {c : Cfg} {nbits w : Nat} {i : Instr}
    (hf : c.thrustFormats = [ThrustFormat.h, ThrustFormat.v]) (h : decodeTableWord nbits w = some i) :
    decodeRow c (rowLen c (tablePayload nbits w).a0) (tablePayload nbits w) = .ok i := by
  have href : c.thrustFormats = Cfg.reference.thrustFormats := hf
  rw [decodeRow_congr href, rowLen_congr href]
  unfold decodeTableWord at h
  split at h
  · next j hj => cases h; exact hj
  · cases h

theorem withFetchWord_of_status {s : State} {nbits w : Nat} {e : StatusEvent}
    (h : decodeStatus (rowLen s.cfg (tablePayload nbits w).a0) (tablePayload nbits w) = some e) :
    s.withFetchWord nbits w =
      { s with cfg := withRefresh s.cfg s.ks s.hallLast e }.placeFirst (.statusTick s.arrival) := by
  rw [State.withFetchWord, State.placeWord, h]

theorem withFetchWord_of_not_status {s : State} {nbits w : Nat}
    (h : decodeStatus (rowLen s.cfg (tablePayload nbits w).a0) (tablePayload nbits w) = none) :
    s.withFetchWord nbits w = s.placeFirst (.rxFrame (wordFrame s.cfg nbits w) s.arrival) := by
  rw [State.withFetchWord, State.placeWord, h]

theorem refreshList_of_withRefresh {s : State} {c : Cfg} {e : StatusEvent}
    (h : s.cfg = withRefresh c s.ks s.hallLast e) : refreshList s = [e] := by
  have hset (p : PerKill (Eight (List StatusEvent))) (x : Eight (List StatusEvent)) : (p.set s.ks x).get s.ks = x := by
    cases s.ks <;> rfl
  simp [refreshList, h, withRefresh, hset, Eight.get_set_same]

/-- A status tick whose refresh list is one event runs that event's instruction. -/
theorem handle_statusTick_of_singleton {s : State} {e : StatusEvent} {t : Time} (h : refreshList s = [e]) :
    handle (.statusTick t) s = exec (statusInstr e) s := by
  simp [handle, handleStatusTick, h, runStatus, exec_statusInstr]

/-- A received frame on an accepted identifier runs the instruction it decodes to. -/
theorem handle_rxFrame_of_decodeRx {s : State} {f : Frame} {i : Instr} {t : Time} (hid : f.id ∈ s.cfg.cmdIds)
    (h : decodeRx s.cfg f.len.toNat f.data = .ok i) : handle (.rxFrame f t) s = exec i s := by
  simp [handle, handleRx, hid, h]

theorem withRefresh_wf (c : Cfg) (k : KillState) (h : Hall) (e : StatusEvent) : (withRefresh c k h e).wf = c.wf := rfl

/-- The cycle of a stimulus placed with the state's own arrival time begins in that state, now busy and with no ack yet. -/
theorem accept_placeFirst {s : State} {st : Stimulus} (ht : st.time = s.arrival) :
    (s.placeFirst st).accept st s.ordq = { s with busy := true, cycOk := true } := by
  simp only [State.accept, State.placeFirst, State.beginCycle, ht]

/-- A placed stimulus that is handled by running `i` makes the next step the run of `i` with the end of the cycle. -/
theorem step_placeFirst {s : State} {st : Stimulus} {i : Instr} (hw : s.cfg.wf = true) (ht : st.time = s.arrival)
    (hx : handle st { s with busy := true, cycOk := true } = exec i { s with busy := true, cycOk := true }) :
    ∃ u, exec i { s with busy := true, cycOk := true } = .next u ∧ step (s.placeFirst st) = .next u.endCycle := by
  refine ⟨_, hx.symm.trans (handle_eq st _), ?_⟩
  rw [step_pending (s := s.placeFirst st) hw rfl rfl, accept_placeFirst ht]

/-- Settles O29: a status word is run by the placed status tick, every other word by the placed frame. -/
theorem placedTableWordIsRunNext : Obligations.PlacedTableWordIsRunNext := by
  unfold Obligations.PlacedTableWordIsRunNext
  intro s nbits w i hw hf hids h
  rcases (decodeRow_eq_ok_iff hw).mp (decodeRow_of_decodeTableWord hf h) with hrx | ⟨e, hs, rfl⟩
  · have hid : (wordFrame s.cfg nbits w).id ∈ s.cfg.cmdIds := by
      obtain ⟨a, l, hc⟩ := List.exists_cons_of_ne_nil hids
      simp [hc]
    have hlen : (wordFrame s.cfg nbits w).len.toNat = rowLen s.cfg (tablePayload nbits w).a0 :=
      (BitVec.toNat_ofNat ..).trans (Nat.mod_eq_of_lt (lt_of_le_of_lt (rowLen_le_eight hw _) (by decide)))
    obtain ⟨u, hu, hstep⟩ := step_placeFirst hw rfl
      (handle_rxFrame_of_decodeRx (s := { s with busy := true, cycOk := true }) (t := s.arrival) hid (hlen ▸ hrx))
    rw [withFetchWord_of_not_status (decodeStatus_of_decodeRx hw hrx)]
    exact ⟨u, hu, hstep, rfl⟩
  · have hlist : refreshList { s with cfg := withRefresh s.cfg s.ks s.hallLast e, busy := true, cycOk := true } = [e] :=
      refreshList_of_withRefresh rfl
    obtain ⟨u, hu, hstep⟩ := step_placeFirst (s := { s with cfg := withRefresh s.cfg s.ks s.hallLast e })
      ((withRefresh_wf ..).trans hw) rfl (handle_statusTick_of_singleton (t := s.arrival) hlist)
    rw [withFetchWord_of_status hs]
    exact ⟨u, hu, hstep, rfl⟩

end Sys2Proof.Machine
end

section
/-! PROOFS. The statements of spec/40_can_codec.md about the decoders: what each recognises is known
(`decodeKill_eq_killCommand_iff`, `decodeStatus_eq_some_iff`, `decodeCmd_cases`); here, which bytes that depends on. -/

namespace Sys2Proof.Machine

/-! Which bytes a decoder reads (spec/40_can_codec.md R94). -/

theorem bytes_getElem? (d : Payload) (k : Fin 8) : d.bytes[k.val]? = some (d.get k) := by
  fin_cases k <;> rfl

/-- Payloads that agree on their first `len` bytes agree on each of them. -/
theorem get_eq_of_take_bytes_eq {d e : Payload} {len : Nat} (h : d.bytes.take len = e.bytes.take len) {k : Fin 8}
    (hk : k.val < len) : d.get k = e.get k := by
  have hbyte : (d.bytes.take len)[k.val]? = (e.bytes.take len)[k.val]? := by rw [h]
  rw [List.getElem?_take_of_lt hk, List.getElem?_take_of_lt hk, bytes_getElem?, bytes_getElem?] at hbyte
  exact Option.some.inj hbyte

/-- A thrust frame is read at its format's offsets only (spec/40_can_codec.md R97). -/
theorem cmds_congr {f : ThrustFormat} {d e : Payload} (h : ∀ k ∈ f.offsets, d.get k = e.get k) :
    f.cmds d = f.cmds e := by
  refine List.filterMap_congr fun ch hch => ?_
  cases hk : f.speedOff.get ch with
  | none => rfl
  | some k => simp [h k (List.mem_append_left _ (List.mem_filterMap.mpr ⟨ch, hch, hk⟩))]

/-- A recognised frame decodes alike with other bytes at or past its length: the kill literals are five bytes of a frame
of length 5, and a format's offsets lie below its length. -/
theorem decodeCmd_eq_of_take_bytes_eq {c : Cfg} {len : Nat} {d e : Payload} (hw : c.wf = true)
    (h : d.bytes.take len = e.bytes.take len) (hd : decodeCmd c len d ≠ .unrecognized) :
    decodeCmd c len e = decodeCmd c len d := by
  rcases decodeCmd_cases c len d with hc | ⟨k, hc, -, -⟩ | ⟨f, -, hf, ht, -, rfl, hpos, -, hc⟩
  · exact absurd hc hd
  · obtain ⟨rfl, hk⟩ := decodeCmd_eq_killCommand_iff.mp hc
    rw [hc]
    exact decodeCmd_eq_killCommand_iff.mpr ⟨rfl, h.symm.trans hk⟩
  · obtain ⟨-, -, -, -, hinside⟩ := format_of_wf hw hf
    have hget : ∀ k ∈ f.offsets, d.get k = e.get k := fun k hk => get_eq_of_take_bytes_eq h (hinside k hk).2
    have htag : e.a0 = f.tag := (get_eq_of_take_bytes_eq (k := 0) h hpos).symm.trans ht.symm
    have haux : ∀ k ∈ [f.crOff, f.hsOff, f.uaOff], d.get k = e.get k := fun k hk => hget k (List.mem_append_right _ hk)
    rw [hc, decodeCmd_of_format hw hf e htag, cmds_congr hget, haux f.crOff (by simp), haux f.hsOff (by simp),
      haux f.uaOff (by simp)]

/-- Settles O4: the guard comes first, and a frame that is recognised with one of two payloads decodes alike with
both. -/
theorem lengthGuardAndUnreadBytes : Obligations.LengthGuardAndUnreadBytes := by
  unfold Obligations.LengthGuardAndUnreadBytes
  intro c len d e hw
  refine ⟨fun hlen => if_pos hlen, fun h => ?_⟩
  by_cases hd : decodeCmd c len d = .unrecognized
  · by_cases he : decodeCmd c len e = .unrecognized
    · rw [hd, he]
    · exact decodeCmd_eq_of_take_bytes_eq hw h.symm he
  · exact (decodeCmd_eq_of_take_bytes_eq hw h hd).symm

/-! The kill class and the status group (spec/40_can_codec.md R95, R96). -/

theorem decodeKill_ne_thrust (len : Nat) (d : Payload) (cmds : List ThrustCmd) (cr hs ua : Byte) :
    decodeKill len d ≠ .thrust cmds cr hs ua := by
  intro h
  unfold decodeKill at h
  repeat' split at h
  all_goals cases h

/-- Settles O5: each literal is matched exactly, and the kill decoder has no answer but a kill command and
`Unrecognized`. -/
theorem killLiteralMatchIsExact : Obligations.KillLiteralMatchIsExact := by
  unfold Obligations.KillLiteralMatchIsExact
  intro len d
  have hexact (k : KillCmd) : decodeKill len d = .killCommand k ↔ len = 5 ∧ d.bytes.take 5 = killBytes k :=
    decodeKill_eq_killCommand_iff
  refine ⟨hexact .hardKill, hexact .softKill, hexact .hardUnkill, hexact .softUnkill, fun hno => ?_⟩
  cases hd : decodeKill len d with
  | unrecognized => rfl
  | killCommand k => exact absurd hd (hno k)
  | thrust cmds cr hs ua => exact absurd hd (decodeKill_ne_thrust len d cmds cr hs ua)

theorem encodeStatus_len (c : Cfg) (e : StatusEvent) : (encodeStatus c e).len.toNat = (statusBytes e).length := by
  cases e <;> rfl

theorem decodeStatus_encodeStatus (c : Cfg) (e : StatusEvent) :
    decodeStatus (encodeStatus c e).len.toNat (encodeStatus c e).data = some e :=
  decodeStatus_eq_some_iff.mpr ⟨encodeStatus_len c e, take_bytes_ofBytes_statusBytes e⟩

/-- Settles O7: a status frame is no command and a command is no status frame, since no frame is both. -/
theorem statusRoundTripAndDisjointVocabularies : Obligations.StatusRoundTripAndDisjointVocabularies := by
  unfold Obligations.StatusRoundTripAndDisjointVocabularies
  intro c hw
  refine ⟨decodeStatus_encodeStatus c, fun e => decodeCmd_of_decodeStatus hw (decodeStatus_encodeStatus c e),
    fun k => ?_⟩
  rw [encode_killInstr]
  exact decodeStatus_of_decodeRx hw
    ((decodeRx_eq_ok_iff hw).mpr (.inl ⟨k, rfl, rfl, take_bytes_ofBytes_killBytes k⟩))

end Sys2Proof.Machine
end

section
/-! PROOFS. The received kill frames of spec/40_can_codec.md R100 to R103: accepting a kill command is the watchdog's
record and one cell of the transition matrix, so each statement is what the cell's actions leave. -/

namespace Sys2Proof.Machine

/-! What the four written-out traces leave in the outputs (spec/44_kill_fsm.md R148 to R151). -/

section Traces

variable {s t : State} {c : Cfg}

theorem Emitted.outputs_of_specHardKill (h : Emitted s t (specHardKill c)) :
    t.pwmEn = false ∧ t.thrPwr = false ∧ t.mainPwr = false ∧ ∀ ch, t.pw.get ch = c.neutral ch := by
  refine ⟨h.pwmEn, h.thrPwr, h.mainPwr, fun ch => ?_⟩
  rw [h.pw, specHardKill, widthAfter_append, widthAfter_specStopAll]
  rfl

theorem Emitted.outputs_of_specSoftKill (h : Emitted s t (specSoftKill c)) :
    t.pwmEn = false ∧ t.thrPwr = false ∧ t.mainPwr = s.mainPwr ∧ ∀ ch, t.pw.get ch = c.neutral ch := by
  refine ⟨h.pwmEn, h.thrPwr, h.mainPwr, fun ch => ?_⟩
  rw [h.pw, specSoftKill, widthAfter_append, widthAfter_specStopAll]
  rfl

theorem Emitted.outputs_of_specHardUnkill (h : Emitted s t (specHardUnkill c)) :
    t.pwmEn = true ∧ t.thrPwr = true ∧ t.mainPwr = true ∧ ∀ ch, t.pw.get ch = c.neutral ch := by
  refine ⟨h.pwmEn, h.thrPwr, h.mainPwr, fun ch => ?_⟩
  rw [h.pw, specHardUnkill, widthAfter_append, widthAfter_append, widthAfter_specStopAll]
  rfl

theorem Emitted.outputs_of_specSoftUnkill (h : Emitted s t (specSoftUnkill c)) :
    t.pwmEn = true ∧ t.thrPwr = s.thrPwr ∧ t.mainPwr = s.mainPwr ∧ t.pw = s.pw :=
  ⟨h.pwmEn, h.thrPwr, h.mainPwr, Eight.ext_get h.pw⟩

end Traces

/-! The matrix's rows of the four kill commands (spec/44_kill_fsm.md R146). -/

theorem fsm_softKillRequest_of_ne {c : Cfg} {k : KillState} {h : Hall} (hk : k ≠ .running) :
    fsm c k h .softKillRequest = ignore k := by
  cases k with
  | running => exact absurd rfl hk
  | hardKilled => rfl
  | softKilled => rfl

theorem fsm_hardUnkillRequest_of_ne {c : Cfg} {k : KillState} {h : Hall} (hk : k ≠ .hardKilled) :
    fsm c k h .hardUnkillRequest = ignore k := by
  cases k with
  | hardKilled => exact absurd rfl hk
  | softKilled => rfl
  | running => rfl

theorem fsm_softUnkillRequest_of_guard {c : Cfg} {h : Hall} (hgo : h.go = true) (hon : h.onoff = true) :
    fsm c .softKilled h .softUnkillRequest = softUnkill c := by
  simp [fsm, hgo, hon]

theorem fsm_softUnkillRequest_of_not {c : Cfg} {k : KillState} {h : Hall}
    (hg : ¬(k = .softKilled ∧ h.go = true ∧ h.onoff = true)) : fsm c k h .softUnkillRequest = ignore k := by
  cases k with
  | hardKilled => rfl
  | softKilled => exact if_neg fun hand => hg ⟨rfl, Bool.and_eq_true_iff.mp hand⟩
  | running => rfl

/-- An event whose cell is `ignore` changes nothing (spec/44_kill_fsm.md R153). -/
theorem feed_eq_self {s : State} {e : Event} (h : fsm s.cfg s.ks s.hallLast e = ignore s.ks) : s.feed e = s := by
  rw [State.feed, h, State.take_ignore]

/-! Accepting a kill command (spec/40_can_codec.md R98). -/

/-- What accepting a kill command leaves alone but for the transition it makes. -/
theorem acceptKill_frame (s : State) (k : KillCmd) :
    (s.acceptKill k).wdLast = s.arrival ∧ SameDiag s (s.acceptKill k) ∧ KeepsRest s (s.acceptKill k) := by
  obtain ⟨-, -, -, hwd, hdiag, hrest⟩ := feed_spec s.record (killEvent k)
  exact ⟨hwd, ⟨hdiag.cr, hdiag.hs, hdiag.ua⟩,
    ⟨hrest.hallLast, hrest.lastOk, hrest.ordq, hrest.busy, hrest.cfg, hrest.arrival⟩⟩

/-- The transition an accepted kill command makes: that of its event's cell. -/
theorem acceptKill_of_cell {s : State} {k : KillCmd} {tr : Transition}
    (h : fsm s.cfg s.ks s.hallLast (killEvent k) = tr) :
    Emitted s (s.acceptKill k) tr.actions ∧ (s.acceptKill k).ks = tr.next ∧
      TookAcks s (s.acceptKill k) (ackCount tr.actions) := by
  subst h
  obtain ⟨he, hks, ha, -⟩ := feed_spec s.record (killEvent k)
  exact ⟨⟨he.trace, he.pw, he.pwmEn, he.thrPwr, he.mainPwr⟩, hks, ⟨ha.acks, ha.draws, ha.ok⟩⟩

/-- An accepted kill command whose event is ignored refreshes the watchdog and does nothing more. -/
theorem acceptKill_of_ignore {s : State} {k : KillCmd} (h : fsm s.cfg s.ks s.hallLast (killEvent k) = ignore s.ks) :
    s.acceptKill k = { s with wdLast := s.arrival } :=
  feed_eq_self (s := s.record) h

/-- Settles O21: the hard kill stands in every cell of its row. -/
theorem kchaHardKills : Obligations.KchaHardKills := by
  unfold Obligations.KchaHardKills
  intro s
  obtain ⟨hwd, hdiag, hrest⟩ := acceptKill_frame s .hardKill
  obtain ⟨he, hks, ha⟩ := acceptKill_of_cell (s := s) (k := .hardKill) (tr := hardKill s.cfg) rfl
  obtain ⟨hen, hthr, hmain, hpw⟩ := Emitted.outputs_of_specHardKill he
  have hdown : (s.acceptKill .hardKill).PoweredDown := ⟨hen, hthr, hmain, by rwa [hrest.cfg]⟩
  exact ⟨_, exec_killInstr .hardKill s, he, hks, hdown, ha, hwd, hdiag, hrest⟩

/-- Settles O22: the soft kill stands in the cell of `Running`, `ignore` in the others. -/
theorem kcsaSoftKillsInRunning : Obligations.KcsaSoftKillsInRunning := by
  unfold Obligations.KcsaSoftKillsInRunning
  intro s
  obtain ⟨hwd, hdiag, hrest⟩ := acceptKill_frame s .softKill
  refine ⟨_, exec_killInstr .softKill s, hwd, hdiag, hrest, fun hrun => ?_,
    fun hrun => acceptKill_of_ignore (fsm_softKillRequest_of_ne hrun)⟩
  obtain ⟨he, hks, ha⟩ := acceptKill_of_cell (s := s) (k := .softKill) (tr := softKill s.cfg) (by rw [hrun]; rfl)
  exact ⟨he, hks, ha, Emitted.outputs_of_specSoftKill he⟩

/-- Settles O23: the hard unkill stands in the cell of `HardKilled`, which reads no magnet, `ignore` in the others. -/
theorem kchuHardUnkillsInHardKilled : Obligations.KchuHardUnkillsInHardKilled := by
  unfold Obligations.KchuHardUnkillsInHardKilled
  intro s
  obtain ⟨hwd, hdiag, hrest⟩ := acceptKill_frame s .hardUnkill
  refine ⟨_, exec_killInstr .hardUnkill s, hwd, hdiag, hrest, fun hkilled => ?_,
    fun hkilled => acceptKill_of_ignore (fsm_hardUnkillRequest_of_ne hkilled)⟩
  obtain ⟨he, hks, ha⟩ := acceptKill_of_cell (s := s) (k := .hardUnkill) (tr := hardUnkill s.cfg) (by rw [hkilled]; rfl)
  exact ⟨he, hks, ha, Emitted.outputs_of_specHardUnkill he⟩

/-- Settles O24: the soft unkill stands in the cell of `SoftKilled` under its guard, `ignore` everywhere else. -/
theorem kcsuSoftUnkillsUnderGuard : Obligations.KcsuSoftUnkillsUnderGuard := by
  unfold Obligations.KcsuSoftUnkillsUnderGuard
  intro s
  obtain ⟨hwd, hdiag, hrest⟩ := acceptKill_frame s .softUnkill
  refine ⟨_, exec_killInstr .softUnkill s, hwd, hdiag, hrest, fun ⟨hkilled, hgo, hon⟩ => ?_,
    fun hguard => acceptKill_of_ignore (fsm_softUnkillRequest_of_not hguard)⟩
  obtain ⟨he, hks, ha⟩ := acceptKill_of_cell (s := s) (k := .softUnkill) (tr := softUnkill s.cfg)
    (by rw [hkilled]; exact fsm_softUnkillRequest_of_guard hgo hon)
  exact ⟨he, hks, ha, Emitted.outputs_of_specSoftUnkill he⟩

end Sys2Proof.Machine
end

section
/-! PROOFS. The thrust frames of spec/40_can_codec.md R97 to R99, R104: what a list of commands writes, what accepting
it leaves, and which frames a whole step accepts this way. -/

namespace Sys2Proof.Machine

/-! What a list of thrust commands writes (spec/44_kill_fsm.md R152). -/

section Widths

variable {c : Cfg} {cmds : List ThrustCmd} {ch : Channel}

theorem widthAfter_thrustApply_of_not_mem (h : ∀ b, (ch, b) ∉ cmds) (w : Width) :
    widthAfter ch (thrustApply c cmds).actions w = w := by
  induction cmds generalizing w with
  | nil => rfl
  | cons p rest ih =>
    have hp : p.1 ≠ ch := fun he => h p.2 (he ▸ List.mem_cons_self)
    calc widthAfter ch (thrustApply c (p :: rest)).actions w
        = widthAfter ch (thrustApply c rest).actions w := by simp [thrustApply, widthAfter, hp]
      _ = w := ih (fun b hb => h b (List.mem_cons_of_mem _ hb)) w

/-- Where every channel occurs at most once, each is left with its mapped byte. -/
theorem widthAfter_thrustApply_of_mem (hn : (cmds.map Prod.fst).Nodup) {b : Byte} (h : (ch, b) ∈ cmds) (w : Width) :
    widthAfter ch (thrustApply c cmds).actions w = mapWidth c ch b := by
  induction cmds generalizing w with
  | nil => simp at h
  | cons p rest ih =>
    obtain ⟨hp, hrest⟩ := List.nodup_cons.mp hn
    rcases List.mem_cons.mp h with rfl | h
    · have hnot : ∀ b', (ch, b') ∉ rest := fun b' hb' => hp (List.mem_map.mpr ⟨_, hb', rfl⟩)
      calc widthAfter ch (thrustApply c ((ch, b) :: rest)).actions w
          = widthAfter ch (thrustApply c rest).actions (mapWidth c ch b) := by simp [thrustApply, widthAfter]
        _ = mapWidth c ch b := widthAfter_thrustApply_of_not_mem hnot _
    · exact ih hrest h _

theorem ackCount_thrustApply (c : Cfg) (cmds : List ThrustCmd) :
    ackCount (thrustApply c cmds).actions = cmds.length := by
  rw [ackCount, List.filter_eq_self.mpr (thrustApply_acked c cmds)]
  exact List.length_map _

end Widths

/-! Accepting a list of thrust commands (spec/40_can_codec.md R98, R99). -/

theorem fsm_thrustCommand_of_ne {c : Cfg} {k : KillState} {h : Hall} {cmds : List ThrustCmd} (hk : k ≠ .running) :
    fsm c k h (.thrustCommand cmds) = ignore k := by
  cases k with
  | running => exact absurd rfl hk
  | hardKilled => rfl
  | softKilled => rfl

/-- What accepting a thrust frame does to `s`, said once: the watchdog and the diagnostic bytes are refreshed in every
kill state, the commands are carried out in `Running` only, and nothing else is touched. -/
structure ThrustAccepted (s t : State) (cmds : List ThrustCmd) (cr hs ua : Byte) : Prop where
  wdLast : t.wdLast = s.arrival
  diagCr : t.diagCr = cr
  diagHs : t.diagHs = hs
  diagUa : t.diagUa = ua
  rest : KeepsRest s t
  ks : t.ks = s.ks
  pwmEn : t.pwmEn = s.pwmEn
  thrPwr : t.thrPwr = s.thrPwr
  mainPwr : t.mainPwr = s.mainPwr
  running : s.ks = .running → Emitted s t (thrustApply s.cfg cmds).actions ∧ TookAcks s t cmds.length
  ignored : s.ks ≠ .running → t = { s with wdLast := s.arrival, diagCr := cr, diagHs := hs, diagUa := ua }

section Accept

variable (s : State) (cmds : List ThrustCmd) (cr hs ua : Byte)

theorem acceptThrust_of_running (hk : s.ks = .running) :
    (s.acceptThrust cmds cr hs ua).ks = .running ∧
      Emitted s (s.acceptThrust cmds cr hs ua) (thrustApply s.cfg cmds).actions ∧
      TookAcks s (s.acceptThrust cmds cr hs ua) cmds.length := by
  have hcell : fsm s.cfg s.ks s.hallLast (.thrustCommand cmds) = thrustApply s.cfg cmds := by rw [hk]; rfl
  obtain ⟨he, hks, ha, -⟩ := feed_spec (s.record.setDiag cr hs ua) (.thrustCommand cmds)
  simp only [State.setDiag_cfg, State.setDiag_ks, State.setDiag_hallLast, State.record_cfg, State.record_ks,
    State.record_hallLast, hcell, ackCount_thrustApply] at he hks ha
  exact ⟨hks, ⟨he.trace, he.pw, he.pwmEn, he.thrPwr, he.mainPwr⟩, ⟨ha.acks, ha.draws, ha.ok⟩⟩

theorem acceptThrust_of_ne (hk : s.ks ≠ .running) :
    s.acceptThrust cmds cr hs ua = { s with wdLast := s.arrival, diagCr := cr, diagHs := hs, diagUa := ua } :=
  feed_eq_self (s := s.record.setDiag cr hs ua) (fsm_thrustCommand_of_ne hk)

theorem acceptThrust_spec : ThrustAccepted s (s.acceptThrust cmds cr hs ua) cmds cr hs ua := by
  obtain ⟨-, -, -, hwd, hdiag, hrest⟩ := feed_spec (s.record.setDiag cr hs ua) (.thrustCommand cmds)
  have hkeeps : KeepsRest s (s.acceptThrust cmds cr hs ua) :=
    ⟨hrest.hallLast, hrest.lastOk, hrest.ordq, hrest.busy, hrest.cfg, hrest.arrival⟩
  by_cases hk : s.ks = .running
  · obtain ⟨hks, he, ha⟩ := acceptThrust_of_running s cmds cr hs ua hk
    obtain ⟨hen, hthr, hmain⟩ := he.switches_of_acked (thrustApply_acked s.cfg cmds)
    exact ⟨hwd, hdiag.cr, hdiag.hs, hdiag.ua, hkeeps, hks.trans hk.symm, hen, hthr, hmain, fun _ => ⟨he, ha⟩,
      fun hne => absurd hk hne⟩
  · have heq := acceptThrust_of_ne s cmds cr hs ua hk
    exact ⟨hwd, hdiag.cr, hdiag.hs, hdiag.ua, hkeeps, by rw [heq], by rw [heq], by rw [heq], by rw [heq],
      fun hrun => absurd hrun hk, fun _ => heq⟩

end Accept

/-- How an instruction that accepts `cmds` completes; `pw` is what the commands leave in the eight channels. -/
theorem exec_of_acceptThrust {i : Instr} {s : State} {cmds : List ThrustCmd} {cr hs ua : Byte} {pw : Eight Width}
    (hx : exec i s = .next (s.acceptThrust cmds cr hs ua))
    (hpw : ∀ ch, widthAfter ch (thrustApply s.cfg cmds).actions (s.pw.get ch) = pw.get ch) :
    ∃ t, exec i s = .next t ∧ t.wdLast = s.arrival ∧ t.diagCr = cr ∧ t.diagHs = hs ∧ t.diagUa = ua ∧ KeepsRest s t ∧
      t.ks = s.ks ∧ t.pwmEn = s.pwmEn ∧ t.thrPwr = s.thrPwr ∧ t.mainPwr = s.mainPwr ∧
      (s.ks = .running →
        t.trace = s.trace ++ (thrustApply s.cfg cmds).actions ∧ t.pw = pw ∧ TookAcks s t cmds.length) ∧
      (s.ks ≠ .running → t = { s with wdLast := s.arrival, diagCr := cr, diagHs := hs, diagUa := ua }) := by
  have h := acceptThrust_spec s cmds cr hs ua
  refine ⟨_, hx, h.wdLast, h.diagCr, h.diagHs, h.diagUa, h.rest, h.ks, h.pwmEn, h.thrPwr, h.mainPwr, fun hk => ?_,
    h.ignored⟩
  obtain ⟨he, ha⟩ := h.running hk
  exact ⟨he.trace, Eight.ext_get fun ch => (he.pw ch).trans (hpw ch), ha⟩

/-- Settles O25: the frame accepts four commands, of channels 0, 1, 4, 5. -/
theorem thrustHAppliesFourChannels : Obligations.ThrustHAppliesFourChannels := by
  unfold Obligations.ThrustHAppliesFourChannels
  intro s s0 s1 s4 s5 cr hs ua
  refine exec_of_acceptThrust (cmds := [(.fhl, s0), (.fhr, s1), (.bhl, s4), (.bhr, s5)]) rfl fun ch => ?_
  fin_cases ch <;> rfl

/-- Settles O26: the frame accepts four commands, of channels 2, 3, 6, 7. -/
theorem thrustVAppliesFourChannels : Obligations.ThrustVAppliesFourChannels := by
  unfold Obligations.ThrustVAppliesFourChannels
  intro s s2 s3 s6 s7 cr hs ua
  refine exec_of_acceptThrust (cmds := [(.fvl, s2), (.fvr, s3), (.bvl, s6), (.bvr, s7)]) rfl fun ch => ?_
  fin_cases ch <;> rfl

/-! What a frame of a format writes (spec/40_can_codec.md R97, R104). -/

/-- Each channel the format carries is left with the mapped byte at its offset, each other channel as it was. -/
theorem widthAfter_cmds (c : Cfg) (g : ThrustFormat) (d : Payload) (ch : Channel) (w : Width) :
    widthAfter ch (thrustApply c (g.cmds d)).actions w =
      ((g.speedOff.get ch).map fun k => mapWidth c ch (d.get k)).getD w := by
  cases hk : g.speedOff.get ch with
  | none => exact widthAfter_thrustApply_of_not_mem (fun b => by simp [mem_cmds, hk]) w
  | some k => exact widthAfter_thrustApply_of_mem (cmds_channels_nodup g d) (by simp [mem_cmds, hk]) w

theorem thrustApply_cmds_actions (c : Cfg) (g : ThrustFormat) (d : Payload) :
    (thrustApply c (g.cmds d)).actions =
      Eight.indexes.filterMap fun ch => (g.speedOff.get ch).map fun k => .pwmSet ch (mapWidth c ch (d.get k)) := by
  simp [thrustApply, ThrustFormat.cmds, List.map_filterMap, Function.comp_def]

/-! What the handler of a received frame does (spec/40_can_codec.md R98). -/

/-- A received frame is dropped, accepted as a kill command, or accepted as a thrust command. -/
theorem afterRx_cases (f : Frame) (s : State) :
    (¬accepted s.cfg f ∧ afterRx f s = s) ∨
      (∃ k, f.id ∈ s.cfg.cmdIds ∧ decodeCmd s.cfg f.len.toNat f.data = .killCommand k ∧
        afterRx f s = s.acceptKill k) ∨
      ∃ cmds cr hs ua, f.id ∈ s.cfg.cmdIds ∧ decodeCmd s.cfg f.len.toNat f.data = .thrust cmds cr hs ua ∧
        afterRx f s = s.acceptThrust cmds cr hs ua := by
  unfold afterRx accepted
  by_cases hid : f.id ∈ s.cfg.cmdIds
  · cases hd : decodeCmd s.cfg f.len.toNat f.data with
    | unrecognized => simp
    | killCommand k => simp [hid]
    | thrust cmds cr hs ua => simp [hid]
  · simp [hid]

theorem afterRx_of_thrust {f : Frame} {s : State} {cmds : List ThrustCmd} {cr hs ua : Byte}
    (hid : f.id ∈ s.cfg.cmdIds) (hd : decodeCmd s.cfg f.len.toNat f.data = .thrust cmds cr hs ua) :
    afterRx f s = s.acceptThrust cmds cr hs ua := by
  simp [afterRx, hid, hd]

/-- A step on a thrust frame that decodes, in every kill state and of every configured format. -/
theorem step_of_thrust {s : State} {f : Frame} {t : Time} {rest : List Stimulus} {cmds : List ThrustCmd}
    {cr hs ua : Byte} (hw : s.cfg.wf = true) (hidle : s.busy = false) (hq : s.ordq = .rxFrame f t :: rest)
    (hid : f.id ∈ s.cfg.cmdIds) (hd : decodeCmd s.cfg f.len.toNat f.data = .thrust cmds cr hs ua) :
    step s = .next ((s.accept (.rxFrame f t) rest).acceptThrust cmds cr hs ua).endCycle := by
  rw [step_pending hw hidle hq, afterStim, afterRx_of_thrust (s := s.accept (.rxFrame f t) rest) hid hd]

/-- Only a thrust frame that decodes writes the diagnostic bytes (spec/40_can_codec.md R99). -/
theorem afterStim_sameDiag {st : Stimulus} {s : State}
    (h : ∀ f t cmds cr hs ua, st = .rxFrame f t → f.id ∈ s.cfg.cmdIds →
      decodeCmd s.cfg f.len.toNat f.data ≠ .thrust cmds cr hs ua) : SameDiag s (afterStim st s) := by
  cases st with
  | rxFrame f t =>
    rcases afterRx_cases f s with ⟨-, hrx⟩ | ⟨k, -, -, hrx⟩ | ⟨cmds, cr, hs, ua, hid, hd, -⟩
    · rw [afterStim, hrx]
      exact ⟨rfl, rfl, rfl⟩
    · rw [afterStim, hrx]
      exact (acceptKill_frame s k).2.1
    · exact absurd hd (h f t cmds cr hs ua rfl hid)
  | hallSample raw t => constructor <;> simp [afterStim, handleHall]
  | wdTick t =>
    simp only [afterStim, handleWdTick]
    split
    · constructor <;> simp
    · exact ⟨rfl, rfl, rfl⟩
  | statusTick t => constructor <;> simp [afterStim]

/-- Settles O32: a thrust frame that decodes is accepted in every kill state, and no other stimulus writes the bytes. -/
theorem diagnosticBytesFollowThrustFrames : Obligations.DiagnosticBytesFollowThrustFrames := by
  unfold Obligations.DiagnosticBytesFollowThrustFrames
  intro s u st rest hw hidle hq hstep
  constructor
  · rintro f t cmds cr hs ua rfl hid hd
    rw [step_of_thrust hw hidle hq hid hd] at hstep
    cases hstep
    have h := acceptThrust_spec (s.accept (.rxFrame f t) rest) cmds cr hs ua
    exact ⟨h.diagCr, h.diagHs, h.diagUa⟩
  · intro hno
    rw [step_pending hw hidle hq] at hstep
    cases hstep
    have h := afterStim_sameDiag (s := s.accept st rest) hno
    exact ⟨h.cr, h.hs, h.ua⟩

/-- Settles O33: the frame decodes by its format, so the step accepts the commands the format carries. -/
theorem anyThrustFormatIsApplied : Obligations.AnyThrustFormatIsApplied := by
  unfold Obligations.AnyThrustFormatIsApplied
  intro s f t rest g hw hidle hq hid hg htag hlen
  have hd := decodeCmd_of_format hw hg f.data htag
  rw [← hlen] at hd
  have h := acceptThrust_spec (s.accept (.rxFrame f t) rest) (g.cmds f.data) (f.data.get g.crOff) (f.data.get g.hsOff)
    (f.data.get g.uaOff)
  refine ⟨_, step_of_thrust hw hidle hq hid hd, h.wdLast, h.diagCr, h.diagHs, h.diagUa, h.ks, h.pwmEn, h.thrPwr,
    h.mainPwr, h.rest.hallLast, fun hrun => ⟨fun ch => ?_, ?_⟩, fun hne => ?_⟩
  · obtain ⟨he, -⟩ := h.running hrun
    have hpw := (he.pw ch).trans (widthAfter_cmds _ g f.data ch _)
    cases hk : g.speedOff.get ch <;> simpa [hk] using hpw
  · obtain ⟨he, -⟩ := h.running hrun
    exact he.trace.trans (congrArg (s.trace ++ ·) (thrustApply_cmds_actions s.cfg g f.data))
  · rw [h.ignored hne]
    exact ⟨rfl, rfl⟩

end Sys2Proof.Machine
end

section
/-! PROOFS. The transmitted frames of spec/40_can_codec.md R105 to R110, and the step as the run of an instruction
(R98, spec/44_kill_fsm.md R157). -/

namespace Sys2Proof.Machine

/-- What transmitting a status event does: one `Tx`, one ack, no register (spec/40_can_codec.md R91). -/
theorem transmit_spec (s : State) (e : StatusEvent) :
    (s.transmit e).trace = s.trace ++ [specTx s.cfg e] ∧ SameRegs s (s.transmit e) ∧ KeepsRest s (s.transmit e) ∧
      TookAcks s (s.transmit e) 1 := by
  have he := emit_emitted s (txStatus s.cfg e)
  have ha := emit_tookAcks s (txStatus s.cfg e)
  refine ⟨by rw [← txStatus_eq_specTx]; exact he.trace, ?_, ?_, ha⟩
  · exact {
      ks := State.emit_ks ..
      pw := Eight.ext_get he.pw
      pwmEn := he.pwmEn
      thrPwr := he.thrPwr
      mainPwr := he.mainPwr
      hallLast := State.emit_hallLast ..
      wdLast := State.emit_wdLast ..
      diagCr := State.emit_diagCr ..
      diagHs := State.emit_diagHs ..
      diagUa := State.emit_diagUa ..
      cfg := State.emit_cfg .. }
  · exact {
      hallLast := State.emit_hallLast ..
      lastOk := State.emit_lastOk ..
      ordq := State.emit_ordq ..
      busy := State.emit_busy ..
      cfg := State.emit_cfg ..
      arrival := State.emit_arrival .. }

/-- Settles O27: the six frames are those of the six status events. -/
theorem statusFramesTransmitAndWriteNothing : Obligations.StatusFramesTransmitAndWriteNothing := by
  unfold Obligations.StatusFramesTransmitAndWriteNothing
  intro s p hp
  change p ∈ StatusEvent.all.map fun e => (statusInstr e, specTx s.cfg e) at hp
  obtain ⟨e, -, rfl⟩ := List.mem_map.mp hp
  exact ⟨s.transmit e, exec_statusInstr e s, transmit_spec s e⟩

/-- A step on a stimulus whose handler runs `i` is the run of `i` between the beginning and the end of the cycle. -/
theorem step_of_handle_eq_exec {s : State} {st : Stimulus} {rest : List Stimulus} {i : Instr} (hw : s.cfg.wf = true)
    (hidle : s.busy = false) (hq : s.ordq = st :: rest)
    (hx : handle st (s.accept st rest) = exec i (s.accept st rest)) :
    ∃ u, exec i (s.accept st rest) = .next u ∧ step s = .next u.endCycle :=
  ⟨_, hx.symm.trans (handle_eq st _), step_pending hw hidle hq⟩

/-- Settles O28: both handlers run the instruction, and the beginning of a cycle changes nothing they decide by. -/
theorem stepRunsTheDecodedInstruction : Obligations.StepRunsTheDecodedInstruction := by
  unfold Obligations.StepRunsTheDecodedInstruction
  intro s rest i hw hidle
  constructor
  · intro f t hq hid hd
    exact step_of_handle_eq_exec (st := .rxFrame f t) hw hidle hq
      (handle_rxFrame_of_decodeRx (s := s.accept (.rxFrame f t) rest) hid hd)
  · rintro e t hq hlist rfl
    exact step_of_handle_eq_exec (st := .statusTick t) hw hidle hq
      (handle_statusTick_of_singleton (s := s.accept (.statusTick t) rest) hlist)

end Sys2Proof.Machine
end

section
/-! PROOFS. The thrust mapper of spec/41_thrust_mapper.md R111 to R113 and R117: the two segments of the width are
written once over the magnitude of the speed operand, for the integer width and for the exact one, and the statements
about a register follow because a register holds the integer width itself. -/

namespace Sys2Proof.Machine

/-! The integer width (spec/41_thrust_mapper.md R111), over the magnitude of the operand. -/

theorem widthAt_natCast (g : GenParams) (n : ℕ) : widthAt g n = g.neutral + (g.fwd - g.neutral) * n / 127 := by
  simp [widthAt]

/-- The reverse segment; at magnitude 0 it meets the forward one. -/
theorem widthAt_neg_natCast (g : GenParams) (n : ℕ) :
    widthAt g (-n) = g.neutral - (g.neutral - g.rev) * n / 127 := by
  rcases Nat.eq_zero_or_pos n with rfl | hn
  · simp [widthAt]
  · unfold widthAt
    rw [if_neg (by omega), neg_neg, Int.toNat_natCast]

/-- No constraint on the constants is needed: each segment is monotone and neutral lies between the two. -/
theorem widthAt_mono (g : GenParams) {p q : ℤ} (h : p ≤ q) : widthAt g p ≤ widthAt g q := by
  obtain ⟨m, rfl | rfl⟩ := p.eq_nat_or_neg <;> obtain ⟨n, rfl | rfl⟩ := q.eq_nat_or_neg
  case inl.inl =>
    have hmn : m ≤ n := by omega
    rw [widthAt_natCast, widthAt_natCast]
    gcongr
  case inl.inr =>
    obtain ⟨rfl, rfl⟩ : m = 0 ∧ n = 0 := by omega
    simp
  case inr.inl =>
    rw [widthAt_neg_natCast, widthAt_natCast]
    omega
  case inr.inr =>
    have hnm : n ≤ m := by omega
    rw [widthAt_neg_natCast, widthAt_neg_natCast]
    gcongr

/-! The register (spec/41_thrust_mapper.md R117). -/

/-- The register holds the width of R111 itself: it lies below the forward width, which fits 16 bits. -/
theorem mapWidth_toNat {c : Cfg} (hw : c.wf = true) (ch : Channel) (b : Byte) :
    (mapWidth c ch b).toNat = widthAt (c.genOf ch) (speedOperand b) := by
  obtain ⟨h1, h2, h3⟩ := genOf_of_wf hw ch
  obtain ⟨-, hfwd⟩ := widthAt_range (c.genOf ch) (speedOperand b) h1 h2 (speedOperand_range b)
  exact (BitVec.toNat_ofNat ..).trans (Nat.mod_eq_of_lt (hfwd.trans_lt h3))

/-- Settles O10: the range is the one every transition's writes keep, and the register is the width itself. -/
theorem mapStaysInRangeWithoutOverflow : Obligations.MapStaysInRangeWithoutOverflow := by
  unfold Obligations.MapStaysInRangeWithoutOverflow
  intro c ch b hw
  obtain ⟨hrev, hfwd⟩ := allows_mapWidth hw ch b
  exact ⟨hrev, hfwd, mapWidth_toNat hw ch b⟩

/-! The three named operands (spec/41_thrust_mapper.md R112 (b), (c)). -/

theorem widthAt_zero (g : GenParams) : widthAt g 0 = g.neutral := by
  simp [widthAt]

theorem widthAt_full_forward {g : GenParams} (h : g.neutral ≤ g.fwd) : widthAt g 127 = g.fwd := by
  have := widthAt_natCast g 127
  rw [Nat.mul_div_cancel _ (by decide)] at this
  exact this.trans (Nat.add_sub_of_le h)

theorem widthAt_full_reverse {g : GenParams} (h : g.rev ≤ g.neutral) : widthAt g (-127) = g.rev := by
  have := widthAt_neg_natCast g 127
  rw [Nat.mul_div_cancel _ (by decide)] at this
  exact this.trans (Nat.sub_sub_self h)

theorem speedOperand_named :
    speedOperand 0x00 = 0 ∧ speedOperand 0x7F = 127 ∧ speedOperand 0x81 = -127 ∧ speedOperand 0x80 = -127 := by
  decide

/-- Settles O11: the four bytes have the operands 0, 127 and, the last one by the clamp, twice -127. -/
theorem mapHitsNeutralAndEndPoints : Obligations.MapHitsNeutralAndEndPoints := by
  unfold Obligations.MapHitsNeutralAndEndPoints
  intro c ch hw
  obtain ⟨hrev, hfwd, -⟩ := genOf_of_wf hw ch
  obtain ⟨h00, h7F, h81, h80⟩ := speedOperand_named
  simp only [mapWidth_toNat hw, h00, h7F, h81, h80]
  exact ⟨widthAt_zero _, widthAt_full_forward hfwd, widthAt_full_reverse hrev, widthAt_full_reverse hrev⟩

/-! Monotonicity (spec/41_thrust_mapper.md R112 (d)). -/

theorem speedOperand_mono {a b : Byte} (h : a.toInt ≤ b.toInt) : speedOperand a ≤ speedOperand b := by
  rw [speedOperand_eq, speedOperand_eq]
  split <;> split <;> omega

/-- Settles O12: the clamp is monotone, and so is the width in the clamped operand. -/
theorem mapIsMonotone : Obligations.MapIsMonotone := by
  unfold Obligations.MapIsMonotone
  intro c ch a b hw h
  rw [mapWidth_toNat hw, mapWidth_toNat hw]
  exact widthAt_mono _ (speedOperand_mono h)

/-! The exact width (spec/41_thrust_mapper.md R113), over the magnitude of the operand, and its rounding. -/

theorem widthAtSpeed_of_le_neg_one (g : GenParams) {s : ℚ} (h : s ≤ -1) :
    widthAtSpeed g s = widthAtSpeed g (-1) := by
  have hs : max (-1) (min 1 s) = -1 := max_eq_left ((min_le_right 1 s).trans h)
  simp [widthAtSpeed, hs]

/-- The exact mapping clamps the speed of the byte where the integer one clamps its operand. -/
theorem widthAtSpeed_speedOperand (g : GenParams) (b : Byte) :
    widthAtSpeed g ((b.toInt : ℚ) / 127) = widthAtSpeed g ((speedOperand b : ℚ) / 127) := by
  rw [speedOperand_eq]
  split
  · next h =>
    have hb : (b.toInt : ℚ) ≤ -127 := by exact_mod_cast h.le
    rw [widthAtSpeed_of_le_neg_one g (by linarith)]
    norm_num
  · rfl

/-- Inside the clamp the forward segment is neutral and an exact quotient, the one R111 rounds down. -/
theorem widthAtSpeed_natCast {g : GenParams} (h : g.neutral ≤ g.fwd) {n : ℕ} (hn : n ≤ 127) :
    widthAtSpeed g ((n : ℚ) / 127) = g.neutral + (((g.fwd - g.neutral) * n : ℕ) : ℚ) / (127 : ℕ) := by
  have hs : (0 : ℚ) ≤ (n : ℚ) / 127 := by positivity
  have hle : (n : ℚ) / 127 ≤ 1 := (div_le_one (by norm_num)).mpr (by exact_mod_cast hn)
  simp only [widthAtSpeed, min_eq_right hle, max_eq_right (show (-1 : ℚ) ≤ n / 127 by linarith), if_pos hs]
  push_cast [Nat.cast_sub h]
  ring

theorem widthAtSpeed_neg_natCast {g : GenParams} (h : g.rev ≤ g.neutral) {n : ℕ} (hn : n ≤ 127) :
    widthAtSpeed g (-(n : ℚ) / 127) = g.neutral - (((g.neutral - g.rev) * n : ℕ) : ℚ) / (127 : ℕ) := by
  rcases Nat.eq_zero_or_pos n with rfl | hpos
  · simp [widthAtSpeed]
  · have hs : -(n : ℚ) / 127 < 0 := div_neg_of_neg_of_pos (by simpa using hpos) (by norm_num)
    have hge : -1 ≤ -(n : ℚ) / 127 := (le_div_iff₀ (by norm_num)).mpr (by simpa using Nat.cast_le (α := ℚ).mpr hn)
    simp only [widthAtSpeed, min_eq_right (show -(n : ℚ) / 127 ≤ 1 by linarith), max_eq_right hge,
      if_neg (not_le.mpr hs), ge_iff_le]
    push_cast [Nat.cast_sub h]
    ring

theorem floor_widthAtSpeed {g : GenParams} (h : g.neutral ≤ g.fwd) {n : ℕ} (hn : n ≤ 127) :
    ⌊widthAtSpeed g ((n : ℚ) / 127)⌋ = (widthAt g n : ℤ) := by
  rw [widthAtSpeed_natCast h hn, Int.floor_natCast_add, Rat.floor_natCast_div_natCast, widthAt_natCast]
  push_cast
  rfl

/-- Rounding the reverse segment up takes off the rounded-down quotient, which is at most neutral minus reverse, so the
integer subtraction of R111 does not stop at 0. -/
theorem ceil_widthAtSpeed {g : GenParams} (h : g.rev ≤ g.neutral) {n : ℕ} (hn : n ≤ 127) :
    ⌈widthAtSpeed g (-(n : ℚ) / 127)⌉ = (widthAt g (-n) : ℤ) := by
  have hdrop : (g.neutral - g.rev) * n / 127 ≤ g.neutral - g.rev :=
    Nat.div_le_of_le_mul ((Nat.mul_le_mul_left _ hn).trans_eq (Nat.mul_comm _ _))
  rw [widthAtSpeed_neg_natCast h hn, sub_eq_add_neg, Int.ceil_natCast_add, Int.ceil_neg,
    Rat.floor_natCast_div_natCast, widthAt_neg_natCast, Nat.cast_sub (hdrop.trans (Nat.sub_le _ _))]
  rfl

/-- Settles O13: both mappings see the clamped operand, whose sign is the byte's, and each segment rounds toward
neutral. -/
theorem mapIsRoundedInterpolation : Obligations.MapIsRoundedInterpolation := by
  unfold Obligations.MapIsRoundedInterpolation
  intro c ch b hw
  obtain ⟨hrev, hfwd, -⟩ := genOf_of_wf hw ch
  obtain ⟨hlo, hhi⟩ := speedOperand_range b
  have hq := speedOperand_eq b
  rw [mapWidth_toNat hw, widthAtSpeed_speedOperand]
  generalize speedOperand b = q at *
  constructor
  · intro hb
    obtain ⟨n, rfl⟩ : ∃ n : ℕ, q = n := Int.eq_ofNat_of_zero_le (by split at hq <;> omega)
    rw [Int.cast_natCast, floor_widthAtSpeed hfwd (by omega)]
  · intro hb
    obtain ⟨n, hn⟩ : ∃ n : ℕ, -q = n := Int.eq_ofNat_of_zero_le (by split at hq <;> omega)
    obtain rfl : q = -n := by omega
    rw [Int.cast_neg, Int.cast_natCast, ceil_widthAtSpeed hrev (by omega)]

end Sys2Proof.Machine
end

section
/-! PROOFS. The hall sample of spec/42_hall_interlock.md R123 to R125: however many events it feeds, they make one
transition (`hallTransition`), because after a kill every polled event is ignored (spec/60_exceptions.md R182). -/

namespace Sys2Proof.Machine

/-! The polled events (spec/42_hall_interlock.md R125). -/

/-- The two events a hall sample feeds by level, whether or not the level changed. -/
def Event.Polled (e : Event) : Prop := e = .softKillMagnetAsserted ∨ e = .goMagnetDeasserted

theorem fsm_polled {e : Event} (he : e.Polled) (c : Cfg) (k : KillState) (h : Hall) :
    fsm c k h e = if k = .running then softKill c else ignore k := by
  obtain rfl | rfl := he
  all_goals cases k <;> rfl

theorem feedAll_polled_of_killed {es : List Event} (hes : ∀ e ∈ es, e.Polled) {s : State} (hk : s.ks ≠ .running) :
    s.feedAll es = s := by
  induction es with
  | nil => rfl
  | cons e es ih =>
    have hcell : fsm s.cfg s.ks s.hallLast e = ignore s.ks := by rw [fsm_polled (hes e List.mem_cons_self), if_neg hk]
    rw [State.feedAll_cons, feed_eq_self hcell]
    exact ih fun x hx => hes x (List.mem_cons_of_mem _ hx)

/-- In `Running` the first polled event soft-kills, and the soft kill makes the next one ignored. -/
theorem feedAll_polled_of_running {es : List Event} (hes : ∀ e ∈ es, e.Polled) (hne : es ≠ []) {s : State}
    (hk : s.ks = .running) : s.feedAll es = s.take (softKill s.cfg) := by
  cases es with
  | nil => exact absurd rfl hne
  | cons e es =>
    rw [State.feedAll_cons, State.feed, fsm_polled (hes e List.mem_cons_self), if_pos hk]
    exact feedAll_polled_of_killed (fun x hx => hes x (List.mem_cons_of_mem _ hx)) nofun

/-! The events of a hall sample (spec/42_hall_interlock.md R123, R124). -/

/-- A reading in which a polled condition holds (spec/42_hall_interlock.md R125). -/
abbrev PolledCondition (cur : Hall) : Prop := cur.soft = true ∨ cur.go = false

/-- The removal edge of the on/off magnet (spec/42_hall_interlock.md R124). -/
abbrev OnOffRemoved (prev cur : Hall) : Prop := prev.onoff = true ∧ cur.onoff = false

/-- The events of a hall sample are the removal, if there is one, then the polled ones. -/
theorem hallEvents_eq (prev cur : Hall) : ∃ es : List Event, (∀ e ∈ es, e.Polled) ∧ (es ≠ [] ↔ PolledCondition cur) ∧
    hallEvents prev cur = (if OnOffRemoved prev cur then [.onOffMagnetRemoved] else []) ++ es := by
  refine ⟨(if cur.soft then [.softKillMagnetAsserted] else []) ++ (if cur.go then [] else [.goMagnetDeasserted]),
    fun e he => ?_, ?_, ?_⟩
  · simp only [List.mem_append, List.mem_ite_nil_right, List.mem_ite_nil_left, List.mem_singleton] at he
    exact he.imp And.right And.right
  · cases hs : cur.soft <;> cases hg : cur.go <;> simp [PolledCondition, hs, hg]
  · simp [hallEvents, OnOffRemoved]

/-- The one transition of a hall sample with the filtered levels `cur`, after `prev` (spec/60_exceptions.md R182). -/
def hallTransition (c : Cfg) (k : KillState) (prev cur : Hall) : Transition :=
  if OnOffRemoved prev cur then hardKill c
  else if k = .running ∧ PolledCondition cur then softKill c
  else ignore k

theorem hallTransition_of_removed {c : Cfg} {k : KillState} {prev cur : Hall} (h : OnOffRemoved prev cur) :
    hallTransition c k prev cur = hardKill c := if_pos h

theorem hallTransition_of_polled {c : Cfg} {k : KillState} {prev cur : Hall} (h : ¬OnOffRemoved prev cur)
    (hp : k = .running ∧ PolledCondition cur) : hallTransition c k prev cur = softKill c :=
  (if_neg h).trans (if_pos hp)

theorem hallTransition_of_none {c : Cfg} {k : KillState} {prev cur : Hall} (h : ¬OnOffRemoved prev cur)
    (hp : ¬(k = .running ∧ PolledCondition cur)) : hallTransition c k prev cur = ignore k :=
  (if_neg h).trans (if_neg hp)

/-- Feeding the events of a hall sample takes that one transition: after a hard kill nothing is in `Running` for the
polled events to soft-kill. -/
theorem feedAll_hallEvents (s : State) (prev cur : Hall) :
    s.feedAll (hallEvents prev cur) = s.take (hallTransition s.cfg s.ks prev cur) := by
  obtain ⟨es, hes, hne, heq⟩ := hallEvents_eq prev cur
  rw [heq]
  by_cases hrem : OnOffRemoved prev cur
  · rw [hallTransition_of_removed hrem, if_pos hrem, List.singleton_append, State.feedAll_cons]
    exact feedAll_polled_of_killed hes nofun
  · rw [if_neg hrem, List.nil_append]
    by_cases hp : s.ks = .running ∧ PolledCondition cur
    · rw [hallTransition_of_polled hrem hp]
      exact feedAll_polled_of_running hes (hne.mpr hp.2) hp.1
    · rw [hallTransition_of_none hrem hp, State.take_ignore]
      by_cases hk : s.ks = .running
      · rw [Classical.not_not.mp fun h => hp ⟨hk, hne.mp h⟩, State.feedAll_nil]
      · exact feedAll_polled_of_killed hes hk

/-! The step on a hall sample (spec/42_hall_interlock.md R123). -/

/-- What a step on a hall sample does, said once: the filtered levels are stored and transition `tr` is taken. -/
structure TakesOnHallSample (s u : State) (cur : Hall) (tr : Transition) : Prop where
  hallLast : u.hallLast = cur
  wdLast : u.wdLast = s.wdLast
  diag : SameDiag s u
  emitted : Emitted s u tr.actions
  ks : u.ks = tr.next
  lastOk : u.lastOk = (s.acksAhead (ackCount tr.actions)).all id

/-- Between the beginning and the end of a cycle, storing levels and taking a transition is all that happens. -/
theorem takesOnHallSample_take (s : State) (st : Stimulus) (rest : List Stimulus) (cur : Hall) (tr : Transition) :
    TakesOnHallSample s ({ s.accept st rest with hallLast := cur }.take tr).endCycle cur tr := by
  have he := take_emitted { s.accept st rest with hallLast := cur } tr
  have ha := take_tookAcks { s.accept st rest with hallLast := cur } tr
  exact {
    hallLast := State.take_hallLast ..
    wdLast := State.take_wdLast ..
    diag := ⟨State.take_diagCr .., State.take_diagHs .., State.take_diagUa ..⟩
    emitted := ⟨he.trace, he.pw, he.pwmEn, he.thrPwr, he.mainPwr⟩
    ks := rfl
    lastOk := ha.ok }

theorem step_hallSample {s : State} {raw : PerSensor Bool} {t : Time} {rest : List Stimulus} (hw : s.cfg.wf = true)
    (hidle : s.busy = false) (hq : s.ordq = .hallSample raw t :: rest) :
    ∃ u, step s = .next u ∧ TakesOnHallSample s u (filtered s.cfg raw)
      (hallTransition s.cfg s.ks s.hallLast (filtered s.cfg raw)) := by
  refine ⟨_, step_pending hw hidle hq, ?_⟩
  rw [afterStim, handleHall, feedAll_hallEvents]
  exact takesOnHallSample_take ..

/-- A hall sample that makes no transition emits nothing and takes no ack, so `last_ok` is 1. -/
theorem TakesOnHallSample.of_ignore {s u : State} {cur : Hall} (h : TakesOnHallSample s u cur (ignore s.ks)) :
    u.trace = s.trace ∧ u.ks = s.ks ∧ u.pw = s.pw ∧ u.pwmEn = s.pwmEn ∧ u.thrPwr = s.thrPwr ∧
      u.mainPwr = s.mainPwr ∧ u.lastOk = true :=
  ⟨h.emitted.trace.trans (List.append_nil _), h.ks, Eight.ext_get h.emitted.pw, h.emitted.pwmEn, h.emitted.thrPwr,
    h.emitted.mainPwr, h.lastOk.trans (TookAcks.zero { s with cycOk := true }).ok.symm⟩

/-- Settles O34: the step takes the one transition of the sample, which is the hard kill, the soft kill or none. -/
theorem hallSampleKillsAtMostOnce : Obligations.HallSampleKillsAtMostOnce := by
  unfold Obligations.HallSampleKillsAtMostOnce
  intro s raw t rest hw hidle hq
  obtain ⟨u, hstep, htakes⟩ := step_hallSample hw hidle hq
  refine ⟨u, hstep, htakes.wdLast, htakes.diag, fun k => ?_, ?_⟩
  · rw [htakes.hallLast, filtered_get]
    rfl
  · rw [← htakes.hallLast] at htakes
    refine ⟨fun hrem => ?_, fun hrem hrun hp => ?_, fun hrem hp => ?_⟩
    · rw [hallTransition_of_removed hrem] at htakes
      exact ⟨htakes.emitted, htakes.ks⟩
    · rw [hallTransition_of_polled hrem ⟨hrun, hp⟩] at htakes
      exact ⟨htakes.emitted, htakes.ks⟩
    · rw [hallTransition_of_none hrem hp] at htakes
      exact htakes.of_ignore

end Sys2Proof.Machine
end

section
/-! PROOFS. The watchdog of spec/43_watchdog.md R131 to R133: which stimuli write `wd_last`, and when a watchdog tick
makes a transition. -/

namespace Sys2Proof.Machine

/-! The record (spec/43_watchdog.md R131). -/

/-- Both kinds of accepted frame record, whatever the transition their event then makes. -/
theorem afterRx_wdLast_of_accepted {f : Frame} {s : State} (h : accepted s.cfg f) :
    (afterRx f s).wdLast = s.arrival := by
  rcases afterRx_cases f s with ⟨hno, -⟩ | ⟨k, -, -, hrx⟩ | ⟨cmds, cr, hs, ua, -, -, hrx⟩
  · exact absurd h hno
  · rw [hrx]
    exact (acceptKill_frame s k).1
  · rw [hrx]
    exact (acceptThrust_spec s cmds cr hs ua).wdLast

theorem afterRx_of_not_accepted {f : Frame} {s : State} (h : ¬accepted s.cfg f) : afterRx f s = s := by
  rcases afterRx_cases f s with ⟨-, hrx⟩ | ⟨k, hid, hd, -⟩ | ⟨cmds, cr, hs, ua, hid, hd, -⟩
  · exact hrx
  · exact absurd ⟨List.contains_iff_mem.mpr hid, by simp [hd]⟩ h
  · exact absurd ⟨List.contains_iff_mem.mpr hid, by simp [hd]⟩ h

/-- A watchdog tick reads the record and never writes it (spec/43_watchdog.md R132). -/
theorem handleWdTick_frame (s : State) :
    (handleWdTick s).wdLast = s.wdLast ∧ (handleWdTick s).hallLast = s.hallLast ∧ SameDiag s (handleWdTick s) := by
  unfold handleWdTick
  split
  · exact ⟨State.feed_wdLast .., State.feed_hallLast .., State.feed_diagCr .., State.feed_diagHs ..,
      State.feed_diagUa ..⟩
  · exact ⟨rfl, rfl, rfl, rfl, rfl⟩

/-- Only an accepted frame writes `wd_last`. -/
theorem afterStim_wdLast_of_not_accepted {st : Stimulus} {s : State}
    (h : ∀ f t, st = .rxFrame f t → ¬accepted s.cfg f) : (afterStim st s).wdLast = s.wdLast := by
  cases st with
  | rxFrame f t => rw [afterStim, afterRx_of_not_accepted (h f t rfl)]
  | hallSample raw t => exact State.feedAll_wdLast ..
  | wdTick t => exact (handleWdTick_frame s).1
  | statusTick t => exact State.emitAll_wdLast ..

/-- Settles O31: the arrival time that accepted frames record is the one the cycle's stimulus carries. -/
theorem watchdogRecordsAcceptedFramesOnly : Obligations.WatchdogRecordsAcceptedFramesOnly := by
  unfold Obligations.WatchdogRecordsAcceptedFramesOnly
  intro s u st rest hw hidle hq hstep
  rw [step_pending hw hidle hq] at hstep
  cases hstep
  constructor
  · rintro f t rfl hacc
    exact afterRx_wdLast_of_accepted (s := s.accept (.rxFrame f t) rest) hacc
  · intro hno
    exact afterStim_wdLast_of_not_accepted (s := s.accept st rest) hno

/-! The watchdog tick (spec/43_watchdog.md R132, R133). -/

/-- Past the timeout in `Running`, the condition under which a watchdog tick makes a transition: the comparison is
strict and the difference is taken modulo `2^32` (spec/43_watchdog.md R132). -/
abbrev State.TimesOutAt (s : State) (t : Time) : Prop :=
  s.cfg.wdTimeout < (t - s.wdLast).toNat ∧ s.ks = .running

theorem handleWdTick_of_timesOut {s : State} (h : s.TimesOutAt s.arrival) :
    handleWdTick s = s.take (softKill s.cfg) := by
  obtain ⟨hlate, hrun⟩ := h
  rw [handleWdTick, elapsed, if_pos hlate, State.feed, hrun]
  rfl

/-- Before the timeout no event is fed; in a kill state the event is fed and ignored (spec/44_kill_fsm.md R146). -/
theorem handleWdTick_of_not_timesOut {s : State} (h : ¬s.TimesOutAt s.arrival) : handleWdTick s = s := by
  rw [handleWdTick, elapsed]
  split
  · next hlate =>
    have hcell : fsm s.cfg s.ks s.hallLast .commandTimeout = ignore s.ks := by
      cases hk : s.ks with
      | running => exact absurd ⟨hlate, hk⟩ h
      | softKilled => rfl
      | hardKilled => rfl
    exact feed_eq_self hcell
  · rfl

/-- A cycle whose handler does nothing writes no register but `last_ok`. -/
theorem sameRegs_accept_endCycle (s : State) (st : Stimulus) (rest : List Stimulus) :
    SameRegs s (s.accept st rest).endCycle :=
  ⟨rfl, rfl, rfl, rfl, rfl, rfl, rfl, rfl, rfl, rfl, rfl⟩

/-- Settles O35: the tick takes the soft kill exactly when it times out, and is otherwise an empty cycle. -/
theorem watchdogTickTimesOutStrictly : Obligations.WatchdogTickTimesOutStrictly := by
  unfold Obligations.WatchdogTickTimesOutStrictly
  intro s t rest hw hidle hq
  obtain ⟨hwd, hhall, hdiag⟩ := handleWdTick_frame (s.accept (.wdTick t) rest)
  refine ⟨_, step_pending hw hidle hq, hwd, hhall, ⟨hdiag.cr, hdiag.hs, hdiag.ua⟩, fun hout => ?_, fun hin => ?_⟩
  · rw [afterStim, handleWdTick_of_timesOut (s := s.accept (.wdTick t) rest) hout]
    have he := take_emitted (s.accept (.wdTick t) rest) (softKill s.cfg)
    exact ⟨⟨he.trace, he.pw, he.pwmEn, he.thrPwr, he.mainPwr⟩, rfl⟩
  · rw [afterStim, handleWdTick_of_not_timesOut (s := s.accept (.wdTick t) rest) hin]
    exact ⟨sameRegs_accept_endCycle .., rfl, rfl⟩

end Sys2Proof.Machine
end

section
/-! PROOFS. The Kill State Machine of spec/44_kill_fsm.md R146 to R156, event by event: each statement is a row of the
transition matrix, read as the cells that act and the cells marked `ignore`, with what the cell's actions leave. -/

namespace Sys2Proof.Machine

/-! The rows of the matrix (spec/44_kill_fsm.md R146). -/

/-- The two events of a hard kill (spec/44_kill_fsm.md R148). -/
abbrev Event.HardKills (e : Event) : Prop := e = .hardKillRequest ∨ e = .onOffMagnetRemoved

/-- The four events of a soft kill (spec/44_kill_fsm.md R150). -/
abbrev Event.SoftKills (e : Event) : Prop :=
  e = .softKillRequest ∨ e = .softKillMagnetAsserted ∨ e = .goMagnetDeasserted ∨ e = .commandTimeout

theorem fsm_hardKills {e : Event} (he : e.HardKills) (c : Cfg) (k : KillState) (h : Hall) :
    fsm c k h e = hardKill c := by
  obtain rfl | rfl := he
  · rfl
  · rfl

theorem fsm_softKills_of_running {e : Event} (he : e.SoftKills) (c : Cfg) (h : Hall) :
    fsm c .running h e = softKill c := by
  obtain rfl | rfl | rfl | rfl := he
  all_goals rfl

theorem fsm_softKills_of_ne {e : Event} (he : e.SoftKills) {c : Cfg} {k : KillState} {h : Hall} (hk : k ≠ .running) :
    fsm c k h e = ignore k := by
  obtain rfl | rfl | rfl | rfl := he
  all_goals
    cases k with
    | running => exact absurd rfl hk
    | hardKilled => rfl
    | softKilled => rfl

/-- What feeding an event does, by the cell of the matrix it meets. -/
theorem feed_of_cell {s : State} {e : Event} {tr : Transition} (h : fsm s.cfg s.ks s.hallLast e = tr) :
    Emitted s (s.feed e) tr.actions ∧ (s.feed e).ks = tr.next ∧ TookAcks s (s.feed e) (ackCount tr.actions) ∧
      (s.feed e).wdLast = s.wdLast ∧ SameDiag s (s.feed e) ∧ KeepsRest s (s.feed e) :=
  h ▸ feed_spec s e

/-! The events (spec/44_kill_fsm.md R148 to R153). -/

/-- Settles O14: the hard kill stands in every cell of both rows. -/
theorem hardKillRunsInEveryState : Obligations.HardKillRunsInEveryState := by
  unfold Obligations.HardKillRunsInEveryState
  intro s e hkills
  obtain ⟨he, hks, ha, hwd, hdiag, hrest⟩ := feed_of_cell (fsm_hardKills hkills s.cfg s.ks s.hallLast)
  obtain ⟨hen, hthr, hmain, hpw⟩ := Emitted.outputs_of_specHardKill he
  have hdown : (s.feed e).PoweredDown := ⟨hen, hthr, hmain, by rwa [hrest.cfg]⟩
  exact ⟨he, hks, hdown, ha, rfl, hwd, hdiag, hrest⟩

/-- Settles O15: the hard unkill stands in the cell of `HardKilled`, which reads no magnet, `ignore` in the others. -/
theorem hardUnkillRunsInHardKilled : Obligations.HardUnkillRunsInHardKilled := by
  unfold Obligations.HardUnkillRunsInHardKilled
  refine fun s => ⟨fun hkilled => ?_, fun hkilled => feed_eq_self (fsm_hardUnkillRequest_of_ne hkilled)⟩
  obtain ⟨he, hks, ha, hwd, hdiag, hrest⟩ := feed_of_cell (s := s) (e := .hardUnkillRequest) (tr := hardUnkill s.cfg)
    (by rw [hkilled]; rfl)
  obtain ⟨hen, hthr, hmain, hpw⟩ := Emitted.outputs_of_specHardUnkill he
  exact ⟨he, hks, hmain, hthr, hen, hpw, ha, hwd, hdiag, hrest⟩

/-- Settles O16: the soft kill stands in the cell of `Running` of all four rows, `ignore` in the others. -/
theorem softKillRunsInRunning : Obligations.SoftKillRunsInRunning := by
  unfold Obligations.SoftKillRunsInRunning
  refine fun s e hkills => ⟨fun hrun => ?_, fun hne => feed_eq_self (fsm_softKills_of_ne hkills hne)⟩
  have hcell {e' : Event} (h : e'.SoftKills) : fsm s.cfg s.ks s.hallLast e' = softKill s.cfg :=
    hrun ▸ fsm_softKills_of_running h s.cfg s.hallLast
  obtain ⟨he, hks, ha, hwd, hdiag, hrest⟩ := feed_of_cell (hcell hkills)
  obtain ⟨hen, hthr, hmain, hpw⟩ := Emitted.outputs_of_specSoftKill he
  have hsame : s.feed e = s.feed .softKillRequest := by
    rw [State.feed, State.feed, hcell hkills, hcell (.inl rfl)]
  exact ⟨he, hks, hen, hthr, hmain, hpw, ha, rfl, hsame, hwd, hdiag, hrest⟩

/-- Settles O17: the cell of `SoftKilled` is the soft unkill under its guard, and `ignore` otherwise. -/
theorem softUnkillRunsUnderItsGuard : Obligations.SoftUnkillRunsUnderItsGuard := by
  unfold Obligations.SoftUnkillRunsUnderItsGuard
  refine fun s hkilled => ⟨fun ⟨hgo, hon⟩ => ?_,
    fun hguard => feed_eq_self (fsm_softUnkillRequest_of_not fun h => hguard h.2)⟩
  obtain ⟨he, hks, ha, hwd, hdiag, hrest⟩ := feed_of_cell (s := s) (e := .softUnkillRequest) (tr := softUnkill s.cfg)
    (by rw [hkilled]; exact fsm_softUnkillRequest_of_guard hgo hon)
  obtain ⟨hen, hthr, hmain, hpw⟩ := Emitted.outputs_of_specSoftUnkill he
  exact ⟨he, hks, hen, hthr, hmain, hpw, ha, hwd, hdiag, hrest⟩

/-- Settles O18: the cell of `Running` emits one `PwmSet` for each command, in list order. -/
theorem thrustAppliesInRunning : Obligations.ThrustAppliesInRunning := by
  unfold Obligations.ThrustAppliesInRunning
  intro s cmds hrun
  obtain ⟨he, hks, ha, hwd, hdiag, hrest⟩ := feed_of_cell (s := s) (e := .thrustCommand cmds)
    (tr := thrustApply s.cfg cmds) (by rw [hrun]; rfl)
  obtain ⟨hen, hthr, hmain⟩ := he.switches_of_acked (thrustApply_acked s.cfg cmds)
  rw [ackCount_thrustApply] at ha
  refine ⟨he, hks, fun ch hnot => ?_, fun hn ch b hmem => ?_, hen, hthr, hmain, ha, hwd, hdiag, hrest⟩
  · rw [he.pw, widthAfter_thrustApply_of_not_mem hnot]
  · rw [he.pw, widthAfter_thrustApply_of_mem hn hmem]

/-- Settles O19: each of the four groups of ignored cells is one group of rows of the matrix. -/
theorem ignoredCellsChangeNothing : Obligations.IgnoredCellsChangeNothing := by
  unfold Obligations.IgnoredCellsChangeNothing
  rintro s e (⟨rfl, hne⟩ | ⟨hkills, hne⟩ | ⟨rfl, hguard⟩ | ⟨⟨cmds, rfl⟩, hne⟩)
  · exact feed_eq_self (fsm_hardUnkillRequest_of_ne hne)
  · exact feed_eq_self (fsm_softKills_of_ne hkills hne)
  · refine feed_eq_self (fsm_softUnkillRequest_of_not fun ⟨hkilled, hgo, hon⟩ => ?_)
    simp [hkilled, hgo, hon] at hguard
  · exact feed_eq_self (fsm_thrustCommand_of_ne hne)

/-! The laws of the kill state (spec/44_kill_fsm.md R156). -/

/-- Down the column of `HardKilled`, one event commits another state. -/
theorem fsm_next_of_hardKilled (c : Cfg) (h : Hall) (e : Event) :
    (fsm c .hardKilled h e).next = if e = .hardUnkillRequest then .running else .hardKilled := by
  cases e <;> rfl

/-- Down the column of `SoftKilled`, only the guarded soft unkill commits `Running`. -/
theorem fsm_next_running_of_softKilled (c : Cfg) (h : Hall) (e : Event) :
    (fsm c .softKilled h e).next = .running ↔ e = .softUnkillRequest ∧ h.go = true ∧ h.onoff = true := by
  cases e with
  | softUnkillRequest =>
    by_cases hguard : h.go = true ∧ h.onoff = true
    · simp [fsm_softUnkillRequest_of_guard hguard.1 hguard.2, softUnkill, hguard]
    · simp [fsm_softUnkillRequest_of_not (k := .softKilled) fun hg => hguard hg.2, ignore, hguard]
  | _ => exact ⟨nofun, nofun⟩

/-- Settles O20, from the columns of `HardKilled` and `SoftKilled`. -/
theorem killStateLaws : Obligations.KillStateLaws := by
  unfold Obligations.KillStateLaws
  intro s e
  have hks : (s.feed e).ks = (fsm s.cfg s.ks s.hallLast e).next := rfl
  rw [hks]
  cases s.ks with
  | hardKilled =>
    rw [fsm_next_of_hardKilled]
    by_cases hunkill : e = .hardUnkillRequest <;> simp [hunkill]
  | softKilled => simp [fsm_next_running_of_softKilled]
  | running => simp

end Sys2Proof.Machine
end

section
/-! PROOFS. The status refresh of spec/44_kill_fsm.md R157: a status tick does nothing but transmit, and every other
stimulus makes at most one transition of the matrix, none of which transmits `KRHU`, `GA` or `GU`. -/

namespace Sys2Proof.Machine

/-! The status tick. -/

/-- Transmitting a list of status events: the frames in list order, one ack each, no register
(spec/40_can_codec.md R91). -/
theorem emitAll_txStatus_spec (es : List StatusEvent) (s : State) :
    (s.emitAll (es.map (txStatus s.cfg))).trace = s.trace ++ es.map (specTx s.cfg) ∧
      SameRegs s (s.emitAll (es.map (txStatus s.cfg))) ∧
      TookAcks s (s.emitAll (es.map (txStatus s.cfg))) es.length := by
  have hacked := txStatus_acked s.cfg es
  have hcount : ackCount (es.map (txStatus s.cfg)) = es.length := by
    rw [ackCount, List.filter_eq_self.mpr hacked, List.length_map]
  have he := emitAll_emitted (es.map (txStatus s.cfg)) s
  obtain ⟨hen, hthr, hmain⟩ := he.switches_of_acked hacked
  refine ⟨?_, ?_, hcount ▸ emitAll_tookAcks _ s⟩
  · rw [he.trace, funext (txStatus_eq_specTx s.cfg)]
  · exact {
      ks := State.emitAll_ks ..
      pw := emitAll_txStatus_pw ..
      pwmEn := hen
      thrPwr := hthr
      mainPwr := hmain
      hallLast := State.emitAll_hallLast ..
      wdLast := State.emitAll_wdLast ..
      diagCr := State.emitAll_diagCr ..
      diagHs := State.emitAll_diagHs ..
      diagUa := State.emitAll_diagUa ..
      cfg := State.emitAll_cfg .. }

/-- Settles O36: the cycle begins with the AND at 1 and the kill state and hall reading the refresh list is chosen by. -/
theorem statusTickOnlyTransmits : Obligations.StatusTickOnlyTransmits := by
  unfold Obligations.StatusTickOnlyTransmits
  intro s t rest hw hidle hq
  obtain ⟨htrace, hregs, hacks⟩ := emitAll_txStatus_spec (refreshList s) (s.accept (.statusTick t) rest)
  exact ⟨_, step_pending hw hidle hq, { hregs with }, htrace, hacks.ok⟩

/-! The other stimuli. -/

theorem hallTransition_cell (c : Cfg) (k : KillState) (prev cur : Hall) : Cell c k (hallTransition c k prev cur) := by
  by_cases hrem : OnOffRemoved prev cur
  · rw [hallTransition_of_removed hrem]
    exact .hardKill k
  · by_cases hp : k = .running ∧ PolledCondition cur
    · rw [hallTransition_of_polled hrem hp, hp.1]
      exact .softKill
    · rw [hallTransition_of_none hrem hp]
      exact .ignore k

/-- A stimulus that is no status tick makes one transition of the matrix, which may be `ignore`. -/
theorem afterStim_trace_of_cell {st : Stimulus} (hst : ∀ t, st ≠ .statusTick t) (s : State) :
    ∃ tr, Cell s.cfg s.ks tr ∧ (afterStim st s).trace = s.trace ++ tr.actions := by
  have hnone : s.trace = s.trace ++ (ignore s.ks).actions := (List.append_nil _).symm
  cases st with
  | rxFrame f t =>
    rw [afterStim]
    rcases afterRx_cases f s with ⟨-, hrx⟩ | ⟨k, -, -, hrx⟩ | ⟨cmds, cr, hs, ua, -, -, hrx⟩
    all_goals rw [hrx]
    · exact ⟨_, .ignore s.ks, hnone⟩
    · exact ⟨_, fsm_cell s.cfg s.ks s.hallLast (killEvent k), State.take_trace ..⟩
    · exact ⟨_, fsm_cell s.cfg s.ks s.hallLast (.thrustCommand cmds), State.take_trace ..⟩
  | hallSample raw t =>
    rw [afterStim, handleHall, feedAll_hallEvents]
    exact ⟨_, hallTransition_cell .., State.take_trace ..⟩
  | wdTick t =>
    rw [afterStim, handleWdTick]
    split
    · exact ⟨_, fsm_cell s.cfg s.ks s.hallLast .commandTimeout, State.take_trace ..⟩
    · exact ⟨_, .ignore s.ks, hnone⟩
  | statusTick t => exact absurd rfl (hst t)

/-- The frames of two status events differ under every configuration, whatever identifiers they share: they decode to
their events. -/
theorem txStatus_injective (c : Cfg) : Function.Injective (txStatus c) := by
  intro e e' h
  injection h with hframe
  have hdecode := decodeStatus_encodeStatus c e
  rw [hframe, decodeStatus_encodeStatus] at hdecode
  exact (Option.some.inj hdecode).symm

theorem txStatus_not_mem_stopAll (c : Cfg) (e : StatusEvent) : txStatus c e ∉ stopAll c := by
  simp [stopAll, txStatus]

/-- The status events that transitions of the matrix transmit: those of the two kills and of the soft unkill. -/
theorem Cell.reported {c : Cfg} {k : KillState} {tr : Transition} (hc : Cell c k tr) {e : StatusEvent}
    (h : txStatus c e ∈ tr.actions) : e ∈ [StatusEvent.hardKilled, .softKilled, .softUnkilled] := by
  have hinj {e' : StatusEvent} : txStatus c e = txStatus c e' ↔ e = e' := (txStatus_injective c).eq_iff
  have hstop := txStatus_not_mem_stopAll c e
  have hen {b : Bool} : txStatus c e ≠ .pwmEnable b := nofun
  have hthr {b : Bool} : txStatus c e ≠ .thrusterPower b := nofun
  have hmain {b : Bool} : txStatus c e ≠ .mainPower b := nofun
  have hdelay {d : Nat} : txStatus c e ≠ .delay d := nofun
  cases hc with
  | hardKill =>
    have hreport : e = .softKilled ∨ e = .hardKilled := by
      simpa [Machine.hardKill, hinj, hstop, hen, hthr, hmain, hdelay] using h
    obtain rfl | rfl := hreport <;> decide
  | ignore => cases h
  | hardUnkill => simp [Machine.hardUnkill, hstop, hen, hthr, hmain] at h
  | softKill =>
    have hreport : e = .softKilled := by simpa [Machine.softKill, hinj, hstop, hen, hthr] using h
    rw [hreport]
    decide
  | softUnkill =>
    have hreport : e = .softUnkilled := by simpa [Machine.softUnkill, hinj, hen] using h
    rw [hreport]
    decide
  | thrust cmds =>
    obtain ⟨cb, -, hset⟩ := List.mem_map.mp h
    cases hset

/-- Settles O37: the step makes one transition, and no transition reports any of the three events. -/
theorem onlyStatusTicksSendRefreshFrames : Obligations.OnlyStatusTicksSendRefreshFrames := by
  unfold Obligations.OnlyStatusTicksSendRefreshFrames
  intro s u st rest hw hidle hq hst hstep
  rw [step_pending hw hidle hq] at hstep
  cases hstep
  obtain ⟨tr, hcell, htrace⟩ := afterStim_trace_of_cell hst (s.accept st rest)
  exact ⟨tr.actions, htrace, fun h => absurd (hcell.reported (e := .hardUnkilled) h) (by decide),
    fun h => absurd (hcell.reported (e := .goAsserted) h) (by decide),
    fun h => absurd (hcell.reported (e := .goUnasserted) h) (by decide)⟩

end Sys2Proof.Machine
end

section
/-! PROOFS. The statements of spec/60_exceptions.md about a step: a frame that is not accepted is dropped, only a hard
unkill wakes the machine, and no stimulus sequence stops it. -/

namespace Sys2Proof.Machine

/-! The dropped frame (spec/60_exceptions.md R171). -/

/-- Settles O30: the handler leaves a dropped frame alone, so its cycle is empty and takes no ack. -/
theorem unacceptedFrameIsDropped : Obligations.UnacceptedFrameIsDropped := by
  unfold Obligations.UnacceptedFrameIsDropped
  intro s f t rest hw hidle hq hno
  refine ⟨_, step_pending hw hidle hq, ?_⟩
  rw [afterStim, afterRx_of_not_accepted (s := s.accept (.rxFrame f t) rest) hno]
  exact ⟨sameRegs_accept_endCycle .., rfl, rfl, rfl, rfl, rfl, rfl⟩

/-! Waking (spec/60_exceptions.md R188, R193): leaving `HardKilled` or switching a power output on. -/

/-- From `s` to `u` the kill state leaves `HardKilled`, thruster power comes on or main power comes on. -/
abbrev Wakes (s u : State) : Prop :=
  (s.ks = .hardKilled ∧ u.ks ≠ .hardKilled) ∨ (s.thrPwr = false ∧ u.thrPwr = true) ∨
    (s.mainPwr = false ∧ u.mainPwr = true)

theorem not_wakes_of_same {s u : State} (hks : u.ks = s.ks) (hthr : u.thrPwr = s.thrPwr)
    (hmain : u.mainPwr = s.mainPwr) : ¬Wakes s u := by
  rw [Wakes, hks, hthr, hmain]
  rintro (⟨hk, hne⟩ | ⟨hoff, hon⟩ | ⟨hoff, hon⟩)
  · exact hne hk
  all_goals
    rw [hoff] at hon
    cases hon

/-- Of the transitions of the matrix only the hard unkill wakes: kills switch the outputs off, and neither a soft unkill
nor a thrust command switches them. -/
theorem Cell.next_of_wakes {s : State} {tr : Transition} (hc : Cell s.cfg s.ks tr) (h : Wakes s (s.take tr)) :
    s.ks = .hardKilled ∧ tr.next = .running := by
  have he := take_emitted s tr
  generalize hk : s.ks = k at hc
  cases hc with
  | hardKill =>
    obtain ⟨-, hne⟩ | ⟨-, hon⟩ | ⟨-, hon⟩ := h
    · exact absurd rfl hne
    · cases he.thrPwr.symm.trans hon
    · cases he.mainPwr.symm.trans hon
  | ignore =>
    rw [← hk, State.take_ignore] at h
    exact absurd h (not_wakes_of_same rfl rfl rfl)
  | hardUnkill => exact ⟨rfl, rfl⟩
  | softKill =>
    obtain ⟨hhard, -⟩ | ⟨-, hon⟩ | ⟨hoff, hon⟩ := h
    · cases hk.symm.trans hhard
    · cases he.thrPwr.symm.trans hon
    · cases (he.mainPwr.trans hoff).symm.trans hon
  | softUnkill =>
    obtain ⟨hhard, -⟩ | ⟨hoff, hon⟩ | ⟨hoff, hon⟩ := h
    · cases hk.symm.trans hhard
    · cases (he.thrPwr.trans hoff).symm.trans hon
    · cases (he.mainPwr.trans hoff).symm.trans hon
  | thrust cmds =>
    obtain ⟨-, hthr, hmain⟩ := he.switches_of_acked (thrustApply_acked _ cmds)
    exact absurd h (not_wakes_of_same hk.symm hthr hmain)

/-- The one event that wakes is the hard-unkill request, in `HardKilled`. -/
theorem feed_of_wakes {s : State} {e : Event} (h : Wakes s (s.feed e)) :
    s.ks = .hardKilled ∧ (s.feed e).ks = .running ∧ e = .hardUnkillRequest := by
  obtain ⟨hk, hnext⟩ := (fsm_cell s.cfg s.ks s.hallLast e).next_of_wakes h
  refine ⟨hk, hnext, ?_⟩
  rw [hk, fsm_next_of_hardKilled] at hnext
  by_contra hne
  rw [if_neg hne] at hnext
  cases hnext

/-- In `HardKilled` a hall sample hard-kills again or does nothing. -/
theorem hallTransition_next_of_hardKilled (c : Cfg) (prev cur : Hall) :
    (hallTransition c .hardKilled prev cur).next = .hardKilled := by
  by_cases hrem : OnOffRemoved prev cur
  · rw [hallTransition_of_removed hrem]
    rfl
  · rw [hallTransition_of_none (k := .hardKilled) hrem fun hp => nomatch hp.1]
    rfl

/-- The one stimulus that wakes is a frame that passes the filter and decodes to the hard-unkill command. -/
theorem afterStim_of_wakes {st : Stimulus} {s : State} (h : Wakes s (afterStim st s)) :
    s.ks = .hardKilled ∧ (afterStim st s).ks = .running ∧ ∃ f t, st = .rxFrame f t ∧ f.id ∈ s.cfg.cmdIds ∧
      decodeCmd s.cfg f.len.toNat f.data = .killCommand .hardUnkill := by
  cases st with
  | rxFrame f t =>
    rw [afterStim] at h ⊢
    rcases afterRx_cases f s with ⟨-, hrx⟩ | ⟨k, hid, hd, hrx⟩ | ⟨cmds, cr, hs, ua, -, -, hrx⟩
    all_goals rw [hrx] at h ⊢
    · exact absurd h (not_wakes_of_same rfl rfl rfl)
    · obtain ⟨hk, hrun, hreq⟩ := feed_of_wakes (s := s.record) h
      have hunkill : k = .hardUnkill := by
        cases k with
        | hardUnkill => rfl
        | _ => cases hreq
      exact ⟨hk, hrun, f, t, rfl, hid, hunkill ▸ hd⟩
    · obtain ⟨-, -, hreq⟩ := feed_of_wakes (s := s.record.setDiag cr hs ua) h
      cases hreq
  | hallSample raw t =>
    rw [afterStim, handleHall, feedAll_hallEvents] at h
    obtain ⟨hk, hnext⟩ := (hallTransition_cell ..).next_of_wakes (s := { s with hallLast := filtered s.cfg raw }) h
    rw [hk, hallTransition_next_of_hardKilled] at hnext
    cases hnext
  | wdTick t =>
    rw [afterStim, handleWdTick] at h
    split at h
    · obtain ⟨-, -, hreq⟩ := feed_of_wakes h
      cases hreq
    · exact absurd h (not_wakes_of_same rfl rfl rfl)
  | statusTick t =>
    obtain ⟨-, hregs, -⟩ := emitAll_txStatus_spec (refreshList s) s
    exact absurd h (not_wakes_of_same hregs.ks hregs.thrPwr hregs.mainPwr)

/-- Settles O43: a step that takes nothing wakes nothing, and the command that wakes has one frame. -/
theorem onlyKchuWakesThePowerOutputs : Obligations.OnlyKchuWakesThePowerOutputs := by
  unfold Obligations.OnlyKchuWakesThePowerOutputs
  intro s u hstep h
  obtain ⟨-, ⟨-, rfl⟩ | ⟨st, rest, -, hq, rfl⟩⟩ := step_cases hstep
  · exact absurd h (not_wakes_of_same rfl rfl rfl)
  · obtain ⟨hk, hrun, f, t, rfl, hid, hd⟩ := afterStim_of_wakes (s := s.accept st rest) h
    obtain ⟨hlen, hbytes⟩ := decodeCmd_eq_killCommand_iff.mp hd
    exact ⟨hk, hrun, f, t, rest, hq, hid, BitVec.eq_of_toNat_eq hlen, hbytes⟩

/-! Progress (spec/60_exceptions.md R170, spec/70_reset_and_hazards.md R205, R213). -/

theorem runSteps_succ {s t : State} (n : Nat) (h : step s = .next t) : runSteps (n + 1) s = runSteps n t := by
  rw [runSteps, h]

theorem step_of_not_wf {s : State} (h : s.cfg.wf = false) : step s = .refused .illFormedConfig := by
  simp [step, processNext, h]

/-- One step for each pending stimulus empties the queue. -/
theorem runSteps_ordq_length {s : State} (hw : s.cfg.wf = true) (hidle : s.busy = false) :
    ∃ u, runSteps s.ordq.length s = .next u ∧ u.ordq = [] ∧ u.busy = false := by
  induction hq : s.ordq generalizing s with
  | nil => exact ⟨s, rfl, hq, hidle⟩
  | cons st rest ih =>
    obtain ⟨t, ht⟩ := step_next_of_wf hw
    obtain ⟨hcfg, htake⟩ := stepTakesStimuliInArrivalOrder s t ht
    obtain ⟨hordq, hidle'⟩ := htake hidle
    rw [hq, List.tail_cons] at hordq
    rw [List.length_cons, runSteps_succ _ ht]
    exact ih (hcfg ▸ hw) hidle' hordq

/-- Settles O45: each step of a well-formed machine answers a next state and takes one stimulus off the queue. -/
theorem everyStimulusSequenceIsProcessed : Obligations.EveryStimulusSequenceIsProcessed := by
  unfold Obligations.EveryStimulusSequenceIsProcessed
  exact ⟨fun _ => runSteps_ordq_length, fun _ => step_next_of_wf, fun _ => step_of_not_wf⟩

end Sys2Proof.Machine
end

section
/-! PROOFS. The tie order of spec/60_exceptions.md R181 at both levels: the stimuli that are new on one clock are queued
in the order of their sources. -/

namespace Sys2Proof.Machine

/-! The transaction level. -/

theorem reduceOption_cons_eq_append {α : Type} (o : Option α) (l : List (Option α)) :
    (o :: l).reduceOption = o.toList ++ l.reduceOption := by
  rw [← List.singleton_append, List.reduceOption_append, List.reduceOption_singleton]

/-- The tie order is the list of the four sources without the absent ones. -/
theorem tieOrder_eq_reduceOption (t : Time) (hall : Option (PerSensor Bool)) (rx : Option Frame) (wd st : Bool) :
    tieOrder t hall rx wd st =
      ([hall.map fun raw => .hallSample raw t, rx.map fun f => .rxFrame f t, if wd then some (.wdTick t) else none,
        if st then some (.statusTick t) else none] : List (Option Stimulus)).reduceOption := by
  simp only [reduceOption_cons_eq_append, tieOrder]
  refine congrArg₂ _ ?_ (congrArg₂ _ ?_ (congrArg₂ _ ?_ ?_))
  · cases hall <;> rfl
  · cases rx <;> rfl
  · cases wd <;> rfl
  · cases st <;> rfl

/-! The pin level (spec/10_state.md R37). -/

/-- What a clock queues is written out in `newSources`. -/
theorem newEntries_eq_newSources (p : PinState) (i : PinIn) : newEntries p.ordq i = newSources p i := by
  have hwaits (src : Source) : p.ordq.any (fun e => e.1 == src) = (p.ordq.map Prod.fst).contains src := by
    rw [Bool.eq_iff_iff]
    simp
  simp only [newEntries, newSources, offered_isSome, hwaits, Source.all]

/-- Out of reset, a clock accepts a stimulus exactly if it takes some source. -/
theorem accepting_isSome_iff {p : PinState} {i : PinIn} (hr : i.rst = false) :
    (accepting p i).isSome = true ↔ ∃ src, taking p i src = true := by
  simp [taking_iff, hr, Option.isSome_iff_exists]

/-- Settles O48: what is new goes behind the queue, or behind its tail when the head is taken. -/
theorem simultaneousStimuliKeepTheTieOrder : Obligations.SimultaneousStimuliKeepTheTieOrder := by
  unfold Obligations.SimultaneousStimuliKeepTheTieOrder
  refine ⟨fun s t hall rx wd st => by rw [State.arrive, tieOrder_eq_reduceOption], fun p i hr => ?_⟩
  rw [clock_ordq hr, newEntries_eq_newSources]
  refine ⟨fun hnone => ?_, fun src htake => ?_⟩
  · have hnotake : ¬(accepting p i).isSome = true := fun hsome => by
      obtain ⟨src, htake⟩ := (accepting_isSome_iff hr).mp hsome
      cases (hnone src).symm.trans htake
    rw [if_neg hnotake]
  · rw [if_pos ((accepting_isSome_iff hr).mpr ⟨src, htake⟩)]

end Sys2Proof.Machine
end

section
/-! PROOFS. The statements of spec/70_reset_and_hazards.md about the reset and about the soft unkill that restores no
thruster power (spec/90_conflicts.md C2): each follows from the meanings of its parts. -/

namespace Sys2Proof.Machine

/-- A clock under reset takes no source. -/
theorem taking_reset {i : PinIn} (hr : i.rst = true) (p : PinState) (src : Source) : taking p i src = false := by
  rw [taking, hr]
  rfl

/-- A clock under reset offers no frame. -/
theorem txOffer_reset {i : PinIn} (hr : i.rst = true) (p : PinState) : txOffer p i = none := by
  rw [txOffer, hr]
  rfl

/-- A clock under reset offers no pulse-width write. -/
theorem pwmSetOffer_reset {i : PinIn} (hr : i.rst = true) (p : PinState) : pwmSetOffer p i = none := by
  rw [pwmSetOffer, hr]
  rfl

/-- Settles O51: the clock is `pinReset`, which applies the reset of the transaction level and drops the position. -/
theorem pinResetAbandonsTheCycle : Obligations.PinResetAbandonsTheCycle := by
  unfold Obligations.PinResetAbandonsTheCycle
  intro p i hr
  rw [clock_reset hr]
  exact ⟨applyReset_hasResetValues p.core, rfl, rfl, rfl, rfl, rfl, rfl, taking_reset hr p, txOffer_reset hr p,
    pwmSetOffer_reset hr p⟩

/-- Settles O46: the soft kill leaves the magnets as they were, so the guard of the soft unkill holds after it; the soft
unkill enables PWM and leaves both powers and the widths as the soft kill left them. -/
theorem runningWithoutThrusterPower : Obligations.RunningWithoutThrusterPower := by
  unfold Obligations.RunningWithoutThrusterPower
  intro s hrun hgo hon
  obtain ⟨t, ht, -, -, hrest, hkill, -⟩ := kcsaSoftKillsInRunning s
  obtain ⟨-, hkilled, -, -, hthr, hmain, hpw⟩ := hkill hrun
  obtain ⟨u, hu, -, -, -, hunkill, -⟩ := kcsuSoftUnkillsUnderGuard t
  rw [hrest.hallLast] at hunkill
  obtain ⟨-, hks, -, hen, hthr', hmain', hpw'⟩ := hunkill ⟨hkilled, hgo, hon⟩
  exact ⟨t, u, ht, hu, hks, hen, hthr'.trans hthr, hmain'.trans hmain, fun ch => by rw [hpw', hpw]⟩

end Sys2Proof.Machine
end

section
/-! PROOFS. The end of every cycle at pin level (spec/70_reset_and_hazards.md R216, spec/93_implementation_defined.md
U17): an environment that answers every handshake, never stalls, and lets the time of a running delay pass works off the
plan, one micro-operation after the other. A fed event puts the actions of one transition in its place, and no transition
feeds an event. -/

namespace Sys2Proof.Machine

/-! What clocks can bring about. -/

/-- Some clocks without reset take `p` to a state with `goal`. -/
def PinState.CanReach (p : PinState) (goal : PinState → Prop) : Prop :=
  ∃ is : List PinIn, (∀ j ∈ is, j.rst = false) ∧ goal (clocks p is)

theorem clocks_append (p : PinState) (is js : List PinIn) : clocks p (is ++ js) = clocks (clocks p is) js := by
  induction is generalizing p with
  | nil => rfl
  | cons i is ih => exact ih (clock p i)

namespace PinState.CanReach

variable {p : PinState} {goal goal' : PinState → Prop}

theorem here (h : goal p) : p.CanReach goal := ⟨[], nofun, h⟩

theorem trans (h : p.CanReach goal) (k : ∀ q, goal q → q.CanReach goal') : p.CanReach goal' := by
  obtain ⟨is, his, hgoal⟩ := h
  obtain ⟨js, hjs, hgoal'⟩ := k _ hgoal
  refine ⟨is ++ js, fun j hj => ?_, by rwa [clocks_append]⟩
  exact (List.mem_append.mp hj).elim (his j) (hjs j)

theorem clock {i : PinIn} (hr : i.rst = false) (h : goal (Machine.clock p i)) : p.CanReach goal :=
  ⟨[i], by simpa using hr, h⟩

end PinState.CanReach

/-! The environment that lets a cycle go on. -/

/-- The clock at time `t` that brings no stimulus, answers either handshake, and does not stall. -/
def PinIn.answering (t : Time) : PinIn :=
  { rst := false, now := t, rx := none, hall := none, wdTick := false, statusTick := false,
    txReady := true, txOk := true, pwmSetReady := true, pwmSetOk := true, stall := false }

/-- `p` is in the middle of a cycle under configuration `c`, with `plan` left to do. -/
structure InCycle (c : Cfg) (plan : List Micro) (p : PinState) : Prop where
  busy : p.core.busy = true
  cfg : p.core.cfg = c
  plan : p.plan = plan

section WorkingOff

variable {c : Cfg} {p : PinState} {rest : List Micro}

/-- An answering clock in the middle of a cycle moves the position. -/
theorem InCycle.clock_answering {plan plan' : List Micro} (h : InCycle c plan p) {t : Time}
    (hadv : InCycle c plan' (advance p (.answering t))) : InCycle c plan' (clock p (.answering t)) := by
  rw [clock_busy h.busy rfl]
  exact ⟨hadv.busy, hadv.cfg, hadv.plan⟩

/-- A delay shorter than the range of the clock has elapsed when that much time has passed. -/
theorem elapsed_add_delay (t0 : Time) {d : Nat} (hd : d < 2 ^ 31) : elapsed (t0 + BitVec.ofNat 32 d) t0 = d := by
  unfold elapsed
  bv_omega

/-- A running delay ends once its time has passed. -/
theorem InCycle.canReach_of_running_delay {d : Nat} {t0 : Time} (h : InCycle c (.act (.delay d) :: rest) p)
    (hd : d < 2 ^ 31) (hrun : p.delayFrom = some t0) : p.CanReach (InCycle c rest) := by
  refine .clock (i := .answering (t0 + BitVec.ofNat 32 d)) rfl (h.clock_answering ?_)
  rw [advance_delay_ends h.plan hrun (elapsed_add_delay t0 hd).ge rfl]
  exact ⟨h.busy, h.cfg, rfl⟩

/-- A delay begins, if it does not run already, and ends. -/
theorem InCycle.canReach_of_delay {d : Nat} (h : InCycle c (.act (.delay d) :: rest) p) (hd : d < 2 ^ 31) :
    p.CanReach (InCycle c rest) := by
  cases hrun : p.delayFrom with
  | some t0 => exact h.canReach_of_running_delay hd hrun
  | none =>
    have hbegun : p.CanReach fun q => InCycle c (.act (.delay d) :: rest) q ∧ q.delayFrom = some 0 := by
      refine .clock (i := .answering 0) rfl ?_
      rw [clock_busy h.busy rfl, advance_delay_begins h.plan hrun rfl]
      exact ⟨⟨by simp [h.busy], by simp [h.cfg], h.plan⟩, rfl⟩
    exact hbegun.trans fun q ⟨hq, hrunning⟩ => hq.canReach_of_running_delay hd hrunning

/-- An answering clock issues the next action, unless that is a delay. -/
theorem InCycle.advance_act {a : Action} (h : InCycle c (.act a :: rest) p) (ha : ∀ d, a ≠ .delay d) (t : Time) :
    InCycle c rest (advance p (.answering t)) := by
  obtain ⟨hb, hc, hp⟩ := h
  cases a with
  | delay d => exact absurd rfl (ha d)
  | _ => constructor <;> simp [advance, hp, PinIn.answering, hb, hc]

theorem InCycle.canReach_of_act {a : Action} (h : InCycle c (.act a :: rest) p)
    (hshort : ∀ d, a = .delay d → d < 2 ^ 31) : p.CanReach (InCycle c rest) := by
  by_cases ha : ∃ d, a = .delay d
  · obtain ⟨d, rfl⟩ := ha
    exact h.canReach_of_delay (hshort d rfl)
  · exact .clock (i := .answering 0) rfl (h.clock_answering (h.advance_act (fun d hd => ha ⟨d, hd⟩) 0))

theorem InCycle.canReach_of_acts {as : List Action} (h : InCycle c (as.map Micro.act ++ rest) p)
    (hshort : ∀ d, .delay d ∈ as → d < 2 ^ 31) : p.CanReach (InCycle c rest) := by
  induction as generalizing p with
  | nil => exact .here h
  | cons a as ih =>
    refine (h.canReach_of_act fun d hd => hshort d (by simp [hd])).trans fun q hq => ?_
    exact ih hq fun d hd => hshort d (List.mem_cons_of_mem a hd)

theorem InCycle.canReach_of_commit {k : KillState} (h : InCycle c (.commit k :: rest) p) :
    p.CanReach (InCycle c rest) := by
  refine .clock (i := .answering 0) rfl (h.clock_answering ?_)
  constructor <;> simp [advance, h.plan, PinIn.answering, h.busy, h.cfg]

/-- The only delay of a transition is the hard-kill delay (spec/44_kill_fsm.md R148 to R153). -/
theorem Cell.delay_eq {k : KillState} {tr : Transition} (hc : Cell c k tr) {d : Nat} (h : .delay d ∈ tr.actions) :
    d = c.hardKillDelay := by
  cases hc with
  | hardKill => simpa [Machine.hardKill, stopAll, txStatus] using h
  | ignore => cases h
  | hardUnkill => simp [Machine.hardUnkill, stopAll] at h
  | softKill => simp [Machine.softKill, stopAll, txStatus] at h
  | softUnkill => simp [Machine.softUnkill, txStatus] at h
  | thrust cmds => simp [thrustApply] at h

/-- A fed event makes one transition: its actions, then its commit. -/
theorem InCycle.canReach_of_feed {e : Event} (h : InCycle c (.feed e :: rest) p) (hw : c.wf = true) :
    p.CanReach (InCycle c rest) := by
  have hcell := fsm_cell c p.core.ks p.core.hallLast e
  generalize htr : fsm c p.core.ks p.core.hallLast e = tr at hcell
  have hfed : InCycle c (tr.micros ++ rest) (clock p (.answering 0)) :=
    h.clock_answering (by constructor <;> simp [advance, h.plan, PinIn.answering, h.busy, h.cfg, htr])
  rw [Transition.micros, List.append_assoc] at hfed
  refine (PinState.CanReach.clock rfl hfed).trans fun q hq => ?_
  refine (hq.canReach_of_acts fun d hd => ?_).trans fun r hr => InCycle.canReach_of_commit hr
  rw [hcell.delay_eq hd]
  exact hardKillDelay_of_wf hw

/-- The next micro-operation can be worked off. -/
theorem InCycle.canReach_of_cons {m : Micro} (h : InCycle c (m :: rest) p) (hw : c.wf = true)
    (hshort : ∀ d, m = .act (.delay d) → d < 2 ^ 31) : p.CanReach (InCycle c rest) := by
  cases m with
  | act a => exact h.canReach_of_act fun d hd => hshort d (congrArg Micro.act hd)
  | commit k => exact h.canReach_of_commit
  | feed e => exact h.canReach_of_feed hw

/-- With nothing left to do, the next answering clock ends the cycle. -/
theorem InCycle.clock_of_nil (h : InCycle c [] p) (t : Time) : (clock p (.answering t)).core.busy = false := by
  rw [clock_busy h.busy rfl]
  simp [advance, h.plan, PinIn.answering]

theorem InCycle.canReach_idle {plan : List Micro} (h : InCycle c plan p) (hw : c.wf = true)
    (hshort : ∀ d, .act (.delay d) ∈ plan → d < 2 ^ 31) : p.CanReach fun q => q.core.busy = false := by
  induction plan generalizing p with
  | nil => exact .clock rfl (h.clock_of_nil 0)
  | cons m rest ih =>
    refine (h.canReach_of_cons hw fun d hd => hshort d (by simp [hd])).trans fun q hq => ?_
    exact ih hq fun d hd => hshort d (List.mem_cons_of_mem m hd)

end WorkingOff

/-- Settles O55: the plan is worked off from its head, and with nothing left to do one clock ends the cycle. -/
theorem pinCycleCanAlwaysEnd : Obligations.PinCycleCanAlwaysEnd := by
  unfold Obligations.PinCycleCanAlwaysEnd
  intro p hb hw hshort
  exact InCycle.canReach_idle ⟨hb, rfl, rfl⟩ hw hshort

end Sys2Proof.Machine
end
